-- ==== Sys2Proof/Word.lean ====
section
/-! DEFINITION. The word types of CamCorder-FR and the small fixed-size vectors of its filter unit
(00_scope.md R10; 42_kalman.md R201). -/

namespace Sys2Proof

/-- A byte, one sample of the shared frame buffer (20_memory.md R62). -/
abbrev Byte := BitVec 8

/-- A command word (30_encoding.md R98). -/
abbrev Word := BitVec 32

/-- The UNIT field of a command word: a slot, Grabber or filter number (30_encoding.md R98). -/
abbrev UnitNo := BitVec 8

/-- A 64-bit unsigned value: a tick timestamp or a sequence index (00_scope.md R10). -/
abbrev U64 := BitVec 64

/-- The carrier of `KF_NUM` (42_kalman.md R202). In the rational system it is the number itself; in
any other system it is a code for one of that system's numbers (log entry 5). -/
abbrev Kf := Rat

/-- Two entries, in index order. -/
structure V2 (α : Type) where
  e0 : α
  e1 : α
  deriving DecidableEq, Repr, Inhabited

/-- Four entries, in index order. -/
structure V4 (α : Type) where
  e0 : α
  e1 : α
  e2 : α
  e3 : α
  deriving DecidableEq, Repr, Inhabited

/-- A 2×2 matrix, row by row. -/
abbrev M22 := V2 (V2 Kf)

/-- A 2×4 matrix, row by row. -/
abbrev M24 := V2 (V4 Kf)

/-- A 4×2 matrix, row by row. -/
abbrev M42 := V4 (V2 Kf)

/-- A 4×4 matrix, row by row. -/
abbrev M44 := V4 (V4 Kf)

end Sys2Proof
end

