-- ==== Sys2Proof/Syntax.lean ====
section
/-! DEFINITION. The operations of CamCorder-FR, one constructor per row of spec/opcode_table.json, and
what travels beside a command word: the port, the typed payload and the draws of a step
(30_encoding.md R98 to R101; 10_state.md R44). -/

namespace Sys2Proof

/-- An operation with its UNIT field (30_encoding.md R101). ALLOC, ENCMD, DEQ and CANCEL take no unit,
yet a word with a nonzero UNIT decodes as the operation and raises BadUnit (R99), so they carry the
field too. -/
inductive Instr where
  | alloc (u : UnitNo)
  | lock (u : UnitNo)
  | unlock (u : UnitNo)
  | wrslot (u : UnitNo)
  | rdslot (u : UnitNo)
  | encmd (u : UnitNo)
  | decmd (u : UnitNo)
  | gstart (u : UnitNo)
  | gopen (u : UnitNo)
  | gchk (u : UnitNo)
  | gread (u : UnitNo)
  | gwrap (u : UnitNo)
  | enq (u : UnitNo)
  | gstat (u : UnitNo)
  | gpace (u : UnitNo)
  | deq (u : UnitNo)
  | cancel (u : UnitNo)
  | kfinit (u : UnitNo)
  | kfpred (u : UnitNo)
  | kfcorr (u : UnitNo)
  deriving DecidableEq, Repr

/-- The points where an agent issues operations to the block (60_exceptions.md R270). -/
inductive Port where
  | mgr
  | grb (i : Nat)
  | wtr
  | trk (j : Nat)
  deriving DecidableEq, Repr, Inhabited

/-- The five naturals of ALLOC's payload and of the register `GEO` (10_state.md R22). -/
structure Geo where
  n : Nat
  w : Nat
  h : Nat
  c : Nat
  m : Nat
  deriving DecidableEq, Repr, Inhabited

/-- An image: a byte sequence with its shape (30_encoding.md R100; 41_grabber_relay.md R165). -/
structure Image where
  rows : Nat
  cols : Nat
  chans : Nat
  data : List Byte
  deriving DecidableEq, Repr, Inhabited

/-- A View: a window onto live memory that holds no bytes (10_state.md R39). -/
structure View where
  base : Nat
  length : Nat
  deriving DecidableEq, Repr, Inhabited

/-- The typed operands beside a command word (30_encoding.md R100), one field per operand of the
table. An operation takes the operands R100 gives it and no other (log entry 10). -/
structure Payload where
  geo : Geo
  image : Image
  tick : U64
  index : U64
  value : U64
  zx : Kf
  zy : Kf
  deriving DecidableEq, Repr, Inhabited

/-- What an image source answers to a read: nothing yet, a failure, or an image of any shape
(41_grabber_relay.md R165). -/
inductive ReadAnswer where
  | noAnswer
  | fail
  | ok (image : Image)
  deriving DecidableEq, Repr, Inhabited

/-- A qualifying contour, as steps 2 to 5 of the Tracker's procedure leave it: its area and its raw
moments (43_tracker_consumer.md R232, R233). DESIGN CHOICE (log entry 5): the moments are numbers of
`KF_NUM`, the area is a rational in every number system. -/
structure Contour where
  area : Rat
  m00 : Kf
  m10 : Kf
  m01 : Kf
  deriving DecidableEq, Repr, Inhabited

/-- The draws of one step (00_scope.md R10 `draw`; 10_state.md R44): every value the sources leave
open that the step may take. -/
structure Draws where
  /-- the image source's answer to an open (41_grabber_relay.md R162) -/
  openOk : Bool
  /-- its answer to a read (R166) -/
  read : ReadAnswer
  /-- what the tick counter shows (10_state.md R26) -/
  tick : U64
  /-- the optional wall timestamp, an opaque token (10_state.md R36) -/
  wall : Option Nat
  /-- the average fps (41_grabber_relay.md R171) -/
  fps : Rat
  /-- on a full queue: drop now, or wait (41_grabber_relay.md R169) -/
  drop : Bool
  /-- which byte access comes next, one choice per byte step taken (40_buffer_codec.md R125, R129) -/
  picks : List Nat
  /-- the qualifying contours in extraction order (43_tracker_consumer.md R232, R240) -/
  contours : List Contour
  /-- the content of the mask, if this cycle builds it (43_tracker_consumer.md R239) -/
  mask : Image
  /-- whether this cycle reads the image inside the lock (43_tracker_consumer.md R231) -/
  imgInLock : Bool
  deriving DecidableEq, Repr, Inhabited

/-- What happens next: an agent issues a command word, an agent takes its next step by itself, or an
agent reads a byte through a View (10_state.md R20; 40_buffer_codec.md R127). -/
inductive Event where
  | issue (p : Port) (cw : Word) (payload : Payload) (draws : Draws)
  | advance (p : Port) (draws : Draws)
  | viewRead (p : Port) (view : View) (offset : Nat)
  deriving DecidableEq, Repr, Inhabited

end Sys2Proof
end

