-- ==== Sys2Proof/Config.lean ====
section
/-! DEFINITION. What an implementation of CamCorder-FR fixes: the immutable record `CFG`
(00_scope.md R8), and the free values: constants with no body that no proof can evaluate
(10_state.md R44; 42_kalman.md R202). -/

namespace Sys2Proof

/-- `LOCK_SCOPE` (10_state.md R24; 20_memory.md R83). -/
inductive LockScope where
  | buffer
  | slot
  deriving DecidableEq, Repr

/-- The number system `KF_NUM` (42_kalman.md R202): the rationals with exact arithmetic, or any other
system, whose operations are the uninterpreted constants `Config.kf…` at that number. -/
inductive KfSys where
  | rational
  | format (id : Nat)
  deriving DecidableEq, Repr

/-- An image source handle, an integer or a string (41_grabber_relay.md R163). -/
inductive Handle where
  | int (n : Int)
  | str (s : String)
  deriving DecidableEq, Repr

/-- An entry of the node registry (00_scope.md R8 `NODES[j]`). -/
structure Node where
  id : Nat
  x : Kf
  y : Kf
  deriving DecidableEq, Repr

/-- The immutable configuration record (00_scope.md R8). -/
structure Cfg where
  /-- `N`, `W`, `H`, `C`, `M` -/
  geo : Geo
  /-- `SWATCH`: strip byte offsets and their values -/
  swatch : List (Nat × Byte)
  /-- `LOCK_SCOPE` -/
  scope : LockScope
  /-- `QCAP` -/
  qcap : Nat
  /-- `ENQ_TIMEOUT`, read by no rule -/
  enqTimeout : Nat
  /-- `FPS_WINDOW` -/
  fpsWindow : Nat
  /-- `SPEED`, read by no rule -/
  speed : Rat
  /-- `HANDLE[i]` -/
  handles : List Handle
  /-- `LABEL[i]` -/
  labels : List String
  /-- `T`, the number of Trackers and of filters -/
  t : Nat
  /-- `KF_NUM` -/
  kfSys : KfSys
  /-- `KF_F` -/
  kfF : M44
  /-- `KF_H` -/
  kfH : M24
  /-- `KF_Q` -/
  kfQ : M44
  /-- `KF_R` -/
  kfR : M22
  /-- `KF_X0` -/
  kfX0 : V4 Kf
  /-- `KF_P0` -/
  kfP0 : M44
  /-- `TRAIL_N` -/
  trailN : Nat
  /-- `NODES[j]`, in registry order -/
  nodes : List (List Node)
  /-- `RADIUS` -/
  radius : Kf
  /-- `LED_XY[j]`, column and row -/
  ledXY : List (Nat × Nat)
  /-- `LED_THRESH` -/
  ledThresh : Nat
  deriving DecidableEq, Repr

/-- The 4×4 identity over the rationals (42_kalman.md R203). -/
def Config.refIdentity : M44 :=
  ⟨⟨1, 0, 0, 0⟩, ⟨0, 1, 0, 0⟩, ⟨0, 0, 1, 0⟩, ⟨0, 0, 0, 1⟩⟩

/-- The configuration `State.reset` is built with: configuration B of 40_buffer_codec.md R120 with the
reference filter of 42_kalman.md R203 and the tracker and queue values of programs P3 and P4 of
95_test_vectors.md. DESIGN CHOICE, unsafe to lean on (log entry 1): no statement rests on it, each is
about every value of the field `cfg`. -/
def Config.reference : Cfg where
  geo := ⟨2, 24, 2, 1, 3⟩
  swatch := []
  scope := .buffer
  qcap := 4
  enqTimeout := 500
  fpsWindow := 100
  speed := 1
  handles := [.int 0, .int 1]
  labels := ["cam0", "cam1"]
  t := 2
  kfSys := .rational
  kfF := ⟨⟨1, 0, 1, 0⟩, ⟨0, 1, 0, 1⟩, ⟨0, 0, 1, 0⟩, ⟨0, 0, 0, 1⟩⟩
  kfH := ⟨⟨1, 0, 0, 0⟩, ⟨0, 1, 0, 0⟩⟩
  kfQ := ⟨⟨1 / 100, 0, 0, 0⟩, ⟨0, 1 / 100, 0, 0⟩, ⟨0, 0, 1 / 100, 0⟩, ⟨0, 0, 0, 1 / 100⟩⟩
  kfR := ⟨⟨1, 0⟩, ⟨0, 1⟩⟩
  kfX0 := ⟨0, 0, 0, 0⟩
  kfP0 := Config.refIdentity
  trailN := 2
  nodes := [[⟨0, 10, 20⟩, ⟨1, 30, 40⟩], []]
  radius := 3
  ledXY := [(3, 1), (0, 0)]
  ledThresh := 128

/-- The schedule and the outside's inputs once the script is used up: event number `k`
(10_state.md R20, R44). Any schedule can be meant; which ones make a run is the weak fairness of
Machine/Runs.lean (20_memory.md R78). -/
opaque Config.event : Nat → Event

/-- The intensity of a pixel given by its samples, where the source gives no formula
(43_tracker_consumer.md R237). -/
opaque Config.intensity : List Byte → Nat

/-- Addition of the number system `id` (42_kalman.md R202). -/
opaque Config.kfAdd : Nat → Kf → Kf → Kf

/-- Subtraction of the number system `id` (42_kalman.md R202). -/
opaque Config.kfSub : Nat → Kf → Kf → Kf

/-- Multiplication of the number system `id` (42_kalman.md R202). -/
opaque Config.kfMul : Nat → Kf → Kf → Kf

/-- Division of the number system `id` (42_kalman.md R202). -/
opaque Config.kfDiv : Nat → Kf → Kf → Kf

/-- Sign change of the number system `id` (42_kalman.md R207). -/
opaque Config.kfNeg : Nat → Kf → Kf

/-- The number 0 of the number system `id`. -/
opaque Config.kfZero : Nat → Kf

/-- The number 1 of the number system `id`. -/
opaque Config.kfOne : Nat → Kf

/-- Whether a number of the system `id` is 0. -/
opaque Config.kfIsZero : Nat → Kf → Bool

/-- Whether one number of the system `id` is below another (43_tracker_consumer.md R235). -/
opaque Config.kfLt : Nat → Kf → Kf → Bool

end Sys2Proof
end

