-- ==== Sys2Proof/WellFormed.lean ====
section
/-! DEFINITION. Which terms are well formed: an operation that takes no unit has UNIT 0
(30_encoding.md R98), and a configuration meets the constraints of 00_scope.md R8 and R9. -/

namespace Sys2Proof

/-- UNIT is 0 where the operation takes no unit (30_encoding.md R98, R99). -/
def Instr.wf : Instr → Bool
  | .alloc u => u == 0
  | .encmd u => u == 0
  | .deq u => u == 0
  | .cancel u => u == 0
  | .lock _ => true
  | .unlock _ => true
  | .wrslot _ => true
  | .rdslot _ => true
  | .decmd _ => true
  | .gstart _ => true
  | .gopen _ => true
  | .gchk _ => true
  | .gread _ => true
  | .gwrap _ => true
  | .enq _ => true
  | .gstat _ => true
  | .gpace _ => true
  | .kfinit _ => true
  | .kfpred _ => true
  | .kfcorr _ => true

/-- The constraints on `N`, `W`, `H`, `C`, `M` (00_scope.md R8, R9). -/
def Geo.legal (g : Geo) : Bool :=
  decide (1 ≤ g.n) && decide (g.n ≤ 256) && decide (22 ≤ g.w) && decide (1 ≤ g.h) &&
    decide (1 ≤ g.c) && decide (1 ≤ g.m) && decide (g.m * g.c = 3)

/-- `SWATCH` is a partial map on the strip's offsets (30_encoding.md R94). -/
def Cfg.swatchLegal (c : Cfg) : Bool :=
  c.swatch.all (fun e => decide (e.1 < c.geo.m * c.geo.w * c.geo.c)) &&
    decide ((c.swatch.map Prod.fst).Nodup)

/-- The per-source and per-Tracker fields have one entry each (00_scope.md R8: `HANDLE[i]`,
`LABEL[i]`, `NODES[j]`, `LED_XY[j]`). -/
def Cfg.listsLegal (c : Cfg) : Bool :=
  decide (c.handles.length = c.geo.n) && decide (c.labels.length = c.geo.n) &&
    decide (c.nodes.length = c.t) && decide (c.ledXY.length = c.t)

/-- A legal configuration (00_scope.md R8, R9). -/
def Cfg.legal (c : Cfg) : Bool :=
  c.geo.legal && c.swatchLegal && decide (1 ≤ c.qcap) && decide (c.t ≤ 256) && c.listsLegal

end Sys2Proof
end

