-- ==== Sys2Proof/Decode.lean ====
section
/-! DEFINITION. The decoder and encoder of the command word (30_encoding.md R98 to R103) and of the
9-byte metadata block (R93 to R96). -/

namespace Sys2Proof

/-- The two reasons a command word is illegal (30_encoding.md R102). -/
inductive DecodeError where
  | unassignedOpcode
  | zeroFieldNotZero
  deriving DecidableEq, Repr

/-- One row of the opcode map (30_encoding.md R101). -/
structure OpRow where
  opc : BitVec 8
  make : UnitNo → Instr

/-- The opcode map (30_encoding.md R101). -/
def opTable : List OpRow :=
  [⟨0x01, .alloc⟩, ⟨0x02, .lock⟩, ⟨0x03, .unlock⟩, ⟨0x04, .wrslot⟩, ⟨0x05, .rdslot⟩,
   ⟨0x06, .encmd⟩, ⟨0x07, .decmd⟩, ⟨0x10, .gstart⟩, ⟨0x11, .gopen⟩, ⟨0x12, .gchk⟩,
   ⟨0x13, .gread⟩, ⟨0x14, .gwrap⟩, ⟨0x15, .enq⟩, ⟨0x16, .gstat⟩, ⟨0x17, .gpace⟩,
   ⟨0x18, .deq⟩, ⟨0x19, .cancel⟩, ⟨0x20, .kfinit⟩, ⟨0x21, .kfpred⟩, ⟨0x22, .kfcorr⟩]

/-- `OPC = CW[31:24]` (30_encoding.md R98). -/
def cwOpc (cw : Word) : BitVec 8 := cw.extractLsb' 24 8

/-- `UNIT = CW[23:16]` (30_encoding.md R98, R99). -/
def cwUnit (cw : Word) : UnitNo := cw.extractLsb' 16 8

/-- `ZERO = CW[15:0]` (30_encoding.md R98). -/
def cwZero (cw : Word) : BitVec 16 := cw.extractLsb' 0 16

/-- The operation a command word names, or why it is illegal (30_encoding.md R101, R102). -/
def decode (cw : Word) : Except DecodeError Instr :=
  match opTable.find? (fun r => r.opc == cwOpc cw) with
  | none => .error .unassignedOpcode
  | some r => if cwZero cw = 0 then .ok (r.make (cwUnit cw)) else .error .zeroFieldNotZero

/-- The opcode of an operation (30_encoding.md R101). -/
def Instr.opcode : Instr → BitVec 8
  | .alloc _ => 0x01
  | .lock _ => 0x02
  | .unlock _ => 0x03
  | .wrslot _ => 0x04
  | .rdslot _ => 0x05
  | .encmd _ => 0x06
  | .decmd _ => 0x07
  | .gstart _ => 0x10
  | .gopen _ => 0x11
  | .gchk _ => 0x12
  | .gread _ => 0x13
  | .gwrap _ => 0x14
  | .enq _ => 0x15
  | .gstat _ => 0x16
  | .gpace _ => 0x17
  | .deq _ => 0x18
  | .cancel _ => 0x19
  | .kfinit _ => 0x20
  | .kfpred _ => 0x21
  | .kfcorr _ => 0x22

/-- The UNIT field of an operation. -/
def Instr.unit : Instr → UnitNo
  | .alloc u => u
  | .lock u => u
  | .unlock u => u
  | .wrslot u => u
  | .rdslot u => u
  | .encmd u => u
  | .decmd u => u
  | .gstart u => u
  | .gopen u => u
  | .gchk u => u
  | .gread u => u
  | .gwrap u => u
  | .enq u => u
  | .gstat u => u
  | .gpace u => u
  | .deq u => u
  | .cancel u => u
  | .kfinit u => u
  | .kfpred u => u
  | .kfcorr u => u

/-- The command word of an operation, `OPC * 2^24 + UNIT * 2^16` (30_encoding.md R101). -/
def encode (i : Instr) : Word := i.opcode ++ i.unit ++ (0 : BitVec 16)

/-- The instruction read from a word numbered as opcode_table.json numbers its bits: one 32-bit word,
bits above `nbits` zero (30_encoding.md R103). -/
def decodeTableWord (nbits w : Nat) : Option Instr :=
  match decode (BitVec.ofNat 32 (w % 2 ^ nbits)) with
  | .ok i => some i
  | .error _ => none

/-- Byte `n` of a 64-bit value, `v[8n+7 : 8n]` (40_buffer_codec.md R133). -/
def byteOf (v : U64) (n : Nat) : Byte := v.extractLsb' (8 * n) 8

/-- `enc9(v)`: a zero byte, then the value, least significant byte first (30_encoding.md R93, R95). -/
def enc9 (v : U64) : List Byte := 0 :: (List.range 8).map (byteOf v)

/-- `dec9(b)`: the sum over n = 0 .. 7 of `b[1+n] * 2^(8n)`; `b[0]` does not enter
(30_encoding.md R96). -/
def dec9 (b : List Byte) : U64 :=
  BitVec.ofNat 64 (((List.range 8).map fun n => (b.getD (1 + n) 0).toNat * 2 ^ (8 * n)).sum)

end Sys2Proof
end

