-- ==== Sys2Proof/Machine/State.lean ====
section
/-! DEFINITION. The state of CamCorder-FR as plain data (10_state.md), the reasons the machine itself
stops, and the state after reset (10_state.md R45). -/

namespace Sys2Proof.Machine

/-- The shared frame buffer as (address, byte) pairs, addresses strictly rising, no entry equal to
what an unlisted address reads as (0x00, 20_memory.md R66). -/
abbrev Memory := List Host.Cell

/-- `GPH[i]`: the position of a Grabber in its run loop (10_state.md R28). `opn` is the spec's
`Open`. -/
inductive Phase where
  | idle
  | opn
  | chk
  | read
  | wrap
  | enq
  | wr
  | stat
  | pace
  deriving DecidableEq, Repr

/-- `GSTATE[i]` (10_state.md R29). -/
inductive GState where
  | created
  | running
  | stopped
  deriving DecidableEq, Repr

/-- A Frame (10_state.md R36). -/
structure Frame where
  index : U64
  tick : U64
  wall : Option Nat
  image : Image
  label : String
  deriving DecidableEq, Repr

/-- `WIP[i]`: a slot write in flight (10_state.md R32). `done` holds the (phase, slot byte offset)
pairs already written; `phase` is that of the byte written last, 1 before the first (log entry 29). -/
structure Wip where
  img : Image
  tick : U64
  idx : U64
  phase : Nat
  done : List (Nat × Nat)
  deriving DecidableEq, Repr

/-- The registers of one Grabber (10_state.md R28 to R33). -/
structure Grabber where
  gph : Phase
  gstate : GState
  seq : U64
  img : Option Image
  frm : Option Frame
  wip : Option Wip
  fpscnt : Nat
  deriving DecidableEq, Repr

/-- The registers of one filter: `KX[j]` and `KP[j]` (10_state.md R34). -/
structure Kfu where
  x : V4 Kf
  p : M44
  deriving DecidableEq, Repr

/-- Where a TRKCYCLE stands (43_tracker_consumer.md R231): at rest, or about to take the named step.
The model's own (log entry 15). -/
inductive TrkPhase where
  | rest
  | image
  | lock
  | decode
  | unlock
  | detect
  | correct
  | predict
  | output
  deriving DecidableEq, Repr

/-- A TRKCYCLE in progress: what the cycle has read so far (43_tracker_consumer.md R231). The model's
own (log entry 15). -/
structure Cycle where
  ph : TrkPhase
  view : View
  inLock : Bool
  /-- image bytes read: offset and byte -/
  got : List (Nat × Byte)
  /-- the decoded (tick, idx), for traceability only -/
  traced : Option (U64 × U64)
  /-- the detection of this cycle -/
  det : Option (Kf × Kf)
  deriving DecidableEq, Repr

/-- The state of one Tracker (10_state.md R40), with its cycle in progress. -/
structure Tracker where
  mask : Option Image
  rawTrail : List (Option (Kf × Kf))
  filtTrail : List (Kf × Kf)
  lastNode : Option Nat
  led : Bool
  cyc : Cycle
  deriving DecidableEq, Repr

/-- The output of one Tracker cycle: the tuple (LED, node) of 43_tracker_consumer.md R238, with the
Tracker's number and the bit `node_updated` that lives for the cycle (R236). -/
structure TrkOut where
  trk : Nat
  led : Bool
  node : Option Nat
  nodeUpdated : Bool
  deriving DecidableEq, Repr

/-- The value a fault record carries (60_exceptions.md R262, column info). -/
inductive Info where
  | none
  | word (cw : Word)
  | unit (u : UnitNo)
  | number (n : Nat)
  | phase (p : Phase)
  | gstate (g : GState)
  | config (g : Geo)
  | shape (rows cols chans : Nat)
  | port (p : Port)
  | offset (o : Nat)
  deriving DecidableEq, Repr

/-- A record of the sticky register `FAULTS` (10_state.md R37): port, cause code, info. -/
structure FaultRecord where
  port : Port
  code : BitVec 8
  info : Info
  deriving DecidableEq, Repr

/-- An event of the output list `LOG` (10_state.md R38). -/
inductive LogEvent where
  | dropFull (i : Nat) (idx : U64)
  | fps (i : Nat) (value : Rat)
  deriving DecidableEq, Repr

/-- What an operation that ends well answers (30_encoding.md R106). -/
inductive Result where
  | none
  | view (v : View)
  | pair (tick idx : U64)
  | bytes (b : List Byte)
  | frame (f : Frame)
  | position (x y : Kf)
  | delivered
  | dropped
  | byte (b : Byte)
  deriving DecidableEq, Repr

/-- A response (30_encoding.md R106). -/
inductive Response where
  | ok (r : Result)
  | fault (code : BitVec 8) (info : Info)
  deriving DecidableEq, Repr

/-- An operation a port has issued and that has not responded (30_encoding.md R106): with its
operands, and the block bytes a DECMD has read so far, byte `k` of the tickstamp block under `k`,
of the index block under `9 + k` (40_buffer_codec.md R129). The model's own (log entry 9). -/
structure Pending where
  instr : Instr
  payload : Payload
  got : List (Nat × Byte)
  deriving DecidableEq, Repr

/-- The port, operands and draws of the step being taken (log entry 2). -/
structure Input where
  port : Port
  payload : Payload
  draws : Draws
  deriving DecidableEq, Repr

/-- The state of the machine (10_state.md R45, and the model's own fields, INVENTORY.md). -/
structure State where
  /-- `CFG`, written by no step (00_scope.md R8) -/
  cfg : Cfg
  /-- `ALLOCATED` -/
  allocated : Bool
  /-- `GEO` -/
  geo : Geo
  /-- `SFB` -/
  sfb : Memory
  /-- `LOCK`, one entry, or `LOCK[s]`, one entry a slot: the holder, or none when free -/
  locks : List (Option Port)
  /-- `DQ`, head first -/
  dq : List Frame
  /-- `TICK`: the value the last read returned, `t_prev` of 10_state.md R26 -/
  tick : U64
  /-- `CANCEL` -/
  cancel : Bool
  /-- the registers of Grabber `i` -/
  grb : List Grabber
  /-- the registers of filter `j` -/
  kfu : List Kfu
  /-- `FAULTS`, oldest first -/
  faults : List FaultRecord
  /-- `LOG`, oldest first -/
  log : List LogEvent
  /-- the state of Tracker `j` -/
  trk : List Tracker
  /-- the Trackers' outputs, oldest first -/
  tout : List TrkOut
  /-- the operations that have not responded yet -/
  pend : List (Port × Pending)
  /-- the responses given, oldest first -/
  resp : List (Port × Response)
  /-- the port, operands and draws of the step being taken -/
  inp : Input
  /-- the events the outside has scheduled, next first -/
  script : List Event
  /-- how many events were drawn from `Config.event` -/
  clock : Nat
  deriving DecidableEq, Repr

/-- The reasons the machine itself stops. A fault of the spec is no such stop: it is a next state with
a record in `FAULTS` (60_exceptions.md R261). -/
inductive Fault where
  /-- A byte address outside `SFB` (20_memory.md R60, R66). Raised by the byte read and write
  primitives, so by WRSLOT, DECMD and View reads; only in a state no run reaches. Safe. -/
  | outsideSfb (address : Nat)
  /-- `IMG[i]` or `FRM[i]` is none in a phase whose operation reads it (10_state.md R31). Raised by
  GWRAP, ENQ and the loop form of WRSLOT; only in a state no run reaches. Safe. -/
  | registerEmpty (i : Nat)
  deriving DecidableEq, Repr

/-- The reasons an operation is refused. -/
inductive Refusal where
  /-- The instruction has no meaning in this model. Raised by no arm of `exec`. Safe. -/
  | notModelled (mnemonic : String)
  deriving DecidableEq, Repr

/-- A Grabber after reset (10_state.md R45). -/
def Grabber.reset : Grabber := ⟨.idle, .created, 0, none, none, none, 0⟩

/-- A cycle at rest. -/
def Cycle.rest : Cycle := ⟨.rest, ⟨0, 0⟩, false, [], none, none⟩

/-- A Tracker after reset (10_state.md R45). -/
def Tracker.reset : Tracker := ⟨none, [], [], none, false, Cycle.rest⟩

/-- How many lock registers there are (10_state.md R24). -/
def lockCount (c : Cfg) : Nat :=
  match c.scope with
  | .buffer => 1
  | .slot => c.geo.n

/-- The machine right after reset with configuration `c` (10_state.md R45; 70_reset_and_hazards.md
R300, R301). `GEO` and `TICK`, which the spec leaves open at reset, hold the values of log entries 3
and 4; `inp` is the model's own and is overwritten before it is read (log entry 2). -/
def State.resetWith (c : Cfg) : State where
  cfg := c
  allocated := false
  geo := ⟨0, 0, 0, 0, 0⟩
  sfb := []
  locks := List.replicate (lockCount c) none
  dq := []
  tick := 0
  cancel := false
  grb := List.replicate c.geo.n Grabber.reset
  kfu := List.replicate c.t ⟨c.kfX0, c.kfP0⟩
  faults := []
  log := []
  trk := List.replicate c.t Tracker.reset
  tout := []
  pend := []
  resp := []
  inp := ⟨.mgr, default, default⟩
  script := []
  clock := 0

/-- The machine right after reset, with the configuration of log entry 1. -/
def State.reset : State := State.resetWith Config.reference

end Sys2Proof.Machine
end

