-- ==== Sys2Proof/Machine/Operands.lean ====
section
/-! DEFINITION. Sizes and address functions of the shared frame buffer (20_memory.md R60 to R65;
30_encoding.md R90 to R92), the samples and shape of an image, and the class of a source handle. -/

namespace Sys2Proof.Machine

/-- `RESERVED_COLS` (00_scope.md R8; 30_encoding.md R91). -/
def reservedCols : Nat := 22

/-- `BLOCK_BYTES` (00_scope.md R8). -/
def blockBytes : Nat := 9

/-- `SLOT_BYTES = (H + M) * W * C` (00_scope.md R9). -/
def slotBytes (g : Geo) : Nat := (g.h + g.m) * g.w * g.c

/-- `IMG_BYTES = H * W * C` (00_scope.md R9). -/
def imgBytes (g : Geo) : Nat := g.h * g.w * g.c

/-- `STRIP_BYTES = M * W * C` (00_scope.md R9). -/
def stripBytes (g : Geo) : Nat := g.m * g.w * g.c

/-- `SFB_BYTES = N * SLOT_BYTES` (00_scope.md R9; 20_memory.md R60). -/
def sfbBytes (g : Geo) : Nat := g.n * slotBytes g

/-- `slot_base(s)` (20_memory.md R63). -/
def slotBase (g : Geo) (s : Nat) : Nat := s * slotBytes g

/-- `addr(s, r, c, ch)` (20_memory.md R64). -/
def addr (g : Geo) (s r c ch : Nat) : Nat := slotBase g s + (r * g.w + c) * g.c + ch

/-- `blk_addr(s, c0, k)` (20_memory.md R65). -/
def blkAddr (g : Geo) (s c0 k : Nat) : Nat :=
  addr g s (g.h + k / (3 * g.c)) (c0 + k % (3 * g.c) / g.c) (k % g.c)

/-- `TICK_COL0 = W - 22` (00_scope.md R8). -/
def tickCol (g : Geo) : Nat := g.w - reservedCols

/-- `INDEX_COL0 = W - 19` (00_scope.md R8). -/
def indexCol (g : Geo) : Nat := g.w - 19

/-- The address of byte `k` of the two blocks of slot `s` taken together: the tickstamp block for
k = 0 .. 8, the index block for k = 9 .. 17 (40_buffer_codec.md R129). -/
def metaAddr (g : Geo) (s k : Nat) : Nat :=
  if k < blockBytes then blkAddr g s (tickCol g) k else blkAddr g s (indexCol g) (k - blockBytes)

/-- `image[o]` (40_buffer_codec.md R124). -/
def imgSample (img : Image) (o : Nat) : Byte := img.data.getD o 0

/-- `shape(image) = (H, W, C)`; the byte sequence must have that many bytes (30_encoding.md R100;
log entry 11). -/
def imgHasShape (img : Image) (g : Geo) : Bool :=
  decide (img.rows = g.h) && decide (img.cols = g.w) && decide (img.chans = g.c) &&
    decide (img.data.length = imgBytes g)

/-- The class of a source handle (41_grabber_relay.md R163). -/
inductive SourceClass where
  | device (n : Int)
  | path (s : String)
  deriving DecidableEq, Repr

/-- The decimal value of a list of digits. -/
def decimalValue (ds : List Char) : Nat :=
  ds.foldl (fun v d => 10 * v + (d.toNat - '0'.toNat)) 0

/-- How a handle is classed before the open (41_grabber_relay.md R163). No operation reads it: the
class decides which source the oracle stands for and whether GPACE sleeps, and changes no rule. -/
def classify : Handle → SourceClass
  | .int n => .device n
  | .str s =>
    if !s.toList.isEmpty && s.toList.all Char.isDigit then .device (decimalValue s.toList)
    else .path s

end Sys2Proof.Machine
end

