-- ==== Sys2Proof/Machine/Flags.lean ====
section
/-! DEFINITION. The conditions computed from state and never stored: the two of the delivery queue
(10_state.md R41), the permission table of the ports and the ownership of units
(60_exceptions.md R270, R271). The block has no condition-code register (10_state.md R41). -/

namespace Sys2Proof.Machine

/-- `DQ_FULL` (10_state.md R41). -/
def State.dqFull (s : State) : Bool := decide (s.dq.length = s.cfg.qcap)

/-- `len(DQ) < QCAP`: the enqueue outcome of ENQ is enabled (41_grabber_relay.md R168). -/
def State.dqHasRoom (s : State) : Bool := decide (s.dq.length < s.cfg.qcap)

/-- `DQ_EMPTY` (10_state.md R41). -/
def State.dqEmpty (s : State) : Bool := s.dq.isEmpty

/-- The port is `MGR`. -/
def isMgr : Port → Bool
  | .mgr => true
  | _ => false

/-- The port is a `GRB` port. -/
def isGrb : Port → Bool
  | .grb _ => true
  | _ => false

/-- The port is `WTR`. -/
def isWtr : Port → Bool
  | .wtr => true
  | _ => false

/-- The port is a `TRK` port. -/
def isTrk : Port → Bool
  | .trk _ => true
  | _ => false

/-- The permission table (60_exceptions.md R271): `yes` and `own` together. -/
def permitted (i : Instr) (p : Port) : Bool :=
  match i with
  | .alloc _ => isMgr p
  | .lock _ => isMgr p || isTrk p
  | .unlock _ => isMgr p || isTrk p
  | .wrslot _ => isGrb p
  | .rdslot _ => isMgr p || isTrk p
  | .encmd _ => true
  | .decmd _ => isMgr p || isTrk p
  | .gstart _ => isMgr p
  | .gopen _ => isGrb p
  | .gchk _ => isGrb p
  | .gread _ => isGrb p
  | .gwrap _ => isGrb p
  | .enq _ => isGrb p
  | .gstat _ => isGrb p
  | .gpace _ => isGrb p
  | .deq _ => isWtr p
  | .cancel _ => isMgr p
  | .kfinit _ => isMgr p || isTrk p
  | .kfpred _ => isTrk p
  | .kfcorr _ => isTrk p

/-- The port has the unit's own number where the table says `own` (60_exceptions.md R271): a `GRB` or
`TRK` port of another number is not the owner; `MGR` owns no unit and is not asked to. -/
def ownsUnit (u : UnitNo) (p : Port) : Bool :=
  match p with
  | .mgr => true
  | .wtr => true
  | .grb k => decide (k = u.toNat)
  | .trk k => decide (k = u.toNat)

/-- The port exists (60_exceptions.md R270: `GRB[i]` for i < N, `TRK[j]` for j < T). -/
def portExists (c : Cfg) : Port → Bool
  | .mgr => true
  | .wtr => true
  | .grb i => decide (i < c.geo.n)
  | .trk j => decide (j < c.t)

end Sys2Proof.Machine
end

