-- ==== Sys2Proof/Machine/Ops.lean ====
section
/-! DEFINITION. The named operations over memory, registers, the lock, the queue and the ports that
every meaning is written with: byte read and write (20_memory.md R66, R67), `raise`
(60_exceptions.md R261), the response and the wait (30_encoding.md R106), the checks in their order
(40_buffer_codec.md R132), acquire and release (20_memory.md R72, R73), `log` (00_scope.md R10).
There is no return from a fault: no state was saved and no control was transferred
(60_exceptions.md R267). -/

namespace Sys2Proof.Machine

/-- The three outcomes of a step of this machine. -/
abbrev Out := Host.Outcome State Fault Refusal

/-! ## Memory -/

/-- What an unlisted address reads as: ALLOC makes every byte 0x00 (20_memory.md R66). -/
def unlistedByte : Byte := 0

/-- The byte at an address. -/
def Memory.read : Memory → Nat → Byte
  | [], _ => unlistedByte
  | (b, w) :: m, a => if a = b then w else Memory.read m a

/-- Store a byte, keeping the canonical form. -/
def Memory.write : Memory → Nat → Byte → Memory
  | [], a, v => if v = unlistedByte then [] else [(a, v)]
  | (b, w) :: m, a, v =>
    if a < b then (if v = unlistedByte then (b, w) :: m else (a, v) :: (b, w) :: m)
    else if a = b then (if v = unlistedByte then m else (a, v) :: m)
    else (b, w) :: Memory.write m a v

/-- The canonical form: addresses strictly rising, no entry equal to what an unlisted address reads
as. -/
def Memory.wf : Memory → Bool
  | [] => true
  | (a, v) :: m => decide (v ≠ unlistedByte) && m.all (fun c => decide (a < c.1)) && Memory.wf m

/-- `a` is an address of `SFB`, which exists once `ALLOCATED = 1` (20_memory.md R60, R66). -/
def State.inSfb (s : State) (a : Nat) : Bool := s.allocated && decide (a < sfbBytes s.geo)

/-- `MemRead(a, 1)` (20_memory.md R66); none where it is not defined. -/
def State.memRead (s : State) (a : Nat) : Option Byte :=
  if s.inSfb a then some (Memory.read s.sfb a) else none

/-- `MemWrite(a, 1, v)` (20_memory.md R67); none where it is not defined. -/
def State.memWrite (s : State) (a : Nat) (v : Byte) : Option State :=
  if s.inSfb a then some { s with sfb := Memory.write s.sfb a v } else none

/-! ## Registers -/

/-- The registers of Grabber `i`. -/
def State.grab (s : State) (i : Nat) : Grabber := s.grb.getD i Grabber.reset

/-- Change the registers of Grabber `i` and of no other. -/
def State.modGrab (s : State) (i : Nat) (f : Grabber → Grabber) : State :=
  { s with grb := s.grb.modify i f }

/-- The registers of filter `j`. -/
def State.filter (s : State) (j : Nat) : Kfu := s.kfu.getD j ⟨s.cfg.kfX0, s.cfg.kfP0⟩

/-- Write `KX[j]` and `KP[j]`. -/
def State.setFilter (s : State) (j : Nat) (k : Kfu) : State := { s with kfu := s.kfu.set j k }

/-- The state of Tracker `j`. -/
def State.tracker (s : State) (j : Nat) : Tracker := s.trk.getD j Tracker.reset

/-- Change the state of Tracker `j` and of no other. -/
def State.modTracker (s : State) (j : Nat) (f : Tracker → Tracker) : State :=
  { s with trk := s.trk.modify j f }

/-- `GPH[i] <- p` (00_scope.md R10). -/
def State.setPhase (s : State) (i : Nat) (p : Phase) : State :=
  s.modGrab i fun g => { g with gph := p }

/-- `WIP[i] <- w`. -/
def State.setWip (s : State) (i : Nat) (w : Option Wip) : State :=
  s.modGrab i fun g => { g with wip := w }

/-- Stop Grabber `i`: `GSTATE[i] <- Stopped`, `GPH[i] <- Idle` (41_grabber_relay.md R162, R164). -/
def State.stopGrabber (s : State) (i : Nat) : State :=
  s.modGrab i fun g => { g with gph := .idle, gstate := .stopped }

/-- Stop Grabber `i` on a fault of its loop-form WRSLOT, which also clears `FRM[i]`
(41_grabber_relay.md R170; 60_exceptions.md R265). -/
def State.stopGrabberAndDrop (s : State) (i : Nat) : State :=
  s.modGrab i fun g => { g with gph := .idle, gstate := .stopped, frm := none }

/-- `log(e)` (00_scope.md R10; 10_state.md R38). -/
def State.logEvent (s : State) (e : LogEvent) : State := { s with log := s.log ++ [e] }

/-- What a read of `TICK` returns: the drawn value, but never less than the value the previous read
returned (10_state.md R26; log entry 4). -/
def tickRead (prev drawn : U64) : U64 := if prev.toNat ≤ drawn.toNat then drawn else prev

/-! ## Ports: the outstanding operation, the response, the wait -/

/-- The operation port `p` has outstanding, if any (30_encoding.md R106). -/
def State.outstandingOf (s : State) (p : Port) : Option Pending := s.pend.lookup p

/-- The operation the issuing port has outstanding, if any. -/
def State.outstanding (s : State) : Option Pending := s.outstandingOf s.inp.port

/-- The outstanding operations of the ports other than `p`. -/
def dropPending (p : Port) (l : List (Port × Pending)) : List (Port × Pending) :=
  l.filter fun e => decide (e.1 ≠ p)

/-- The operation ends with response `r` on the issuing port (30_encoding.md R106). -/
def State.answer (s : State) (r : Response) : State :=
  { s with pend := dropPending s.inp.port s.pend, resp := s.resp ++ [(s.inp.port, r)] }

/-- `respond Ok(r)` (30_encoding.md R106). -/
def State.respond (s : State) (r : Result) : State := s.answer (.ok r)

/-- The operation has not responded yet: it waits, or has byte accesses left; the port stays busy
with it (30_encoding.md R106). `payload` and `got` are what it goes on with. -/
def State.keepOpen (s : State) (i : Instr) (payload : Payload) (got : List (Nat × Byte)) : State :=
  { s with pend := (s.inp.port, ⟨i, payload, got⟩) :: dropPending s.inp.port s.pend }

/-- The operation waits with the operands it was issued with. -/
def State.wait (s : State) (i : Instr) : State := s.keepOpen i s.inp.payload []

/-! ## Faults -/

/-- The faults of the spec (60_exceptions.md R262). -/
inductive Cause where
  | captureOpenFailure
  | illegalCommand
  | notPermitted
  | notAllocated
  | alreadyAllocated
  | badUnit
  | notOwner
  | badState
  | badConfig
  | shapeMismatch
  | lockMisuse
  | badOffset
  | kfSingular
  deriving DecidableEq, Repr

/-- The cause codes (60_exceptions.md R262). -/
def causeCode : Cause → BitVec 8
  | .captureOpenFailure => 0x01
  | .illegalCommand => 0x10
  | .notPermitted => 0x11
  | .notAllocated => 0x12
  | .alreadyAllocated => 0x13
  | .badUnit => 0x14
  | .notOwner => 0x15
  | .badState => 0x16
  | .badConfig => 0x17
  | .shapeMismatch => 0x18
  | .lockMisuse => 0x19
  | .badOffset => 0x1A
  | .kfSingular => 0x20

/-- `raise F(info)`: taking an exception (60_exceptions.md R261). The operation ends, the response on
the issuing port is `Fault(code, info)`, and the record (port, code, info) is appended to `FAULTS`.
Nothing is saved and control goes nowhere. -/
def State.raise (s : State) (c : Cause) (info : Info) : State :=
  { s.answer (.fault (causeCode c) info) with
    faults := s.faults ++ [⟨s.inp.port, causeCode c, info⟩] }

/-- One check of an operation: whether it fails, and the fault it then raises. -/
structure Check where
  fails : Bool
  cause : Cause
  info : Info
  deriving DecidableEq, Repr

/-- The first failing check decides the fault (40_buffer_codec.md R132; 60_exceptions.md R268). -/
def firstFailing : List Check → Option Check
  | [] => none
  | c :: cs => if c.fails then some c else firstFailing cs

/-- Make the checks in their order, then the body (40_buffer_codec.md R132). -/
def State.guarded (s : State) (checks : List Check) (body : Out) : Out :=
  match firstFailing checks with
  | some c => .next (s.raise c.cause c.info)
  | none => body

/-- The port may issue the operation; info is the word (60_exceptions.md R262, R271). -/
def State.checkPort (s : State) (i : Instr) : Check :=
  ⟨!permitted i s.inp.port, .notPermitted, .word (encode i)⟩

/-- `ALLOCATED = 1` (40_buffer_codec.md R132). -/
def State.checkAllocated (s : State) : Check := ⟨!s.allocated, .notAllocated, .none⟩

/-- `UNIT < limit` (30_encoding.md R99). -/
def checkUnit (u : UnitNo) (limit : Nat) : Check :=
  ⟨decide (limit ≤ u.toNat), .badUnit, .unit u⟩

/-- `UNIT = 0`, for the operations that take no unit (30_encoding.md R99). -/
def checkNoUnit (u : UnitNo) : Check := ⟨decide (u ≠ 0), .badUnit, .unit u⟩

/-- The port is the unit's own (60_exceptions.md R262, R271). -/
def State.checkOwner (s : State) (u : UnitNo) : Check :=
  ⟨!ownsUnit u s.inp.port, .notOwner, .unit u⟩

/-- `GPH[i]` is the phase the rule names (41_grabber_relay.md R160). -/
def State.checkPhase (s : State) (u : UnitNo) (p : Phase) : Check :=
  ⟨decide ((s.grab u.toNat).gph ≠ p), .badState, .phase (s.grab u.toNat).gph⟩

/-- The checks of a `GRB[i]` operation of phase `p` (41_grabber_relay.md R160). -/
def State.grabberChecks (s : State) (i : Instr) (u : UnitNo) (p : Phase) : List Check :=
  [s.checkPort i, checkUnit u s.cfg.geo.n, s.checkOwner u, s.checkPhase u p]

/-- The checks of an operation on slot `s` by a `TRK` port or `MGR` (40_buffer_codec.md R122, R126,
R129). -/
def State.slotChecks (s : State) (i : Instr) (u : UnitNo) : List Check :=
  [s.checkPort i, s.checkAllocated, checkUnit u s.cfg.geo.n]

/-- The checks of an operation on filter `j` (42_kalman.md R205, R206, R207). -/
def State.filterChecks (s : State) (i : Instr) (u : UnitNo) : List Check :=
  [s.checkPort i, checkUnit u s.cfg.t, s.checkOwner u]

/-! ## The lock -/

/-- Which lock register guards slot `u` (40_buffer_codec.md R122; 20_memory.md R83). -/
def lockIndex (c : Cfg) (u : Nat) : Nat :=
  match c.scope with
  | .buffer => 0
  | .slot => u

/-- The holder of the lock of slot `u`, none when it is free (10_state.md R24). -/
def State.lockOf (s : State) (u : Nat) : Option Port := s.locks.getD (lockIndex s.cfg u) none

/-- Write the lock of slot `u`. -/
def State.setLock (s : State) (u : Nat) (holder : Option Port) : State :=
  { s with locks := s.locks.set (lockIndex s.cfg u) holder }

/-- How an acquire ends (20_memory.md R72): the lock is taken, the port waits, or the port holds it
already. -/
inductive Acquired where
  | taken (s : State)
  | waits
  | misuse

/-- `acquire(L)` by the issuing port for slot `u` (20_memory.md R72). -/
def State.acquire (s : State) (u : Nat) : Acquired :=
  match s.lockOf u with
  | none => .taken (s.setLock u (some s.inp.port))
  | some q => if q = s.inp.port then .misuse else .waits

/-- `release(L)` by the issuing port for slot `u`; none where the port does not hold it
(20_memory.md R73). -/
def State.release (s : State) (u : Nat) : Option State :=
  if s.lockOf u = some s.inp.port then some (s.setLock u none) else none

/-- `raise LockMisuse`, info the port (60_exceptions.md R262). -/
def State.raiseLockMisuse (s : State) : State := s.raise .lockMisuse (.port s.inp.port)

/-- One of the candidates, by a draw (00_scope.md R10 `draw`); none when there is no candidate. -/
def pick {α : Type} (l : List α) (n : Nat) : Option α := l[n % l.length]?

end Sys2Proof.Machine
end

