-- ==== Sys2Proof/Machine/KfMath.lean ====
section
/-! DEFINITION. The arithmetic of the filter unit: the operations of a number system `KF_NUM`
(42_kalman.md R202) and the matrix operations as the plain nests of scalar operations of R201, sums
in increasing index order. -/

namespace Sys2Proof.Machine

/-- Addition in `KF_NUM`. -/
def kfAdd : KfSys → Kf → Kf → Kf
  | .rational, a, b => a + b
  | .format id, a, b => Config.kfAdd id a b

/-- Subtraction in `KF_NUM`. -/
def kfSub : KfSys → Kf → Kf → Kf
  | .rational, a, b => a - b
  | .format id, a, b => Config.kfSub id a b

/-- Multiplication in `KF_NUM`. -/
def kfMul : KfSys → Kf → Kf → Kf
  | .rational, a, b => a * b
  | .format id, a, b => Config.kfMul id a b

/-- Division in `KF_NUM`. -/
def kfDiv : KfSys → Kf → Kf → Kf
  | .rational, a, b => a / b
  | .format id, a, b => Config.kfDiv id a b

/-- Sign change in `KF_NUM`. -/
def kfNeg : KfSys → Kf → Kf
  | .rational, a => -a
  | .format id, a => Config.kfNeg id a

/-- The number 0 of `KF_NUM`. -/
def kfZero : KfSys → Kf
  | .rational => 0
  | .format id => Config.kfZero id

/-- The number 1 of `KF_NUM`. -/
def kfOne : KfSys → Kf
  | .rational => 1
  | .format id => Config.kfOne id

/-- The test against 0 in `KF_NUM`. -/
def kfIsZero : KfSys → Kf → Bool
  | .rational, a => decide (a = 0)
  | .format id, a => Config.kfIsZero id a

/-- The order of `KF_NUM`. -/
def kfLt : KfSys → Kf → Kf → Bool
  | .rational, a, b => decide (a < b)
  | .format id, a, b => Config.kfLt id a b

/-- Apply a function to each entry of a 4-vector. -/
def V4.map {α β : Type} (f : α → β) (v : V4 α) : V4 β := ⟨f v.e0, f v.e1, f v.e2, f v.e3⟩

/-- Apply a function to each entry of a 2-vector. -/
def V2.map {α β : Type} (f : α → β) (v : V2 α) : V2 β := ⟨f v.e0, f v.e1⟩

/-- Combine two 4-vectors entry by entry. -/
def V4.zip {α β γ : Type} (f : α → β → γ) (v : V4 α) (w : V4 β) : V4 γ :=
  ⟨f v.e0 w.e0, f v.e1 w.e1, f v.e2 w.e2, f v.e3 w.e3⟩

/-- Combine two 2-vectors entry by entry. -/
def V2.zip {α β γ : Type} (f : α → β → γ) (v : V2 α) (w : V2 β) : V2 γ :=
  ⟨f v.e0 w.e0, f v.e1 w.e1⟩

/-- The sum over k of `a[k] * b[k]`, in increasing k (42_kalman.md R201). -/
def dot4 (n : KfSys) (a b : V4 Kf) : Kf :=
  kfAdd n (kfAdd n (kfAdd n (kfMul n a.e0 b.e0) (kfMul n a.e1 b.e1)) (kfMul n a.e2 b.e2))
    (kfMul n a.e3 b.e3)

/-- The sum over k of `a[k] * b[k]` for 2-vectors (42_kalman.md R201). -/
def dot2 (n : KfSys) (a b : V2 Kf) : Kf := kfAdd n (kfMul n a.e0 b.e0) (kfMul n a.e1 b.e1)

/-- Transpose of a 4×4 matrix. -/
def trans44 (a : M44) : M44 :=
  ⟨V4.map V4.e0 a, V4.map V4.e1 a, V4.map V4.e2 a, V4.map V4.e3 a⟩

/-- Transpose of a 2×4 matrix. -/
def trans24 (a : M24) : M42 :=
  ⟨V2.map V4.e0 a, V2.map V4.e1 a, V2.map V4.e2 a, V2.map V4.e3 a⟩

/-- Transpose of a 4×2 matrix. -/
def trans42 (a : M42) : M24 := ⟨V4.map V2.e0 a, V4.map V2.e1 a⟩

/-- Transpose of a 2×2 matrix. -/
def trans22 (a : M22) : M22 := ⟨V2.map V2.e0 a, V2.map V2.e1 a⟩

/-- 4×4 times a 4-vector. -/
def mulVec44 (n : KfSys) (a : M44) (x : V4 Kf) : V4 Kf := V4.map (fun r => dot4 n r x) a

/-- 2×4 times a 4-vector. -/
def mulVec24 (n : KfSys) (a : M24) (x : V4 Kf) : V2 Kf := V2.map (fun r => dot4 n r x) a

/-- 4×2 times a 2-vector. -/
def mulVec42 (n : KfSys) (a : M42) (x : V2 Kf) : V4 Kf := V4.map (fun r => dot2 n r x) a

/-- 4×4 times 4×4. -/
def mul44 (n : KfSys) (a b : M44) : M44 :=
  V4.map (fun r => V4.map (fun c => dot4 n r c) (trans44 b)) a

/-- 2×4 times 4×4. -/
def mul24x44 (n : KfSys) (a : M24) (b : M44) : M24 :=
  V2.map (fun r => V4.map (fun c => dot4 n r c) (trans44 b)) a

/-- 2×4 times 4×2. -/
def mul24x42 (n : KfSys) (a : M24) (b : M42) : M22 :=
  V2.map (fun r => V2.map (fun c => dot4 n r c) (trans42 b)) a

/-- 4×4 times 4×2. -/
def mul44x42 (n : KfSys) (a : M44) (b : M42) : M42 :=
  V4.map (fun r => V2.map (fun c => dot4 n r c) (trans42 b)) a

/-- 4×2 times 2×2. -/
def mul42x22 (n : KfSys) (a : M42) (b : M22) : M42 :=
  V4.map (fun r => V2.map (fun c => dot2 n r c) (trans22 b)) a

/-- 4×2 times 2×4. -/
def mul42x24 (n : KfSys) (a : M42) (b : M24) : M44 :=
  V4.map (fun r => V4.map (fun c => dot2 n r c) (trans24 b)) a

/-- Sum of 4×4 matrices. -/
def add44 (n : KfSys) (a b : M44) : M44 := V4.zip (V4.zip (kfAdd n)) a b

/-- Difference of 4×4 matrices. -/
def sub44 (n : KfSys) (a b : M44) : M44 := V4.zip (V4.zip (kfSub n)) a b

/-- Sum of 2×2 matrices. -/
def add22 (n : KfSys) (a b : M22) : M22 := V2.zip (V2.zip (kfAdd n)) a b

/-- Sum of 4-vectors. -/
def addV4 (n : KfSys) (a b : V4 Kf) : V4 Kf := V4.zip (kfAdd n) a b

/-- Difference of 2-vectors. -/
def subV2 (n : KfSys) (a b : V2 Kf) : V2 Kf := V2.zip (kfSub n) a b

/-- The 4×4 identity `I4` of `KF_NUM` (42_kalman.md R201). -/
def identity44 (n : KfSys) : M44 :=
  ⟨⟨kfOne n, kfZero n, kfZero n, kfZero n⟩, ⟨kfZero n, kfOne n, kfZero n, kfZero n⟩,
    ⟨kfZero n, kfZero n, kfOne n, kfZero n⟩, ⟨kfZero n, kfZero n, kfZero n, kfOne n⟩⟩

/-- `S[0][0]*S[1][1] - S[0][1]*S[1][0]` (42_kalman.md R207). -/
def det22 (n : KfSys) (m : M22) : Kf :=
  kfSub n (kfMul n m.e0.e0 m.e1.e1) (kfMul n m.e0.e1 m.e1.e0)

/-- The inverse of a 2×2 matrix with determinant `d`: `(1/d)` times the adjugate (42_kalman.md
R207). -/
def inverse22 (n : KfSys) (m : M22) (d : Kf) : M22 :=
  let f := kfDiv n (kfOne n) d
  ⟨⟨kfMul n f m.e1.e1, kfMul n f (kfNeg n m.e0.e1)⟩,
    ⟨kfMul n f (kfNeg n m.e1.e0), kfMul n f m.e0.e0⟩⟩

/-- The time update: `x' = F x`, `P' = F P F^T + Q` (42_kalman.md R206). -/
def predictFilter (c : Cfg) (k : Kfu) : Kfu :=
  ⟨mulVec44 c.kfSys c.kfF k.x,
    add44 c.kfSys (mul44 c.kfSys (mul44 c.kfSys c.kfF k.p) (trans44 c.kfF)) c.kfQ⟩

/-- The innovation covariance `S = Hm P Hm^T + R` (42_kalman.md R207). -/
def innovationCov (c : Cfg) (k : Kfu) : M22 :=
  add22 c.kfSys (mul24x42 c.kfSys (mul24x44 c.kfSys c.kfH k.p) (trans24 c.kfH)) c.kfR

/-- The gain `K = P Hm^T Si` (42_kalman.md R207). -/
def kalmanGain (c : Cfg) (k : Kfu) : M42 :=
  mul42x22 c.kfSys (mul44x42 c.kfSys k.p (trans24 c.kfH))
    (inverse22 c.kfSys (innovationCov c k) (det22 c.kfSys (innovationCov c k)))

/-- The measurement update: `x' = x + K y`, `P' = (I4 - K Hm) P` (42_kalman.md R207). -/
def correctFilter (c : Cfg) (k : Kfu) (zx zy : Kf) : Kfu :=
  ⟨addV4 c.kfSys k.x
      (mulVec42 c.kfSys (kalmanGain c k) (subV2 c.kfSys ⟨zx, zy⟩ (mulVec24 c.kfSys c.kfH k.x))),
    mul44 c.kfSys
      (sub44 c.kfSys (identity44 c.kfSys) (mul42x24 c.kfSys (kalmanGain c k) c.kfH)) k.p⟩

/-- `det(S) = 0` (42_kalman.md R207). -/
def singular (c : Cfg) (k : Kfu) : Bool :=
  kfIsZero c.kfSys (det22 c.kfSys (innovationCov c k))

end Sys2Proof.Machine
end

