-- ==== Sys2Proof/Machine/Kalman.lean ====
section
/-! DEFINITION. The operations of the Kalman filter unit (42_kalman.md): KFINIT, KFPRED, KFCORR. -/

namespace Sys2Proof.Machine

/-- KFINIT (42_kalman.md R205). -/
def execKfinit (u : UnitNo) (s : State) : Out :=
  s.guarded (s.filterChecks (.kfinit u) u)
    (.next ((s.setFilter u.toNat ⟨s.cfg.kfX0, s.cfg.kfP0⟩).respond .none))

/-- KFPRED (42_kalman.md R206). -/
def execKfpred (u : UnitNo) (s : State) : Out :=
  s.guarded (s.filterChecks (.kfpred u) u)
    (let k := predictFilter s.cfg (s.filter u.toNat)
    .next ((s.setFilter u.toNat k).respond (.position k.x.e0 k.x.e1)))

/-- KFCORR (42_kalman.md R207). -/
def execKfcorr (u : UnitNo) (s : State) : Out :=
  s.guarded (s.filterChecks (.kfcorr u) u)
    (if singular s.cfg (s.filter u.toNat) then .next (s.raise .kfSingular (.number u.toNat))
    else
      .next ((s.setFilter u.toNat
        (correctFilter s.cfg (s.filter u.toNat) s.inp.payload.zx s.inp.payload.zy)).respond .none))

end Sys2Proof.Machine
end

