-- ==== Sys2Proof/Machine/Buffer.lean ====
section
/-! DEFINITION. The operations of the shared frame buffer and the metadata codec
(40_buffer_codec.md): ALLOC, LOCK, UNLOCK, WRSLOT, RDSLOT, ENCMD, DECMD, and the byte read through a
View. -/

namespace Sys2Proof.Machine

/-! ## ALLOC, LOCK, UNLOCK -/

/-- ALLOC's operands are out of bounds or differ from `CFG` (40_buffer_codec.md R121). -/
def badConfig (c : Cfg) (g : Geo) : Bool := !g.legal || decide (g ≠ c.geo)

/-- The change of state of a successful ALLOC (40_buffer_codec.md R121). -/
def State.allocate (s : State) (g : Geo) : State :=
  { s with
    geo := g
    sfb := []
    locks := List.replicate (lockCount s.cfg) none
    allocated := true }

/-- ALLOC (40_buffer_codec.md R121). -/
def execAlloc (u : UnitNo) (s : State) : Out :=
  s.guarded
    [s.checkPort (.alloc u), ⟨s.allocated, .alreadyAllocated, .none⟩, checkNoUnit u,
      ⟨badConfig s.cfg s.inp.payload.geo, .badConfig, .config s.inp.payload.geo⟩]
    (.next ((s.allocate s.inp.payload.geo).respond .none))

/-- LOCK (40_buffer_codec.md R122). -/
def execLock (u : UnitNo) (s : State) : Out :=
  s.guarded (s.slotChecks (.lock u) u)
    (match s.acquire u.toNat with
    | .taken t => .next (t.respond .none)
    | .waits => .next (s.wait (.lock u))
    | .misuse => .next s.raiseLockMisuse)

/-- UNLOCK (40_buffer_codec.md R123). -/
def execUnlock (u : UnitNo) (s : State) : Out :=
  s.guarded (s.slotChecks (.unlock u) u)
    (match s.release u.toNat with
    | some t => .next (t.respond .none)
    | none => .next s.raiseLockMisuse)

/-! ## WRSLOT -/

/-- One byte write of a WRSLOT: its phase, its slot byte offset and its byte (40_buffer_codec.md
R124, R125). -/
structure WrItem where
  phase : Nat
  off : Nat
  byte : Byte
  deriving DecidableEq, Repr

/-- Phase 1: the image, sample for sample (40_buffer_codec.md R124). -/
def imageWrites (g : Geo) (img : Image) : List WrItem :=
  (List.range (imgBytes g)).map fun o => ⟨1, o, imgSample img o⟩

/-- Phase 2: the swatch (40_buffer_codec.md R124; 30_encoding.md R94). -/
def swatchWrites (g : Geo) (swatch : List (Nat × Byte)) : List WrItem :=
  swatch.map fun e => ⟨2, imgBytes g + e.1, e.2⟩

/-- Phase 3, one block: `enc9(v)` in the patch whose first column is `c0` (40_buffer_codec.md R124).
The offset is the block address in slot 0, whose base is 0. -/
def blockWrites (g : Geo) (c0 : Nat) (v : U64) : List WrItem :=
  (List.range blockBytes).map fun k => ⟨3, blkAddr g 0 c0 k, (enc9 v).getD k 0⟩

/-- All byte writes of a WRSLOT (40_buffer_codec.md R124). -/
def slotWrites (s : State) (w : Wip) : List WrItem :=
  imageWrites s.geo w.img ++ swatchWrites s.geo s.cfg.swatch ++
    blockWrites s.geo (tickCol s.geo) w.tick ++ blockWrites s.geo (indexCol s.geo) w.idx

/-- The writes of phase `q` not done yet (40_buffer_codec.md R125). -/
def writesLeft (s : State) (w : Wip) (q : Nat) : List WrItem :=
  (slotWrites s w).filter fun it => decide (it.phase = q) && !w.done.contains (q, it.off)

/-- The writes that may come next: those left of the earliest phase that has any, since the phases
are visible in order and the order inside a phase is free (40_buffer_codec.md R125). -/
def nextWrites (s : State) (w : Wip) : List WrItem :=
  if writesLeft s w 1 ≠ [] then writesLeft s w 1
  else if writesLeft s w 2 ≠ [] then writesLeft s w 2
  else writesLeft s w 3

/-- The end of a WRSLOT: `WIP <- none`, release, `GPH = Wr` becomes `Stat`, the response
(40_buffer_codec.md R124). -/
def State.finishWrite (s : State) (u : Nat) : State :=
  match (s.setWip u none).release u with
  | none => (s.setWip u none).raiseLockMisuse
  | some t => (if (t.grab u).gph = .wr then t.setPhase u .stat else t).respond .none

/-- The byte writes of a WRSLOT in flight, one a choice, each a `MemWrite` of its own; the write ends
when none is left (40_buffer_codec.md R124, R125). `payload` is kept with the open operation. DESIGN
CHOICE (log entry 29): `WIP`'s field `phase` (10_state.md R32) takes the phase of the byte written, so it
moves on with the first byte of the next phase; R124 sets it to 1 and no rule says when it moves on. -/
def writeBytes (u : UnitNo) (payload : Payload) : List Nat → State → Out
  | [], s => .next (s.keepOpen (.wrslot u) payload [])
  | n :: ns, s =>
    match (s.grab u.toNat).wip with
    | none => .fault (.registerEmpty u.toNat)
    | some w =>
      match pick (nextWrites s w) n with
      | none => .next (s.finishWrite u.toNat)
      | some it =>
        match s.memWrite (slotBase s.geo u.toNat + it.off) it.byte with
        | none => .fault (.outsideSfb (slotBase s.geo u.toNat + it.off))
        | some t =>
          writeBytes u payload ns
            (t.setWip u.toNat (some { w with phase := it.phase, done := (it.phase, it.off) :: w.done }))

/-- The write begins once the lock is held: `WIP <- (image, tick, idx, phase 1, done = empty)`
(40_buffer_codec.md R124). -/
def State.beginWrite (s : State) (u : Nat) (payload : Payload) : State :=
  s.setWip u (some ⟨payload.image, payload.tick, payload.index, 1, []⟩)

/-- From the acquire on (40_buffer_codec.md R124). -/
def State.acquireAndWrite (s : State) (u : UnitNo) (payload : Payload) : Out :=
  match s.acquire u.toNat with
  | .taken t => writeBytes u payload s.inp.draws.picks (t.beginWrite u.toNat payload)
  | .waits => .next (s.keepOpen (.wrslot u) payload [])
  | .misuse => .next s.raiseLockMisuse

/-- The operands of WRSLOT: in the loop form (`GPH[s] = Wr`) those of `FRM[s]`, in the direct form
the payload (40_buffer_codec.md R124; 30_encoding.md R100). None where `GPH[s] = Wr` and `FRM[s]` is
none. -/
def State.writeOperands (s : State) (u : Nat) : Option Payload :=
  if (s.grab u).gph = .wr then
    (s.grab u).frm.map fun f =>
      { s.inp.payload with image := f.image, tick := f.tick, index := f.index }
  else some s.inp.payload

/-- The checks of WRSLOT up to the state of the unit (40_buffer_codec.md R124). -/
def State.writeChecks (s : State) (u : UnitNo) : List Check :=
  [s.checkPort (.wrslot u), s.checkAllocated, checkUnit u s.cfg.geo.n, s.checkOwner u,
    ⟨decide ((s.grab u.toNat).gph ≠ .idle) && decide ((s.grab u.toNat).gph ≠ .wr), .badState,
      .phase (s.grab u.toNat).gph⟩]

/-- WRSLOT in its loop form: on the Grabber's own port with `GPH[s] = Wr` (40_buffer_codec.md R124). -/
def State.isLoopForm (s : State) (u : UnitNo) : Bool :=
  decide (s.inp.port = .grb u.toNat) && decide ((s.grab u.toNat).gph = .wr)

/-- A fault of WRSLOT: `NotAllocated` or `ShapeMismatch` in the loop form stops the Grabber, any other
changes nothing but `FAULTS` (41_grabber_relay.md R170; 60_exceptions.md R265). -/
def State.raiseWrite (s : State) (u : UnitNo) (c : Cause) (info : Info) : State :=
  if s.isLoopForm u && (c == .notAllocated || c == .shapeMismatch) then
    (s.stopGrabberAndDrop u.toNat).raise c info
  else s.raise c info

/-- WRSLOT as it is issued: the checks, then the acquire and the byte writes (40_buffer_codec.md
R124). -/
def State.startWrite (s : State) (u : UnitNo) : Out :=
  match firstFailing (s.writeChecks u) with
  | some c => .next (s.raiseWrite u c.cause c.info)
  | none =>
    match s.writeOperands u.toNat with
    | none => .fault (.registerEmpty u.toNat)
    | some payload =>
      if imgHasShape payload.image s.geo then s.acquireAndWrite u payload
      else
        .next (s.raiseWrite u .shapeMismatch
          (.shape payload.image.rows payload.image.cols payload.image.chans))

/-- WRSLOT once it has passed its checks: it waits for the lock or goes on writing; it cannot fail a
check again (60_exceptions.md R266). -/
def State.continueWrite (s : State) (u : UnitNo) (o : Pending) : Out :=
  if (s.grab u.toNat).wip.isSome then writeBytes u o.payload s.inp.draws.picks s
  else s.acquireAndWrite u o.payload

/-- WRSLOT (40_buffer_codec.md R124, R125). -/
def execWrslot (u : UnitNo) (s : State) : Out :=
  match s.outstanding with
  | none => s.startWrite u
  | some o => s.continueWrite u o

/-! ## RDSLOT and reads through a View -/

/-- The View of slot `u` (40_buffer_codec.md R126). -/
def slotView (g : Geo) (u : Nat) : View := ⟨slotBase g u, slotBytes g⟩

/-- RDSLOT (40_buffer_codec.md R126). -/
def execRdslot (u : UnitNo) (s : State) : Out :=
  s.guarded (s.slotChecks (.rdslot u) u) (.next (s.respond (.view (slotView s.geo u.toNat))))

/-- The port obtained the View by a RDSLOT (60_exceptions.md R271). -/
def State.holdsView (s : State) (v : View) : Bool :=
  s.resp.contains (s.inp.port, .ok (.view v))

/-- The read of byte `o` through a View (40_buffer_codec.md R127). It is no operation and has no
opcode. -/
def readThroughView (v : View) (o : Nat) (s : State) : Out :=
  if v.length ≤ o then .next (s.raise .badOffset (.offset o))
  else
    match s.memRead (v.base + o) with
    | none => .fault (.outsideSfb (v.base + o))
    | some b => .next (s.respond (.byte b))

/-! ## ENCMD and DECMD -/

/-- ENCMD (40_buffer_codec.md R128). -/
def execEncmd (u : UnitNo) (s : State) : Out :=
  s.guarded [s.checkPort (.encmd u), checkNoUnit u]
    (.next (s.respond (.bytes (enc9 s.inp.payload.value))))

/-- The bytes of a DECMD not read yet: 0 .. 8 of the tickstamp block, 9 .. 17 of the index block
(40_buffer_codec.md R129). -/
def readsLeft (got : List (Nat × Byte)) : List Nat :=
  (List.range (2 * blockBytes)).filter fun k => !(got.map Prod.fst).contains k

/-- The nine bytes read under the numbers `k0 .. k0 + 8`. -/
def blockRead (got : List (Nat × Byte)) (k0 : Nat) : List Byte :=
  (List.range blockBytes).map fun k => (got.lookup (k0 + k)).getD 0

/-- `(dec9(tb), dec9(ib))` (40_buffer_codec.md R129). -/
def decodedPair (got : List (Nat × Byte)) : Result :=
  .pair (dec9 (blockRead got 0)) (dec9 (blockRead got blockBytes))

/-- The byte reads of a DECMD, one a choice, each a `MemRead` of its own; the operation responds when
none is left (40_buffer_codec.md R129). -/
def readBytes (u : UnitNo) : List Nat → List (Nat × Byte) → State → Out
  | [], got, s => .next (s.keepOpen (.decmd u) s.inp.payload got)
  | n :: ns, got, s =>
    match pick (readsLeft got) n with
    | none => .next (s.respond (decodedPair got))
    | some k =>
      match s.memRead (metaAddr s.geo u.toNat k) with
      | none => .fault (.outsideSfb (metaAddr s.geo u.toNat k))
      | some b => readBytes u ns ((k, b) :: got) s

/-- The bytes an open DECMD of the issuing port has read so far. -/
def State.readSoFar (s : State) : List (Nat × Byte) :=
  match s.outstanding with
  | none => []
  | some o => o.got

/-- DECMD (40_buffer_codec.md R129, R130). -/
def execDecmd (u : UnitNo) (s : State) : Out :=
  s.guarded (s.slotChecks (.decmd u) u) (readBytes u s.inp.draws.picks s.readSoFar s)

end Sys2Proof.Machine
end

