-- ==== Sys2Proof/Machine/Relay.lean ====
section
/-! DEFINITION. The operations of the Grabber, the relay and the delivery queue (41_grabber_relay.md):
GSTART, GOPEN, GCHK, GREAD, GWRAP, ENQ, GSTAT, GPACE, DEQ, CANCEL; and the run loop of R173. -/

namespace Sys2Proof.Machine

/-- GSTART (41_grabber_relay.md R161). -/
def execGstart (u : UnitNo) (s : State) : Out :=
  s.guarded
    [s.checkPort (.gstart u), checkUnit u s.cfg.geo.n,
      ⟨decide ((s.grab u.toNat).gstate ≠ .created), .badState, .gstate (s.grab u.toNat).gstate⟩]
    (.next ((s.modGrab u.toNat fun g =>
      { g with gstate := .running, gph := .opn, seq := 0, fpscnt := 0 }).respond .none))

/-- GOPEN (41_grabber_relay.md R162; 60_exceptions.md R264). The request for a resolution and a frame
rate has no effect on any state of the block. -/
def execGopen (u : UnitNo) (s : State) : Out :=
  s.guarded (s.grabberChecks (.gopen u) u .opn)
    (if s.inp.draws.openOk then .next ((s.setPhase u.toNat .chk).respond .none)
    else .next ((s.stopGrabber u.toNat).raise .captureOpenFailure (.number u.toNat)))

/-- GCHK (41_grabber_relay.md R164). -/
def execGchk (u : UnitNo) (s : State) : Out :=
  s.guarded (s.grabberChecks (.gchk u) u .chk)
    (if s.cancel then .next ((s.stopGrabber u.toNat).respond .none)
    else .next ((s.setPhase u.toNat .read).respond .none))

/-- GREAD (41_grabber_relay.md R166). It waits while the image source gives no answer. -/
def execGread (u : UnitNo) (s : State) : Out :=
  s.guarded (s.grabberChecks (.gread u) u .read)
    (match s.inp.draws.read with
    | .noAnswer => .next (s.wait (.gread u))
    | .fail => .next ((s.setPhase u.toNat .pace).respond .none)
    | .ok img =>
      .next ((s.modGrab u.toNat fun g => { g with img := some img, gph := .wrap }).respond .none))

/-- `LABEL[i]` (00_scope.md R8). -/
def labelOf (c : Cfg) (i : Nat) : String := c.labels.getD i ""

/-- The Frame GWRAP builds from an image at tick `t` (41_grabber_relay.md R167). -/
def State.frameOf (s : State) (i : Nat) (img : Image) (t : U64) : Frame :=
  ⟨(s.grab i).seq, t, s.inp.draws.wall, img, labelOf s.cfg i⟩

/-- GWRAP (41_grabber_relay.md R167). -/
def execGwrap (u : UnitNo) (s : State) : Out :=
  s.guarded (s.grabberChecks (.gwrap u) u .wrap)
    (match (s.grab u.toNat).img with
    | none => .fault (.registerEmpty u.toNat)
    | some img =>
      let t := tickRead s.tick s.inp.draws.tick
      let f := s.frameOf u.toNat img t
      .next (({ s with tick := t }.modGrab u.toNat fun g =>
        { g with frm := some f, seq := g.seq + 1, img := none, gph := .enq }).respond .none))

/-- ENQ (41_grabber_relay.md R168, R169): the enqueue outcome where the queue has room; where it is
full, the drop outcome or a wait, by a draw. -/
def execEnq (u : UnitNo) (s : State) : Out :=
  s.guarded (s.grabberChecks (.enq u) u .enq)
    (match (s.grab u.toNat).frm with
    | none => .fault (.registerEmpty u.toNat)
    | some f =>
      if s.dqHasRoom then
        .next (({ s with dq := s.dq ++ [f] }.setPhase u.toNat .wr).respond .delivered)
      else if s.dqFull && s.inp.draws.drop then
        .next (((s.logEvent (.dropFull u.toNat f.index)).setPhase u.toNat .wr).respond .dropped)
      else .next (s.wait (.enq u)))

/-- Whether this GSTAT logs an fps figure (41_grabber_relay.md R171). -/
def State.fpsDue (s : State) (i : Nat) : Bool := decide ((s.grab i).fpscnt + 1 = s.cfg.fpsWindow)

/-- GSTAT (41_grabber_relay.md R171). -/
def execGstat (u : UnitNo) (s : State) : Out :=
  s.guarded (s.grabberChecks (.gstat u) u .stat)
    (if s.fpsDue u.toNat then
      .next (((s.logEvent (.fps u.toNat s.inp.draws.fps)).modGrab u.toNat fun g =>
        { g with frm := none, fpscnt := 0, gph := .pace }).respond .none)
    else
      .next ((s.modGrab u.toNat fun g =>
        { g with frm := none, fpscnt := g.fpscnt + 1, gph := .pace }).respond .none))

/-- GPACE (41_grabber_relay.md R172). The sleep is time and nothing else. -/
def execGpace (u : UnitNo) (s : State) : Out :=
  s.guarded (s.grabberChecks (.gpace u) u .pace) (.next ((s.setPhase u.toNat .chk).respond .none))

/-- DEQ (41_grabber_relay.md R174). The Writer waits on an empty queue. -/
def execDeq (u : UnitNo) (s : State) : Out :=
  s.guarded [s.checkPort (.deq u), checkNoUnit u]
    (match s.dq with
    | [] => .next (s.wait (.deq u))
    | f :: fs => .next ({ s with dq := fs }.respond (.frame f)))

/-- CANCEL (41_grabber_relay.md R175). -/
def execCancel (u : UnitNo) (s : State) : Out :=
  s.guarded [s.checkPort (.cancel u), checkNoUnit u]
    (.next ({ s with cancel := true }.respond .none))

/-- The operation of the run loop that belongs to a phase (41_grabber_relay.md R173); none in
`Idle`. -/
def loopOp (u : UnitNo) : Phase → Option Instr
  | .idle => none
  | .opn => some (.gopen u)
  | .chk => some (.gchk u)
  | .read => some (.gread u)
  | .wrap => some (.gwrap u)
  | .enq => some (.enq u)
  | .wr => some (.wrslot u)
  | .stat => some (.gstat u)
  | .pace => some (.gpace u)

end Sys2Proof.Machine
end

