-- ==== Sys2Proof/Machine/Dispatch.lean ====
section
/-! DEFINITION. Which meaning each operation has (30_encoding.md R101). -/

namespace Sys2Proof.Machine

def exec (i : Instr) (s : State) : Host.Outcome State Fault Refusal :=
  match i with
  | .alloc u => Sys2Proof.Machine.execAlloc u s
  | .lock u => Sys2Proof.Machine.execLock u s
  | .unlock u => Sys2Proof.Machine.execUnlock u s
  | .wrslot u => Sys2Proof.Machine.execWrslot u s
  | .rdslot u => Sys2Proof.Machine.execRdslot u s
  | .encmd u => Sys2Proof.Machine.execEncmd u s
  | .decmd u => Sys2Proof.Machine.execDecmd u s
  | .gstart u => Sys2Proof.Machine.execGstart u s
  | .gopen u => Sys2Proof.Machine.execGopen u s
  | .gchk u => Sys2Proof.Machine.execGchk u s
  | .gread u => Sys2Proof.Machine.execGread u s
  | .gwrap u => Sys2Proof.Machine.execGwrap u s
  | .enq u => Sys2Proof.Machine.execEnq u s
  | .gstat u => Sys2Proof.Machine.execGstat u s
  | .gpace u => Sys2Proof.Machine.execGpace u s
  | .deq u => Sys2Proof.Machine.execDeq u s
  | .cancel u => Sys2Proof.Machine.execCancel u s
  | .kfinit u => Sys2Proof.Machine.execKfinit u s
  | .kfpred u => Sys2Proof.Machine.execKfpred u s
  | .kfcorr u => Sys2Proof.Machine.execKfcorr u s

end Sys2Proof.Machine
end

