-- ==== Sys2Proof/Machine/Tracker.lean ====
section
/-! DEFINITION. What a Tracker computes from the block's results (43_tracker_consumer.md R232 to
R240): the detection, the trails, the matched node, the transition, the indicator, the mask. -/

namespace Sys2Proof.Machine

/-- `push(tr, e)`: append, and discard the oldest entry on overflow (43_tracker_consumer.md R234). -/
def pushTrail {α : Type} (n : Nat) (tr : List α) (e : α) : List α :=
  if n < (tr ++ [e]).length then (tr ++ [e]).drop 1 else tr ++ [e]

/-- One turn of the loop over the contours: a later one wins by a strictly larger area only
(43_tracker_consumer.md R240). -/
def largerContour (best : Option Contour) (c : Contour) : Option Contour :=
  match best with
  | none => some c
  | some b => if b.area < c.area then some c else some b

/-- The choice among contours: largest area, the first seen on a tie (43_tracker_consumer.md R240). -/
def largestContour (cs : List Contour) : Option Contour := cs.foldl largerContour none

/-- The centroid by raw moments; a contour with `m00 = 0` yields none (43_tracker_consumer.md R233).
DESIGN CHOICE (log entry 5): the raw moments are numbers of `KF_NUM`, and `m00` is tested for 0 and the
others are divided by it there (`kfIsZero`, `kfDiv`); R233 does not say in which numbers. -/
def centroid (n : KfSys) (c : Contour) : Option (Kf × Kf) :=
  if kfIsZero n c.m00 then none else some (kfDiv n c.m10 c.m00, kfDiv n c.m01 c.m00)

/-- `detect`: none while there is no mask, else the centroid of the chosen contour
(43_tracker_consumer.md R232, R233, R239, R240). -/
def detect (n : KfSys) (mask : Option Image) (cs : List Contour) : Option (Kf × Kf) :=
  if mask.isNone then none else (largestContour cs).bind (centroid n)

/-- The squared distance of a node from a centroid (43_tracker_consumer.md R235). -/
def distanceSq (n : KfSys) (nd : Node) (cx cy : Kf) : Kf :=
  kfAdd n (kfMul n (kfSub n nd.x cx) (kfSub n nd.x cx))
    (kfMul n (kfSub n nd.y cy) (kfSub n nd.y cy))

/-- One turn of the loop over the registry: the best node so far and its squared distance
(43_tracker_consumer.md R235). -/
def betterNode (n : KfSys) (radiusSq cx cy : Kf) (best : Option (Nat × Kf)) (nd : Node) :
    Option (Nat × Kf) :=
  let d2 := distanceSq n nd cx cy
  let closer := match best with
    | none => true
    | some (_, b) => kfLt n d2 b
  if kfLt n d2 radiusSq && closer then some (nd.id, d2) else best

/-- `match_node(d, nodes, radius)` (43_tracker_consumer.md R235). -/
def matchNode (n : KfSys) (d : Option (Kf × Kf)) (nodes : List Node) (radius : Kf) : Option Nat :=
  match d with
  | none => none
  | some (cx, cy) =>
    (nodes.foldl (betterNode n (kfMul n radius radius) cx cy) none).map Prod.fst

/-- `transition(j, m)`: the new `LASTNODE`, the bit `node_updated`, and the node reported
(43_tracker_consumer.md R236). -/
def transition (lastNode m : Option Nat) : Option Nat × Bool × Option Nat :=
  if m ≠ lastNode then (m, true, m) else (lastNode, false, none)

/-- The samples of the pixel at column `x`, row `y` of an image of the configured shape; none outside
the image (20_memory.md R64). -/
def pixelSamples (g : Geo) (data : List Byte) (x y : Nat) : List Byte :=
  if x < g.w ∧ y < g.h then
    (List.range g.c).map fun ch => data.getD ((y * g.w + x) * g.c + ch) 0
  else []

/-- The single-channel intensity of a pixel: the sample itself for one channel; 0 for a pixel of zero
samples; else the oracle's (43_tracker_consumer.md R237, R239; log entry 17). -/
def pixelIntensity : List Byte → Nat
  | [] => Config.intensity []
  | [b] => b.toNat
  | px => if px.all (fun b => b == 0) then 0 else Config.intensity px

/-- The sum of the intensities of an image (43_tracker_consumer.md R239). -/
def intensitySum (g : Geo) (data : List Byte) : Nat :=
  ((List.range g.h).map fun y =>
    ((List.range g.w).map fun x => pixelIntensity (pixelSamples g data x y)).sum).sum

/-- The mask after this cycle: built on the first image with a non-zero sum of intensities, then never
written (43_tracker_consumer.md R239). Its content is a draw. -/
def maskAfter (mask : Option Image) (sum : Nat) (drawn : Image) : Option Image :=
  match mask with
  | some m => some m
  | none => if sum = 0 then none else some drawn

/-- `led(j, img)` (43_tracker_consumer.md R237). -/
def ledState (g : Geo) (xy : Nat × Nat) (thresh : Nat) (data : List Byte) : Bool :=
  decide (thresh < pixelIntensity (pixelSamples g data xy.1 xy.2))

end Sys2Proof.Machine
end

