-- ==== Sys2Proof/Machine/Agents.lean ====
section
/-! DEFINITION. Who moves: a command word on a port, an agent's own next step (the Grabber's run loop,
41_grabber_relay.md R173; the Tracker's TRKCYCLE, 43_tracker_consumer.md R231; an operation that
waited or has byte accesses left, 30_encoding.md R106), a read through a View (40_buffer_codec.md
R127). Also the pseudo-operations of 30_encoding.md R105 as sequences. -/

namespace Sys2Proof.Machine

/-! ## Commands -/

/-- A command word on the issuing port: an illegal word raises `IllegalCommand`, any other runs the
operation it names (30_encoding.md R98, R102). -/
def runCommand (cw : Word) (s : State) : Out :=
  match decode cw with
  | .error _ => .next (s.raise .illegalCommand (.word cw))
  | .ok i => exec i s

/-- The port's agent is a Tracker inside a TRKCYCLE (log entry 15). -/
def State.inCycle (s : State) (p : Port) : Bool :=
  match p with
  | .trk j => decide ((s.tracker j).cyc.ph ≠ .rest)
  | _ => false

/-- The port exists and has no operation outstanding (30_encoding.md R106): its agent may read through
a View, whether or not it is inside a TRKCYCLE. -/
def State.portIdle (s : State) (p : Port) : Bool :=
  portExists s.cfg p && (s.outstandingOf p).isNone

/-- The port is idle and its agent is not inside a TRKCYCLE (log entry 15): a command may be issued on
it. -/
def State.portFree (s : State) (p : Port) : Bool := s.portIdle p && !s.inCycle p

/-! ## The Tracker's cycle -/

/-- The operation a TRKCYCLE issues in a phase (43_tracker_consumer.md R231); none in the phases in
which the Tracker reads the image or computes. -/
def cycleOp (u : UnitNo) : TrkPhase → Option Instr
  | .rest => some (.rdslot u)
  | .image => none
  | .lock => some (.lock u)
  | .decode => some (.decmd u)
  | .unlock => some (.unlock u)
  | .detect => none
  | .correct => some (.kfcorr u)
  | .predict => some (.kfpred u)
  | .output => none

/-- The cycle after a response (43_tracker_consumer.md R231). A fault ends the cycle, but KFCORR's:
predict is always called (log entry 15). -/
def cycleAfter (inLock : Bool) (r : Response) (c : Cycle) : Cycle :=
  match c.ph, r with
  | .rest, .ok (.view v) => ⟨if inLock then .lock else .image, v, inLock, [], none, none⟩
  | .lock, .ok _ => { c with ph := if c.inLock then .image else .decode }
  | .decode, .ok (.pair t i) => { c with ph := .unlock, traced := some (t, i) }
  | .unlock, .ok _ => { c with ph := .detect }
  | .correct, _ => { c with ph := .predict }
  | .predict, .ok _ => { c with ph := .output }
  | _, _ => Cycle.rest

/-- The filtered trail after a response: KFPRED's result is recorded (43_tracker_consumer.md R231,
step 7). -/
def trailAfter (n : Nat) (ph : TrkPhase) (r : Response) (tr : List (Kf × Kf)) : List (Kf × Kf) :=
  match ph, r with
  | .predict, .ok (.position x y) => pushTrail n tr (x, y)
  | _, _ => tr

/-- Tracker `j` takes the response of the operation its cycle issued, once it has one. -/
def takeResponse (j : Nat) : Out → Out
  | .next t =>
    match t.outstandingOf (.trk j), t.resp.getLast? with
    | none, some e =>
      .next (t.modTracker j fun k =>
        { k with
          filtTrail := trailAfter t.cfg.trailN k.cyc.ph e.2 k.filtTrail
          cyc := cycleAfter t.inp.draws.imgInLock e.2 k.cyc })
    | _, _ => .next t
  | .fault f => .fault f
  | .refused r => .refused r

/-- The image bytes of the View not read yet (43_tracker_consumer.md R231, step 1b). -/
def imageLeft (g : Geo) (got : List (Nat × Byte)) : List Nat :=
  (List.range (imgBytes g)).filter fun o => !(got.map Prod.fst).contains o

/-- Step 1b: read the image bytes through the View, one a choice (43_tracker_consumer.md R231;
30_encoding.md R105, SNAP). -/
def readImage (j : Nat) : List Nat → State → Out
  | [], s => .next s
  | n :: ns, s =>
    match pick (imageLeft s.geo (s.tracker j).cyc.got) n with
    | none =>
      .next (s.modTracker j fun k =>
        { k with cyc := { k.cyc with ph := if k.cyc.inLock then .decode else .lock } })
    | some o =>
      match s.memRead ((s.tracker j).cyc.view.base + o) with
      | none => .fault (.outsideSfb ((s.tracker j).cyc.view.base + o))
      | some b =>
        readImage j ns (s.modTracker j fun k =>
          { k with cyc := { k.cyc with got := (o, b) :: k.cyc.got } })

/-- The image a cycle has read, byte by byte. -/
def cycleImage (g : Geo) (got : List (Nat × Byte)) : List Byte :=
  (List.range (imgBytes g)).map fun o => (got.lookup o).getD 0

/-- Steps 2 to 6 up to the correct: the mask, the detection, the raw trail (43_tracker_consumer.md
R231, R232, R239). -/
def detectStep (c : Cfg) (g : Geo) (d : Draws) (k : Tracker) : Tracker :=
  let mask := maskAfter k.mask (intensitySum g (cycleImage g k.cyc.got)) d.mask
  let det := detect c.kfSys mask d.contours
  { k with
    mask := mask
    rawTrail := pushTrail c.trailN k.rawTrail det
    cyc := { k.cyc with det := det, ph := if det.isSome then .correct else .predict } }

/-- Steps 8 to 10: the node, the indicator, the output (43_tracker_consumer.md R231, R236 to R238). -/
def State.outputStep (s : State) (j : Nat) : State :=
  let k := s.tracker j
  let tr := transition k.lastNode
    (matchNode s.cfg.kfSys k.cyc.det (s.cfg.nodes.getD j []) s.cfg.radius)
  let led := ledState s.geo (s.cfg.ledXY.getD j (0, 0)) s.cfg.ledThresh
    (cycleImage s.geo k.cyc.got)
  { s.modTracker j (fun k => { k with lastNode := tr.1, led := led, cyc := Cycle.rest }) with
    tout := s.tout ++ [⟨j, led, tr.2.2, tr.2.1⟩] }

/-- The payload of the operation a cycle issues: the detection, for KFCORR (43_tracker_consumer.md
R231, step 6). -/
def cyclePayload (det : Option (Kf × Kf)) (p : Payload) : Payload :=
  match det with
  | none => p
  | some (cx, cy) => { p with zx := cx, zy := cy }

/-- The next step of Tracker `j`'s cycle with no operation outstanding (43_tracker_consumer.md
R231). -/
def cycleStep (j : Nat) (s : State) : Out :=
  match cycleOp (BitVec.ofNat 8 j) (s.tracker j).cyc.ph with
  | some i =>
    takeResponse j
      (exec i { s with
        inp := { s.inp with payload := cyclePayload (s.tracker j).cyc.det s.inp.payload } })
  | none =>
    match (s.tracker j).cyc.ph with
    | .image => readImage j s.inp.draws.picks s
    | .detect => .next (s.modTracker j (detectStep s.cfg s.geo s.inp.draws))
    | _ => .next (s.outputStep j)

/-! ## Agents -/

/-- The next step of Grabber `i`'s run loop: the operation of its phase (41_grabber_relay.md R173);
in `Idle` there is none. -/
def loopStep (i : Nat) (s : State) : Out :=
  match loopOp (BitVec.ofNat 8 i) (s.grab i).gph with
  | some op => exec op s
  | none => .next s

/-- The agent of the issuing port goes on with the operation it has outstanding. -/
def resume (o : Pending) (s : State) : Out :=
  let t := { s with inp := { s.inp with payload := o.payload } }
  match s.inp.port with
  | .trk j => if s.inCycle (.trk j) then takeResponse j (exec o.instr t) else exec o.instr t
  | _ => exec o.instr t

/-- The agent of the issuing port takes its next step by itself (10_state.md R20). The Manager and the
Writer take none but to go on with an operation outstanding: their commands come from outside. -/
def advance (s : State) : Out :=
  match s.outstanding with
  | some o => resume o s
  | none =>
    match s.inp.port with
    | .grb i => loopStep i s
    | .trk j => cycleStep j s
    | .mgr => .next s
    | .wtr => .next s

/-- One event. An agent that has no enabled step takes none: the state is unchanged (20_memory.md
R72; 30_encoding.md R106). The port that obtained a View reads through it at the moment its agent chooses
(40_buffer_codec.md R127; 60_exceptions.md R271), on `TRK[j]` also between two steps of a TRKCYCLE, but not
while it has an operation outstanding: an agent that waits has no step (20_memory.md R72) and its port can
issue nothing else (30_encoding.md R106) (DEDUCED, log entry 23). -/
def runEvent (e : Event) (s : State) : Out :=
  match e with
  | .issue p cw payload draws =>
    if s.portFree p then runCommand cw { s with inp := ⟨p, payload, draws⟩ } else .next s
  | .advance p draws =>
    if portExists s.cfg p then advance { s with inp := ⟨p, s.inp.payload, draws⟩ } else .next s
  | .viewRead p v o =>
    let t := { s with inp := ⟨p, s.inp.payload, s.inp.draws⟩ }
    if s.portIdle p && t.holdsView v then readThroughView v o t else .next s

/-- The next event: the outside's script, and once it is used up the uninterpreted schedule
(10_state.md R20, R44; log entry 2). -/
def State.takeEvent (s : State) : Event × State :=
  match s.script with
  | e :: es => (e, { s with script := es })
  | [] => (Config.event s.clock, { s with clock := s.clock + 1 })

/-! ## Pseudo-operations (30_encoding.md R105) -/

/-- `RELAY i`: ENQ i, then WRSLOT i (41_grabber_relay.md R176). -/
def relayOps (i : UnitNo) : List (Port × Instr) :=
  [(.grb i.toNat, .enq i), (.grb i.toNat, .wrslot i)]

/-- `RUN i`: GSTART i; the loop then runs by itself (`loopStep`). -/
def runOps (i : UnitNo) : List (Port × Instr) := [(.mgr, .gstart i)]

/-- `DECMD.L s` on port `p`: LOCK s, DECMD s, UNLOCK s. -/
def lockedDecodeOps (p : Port) (s : UnitNo) : List (Port × Instr) :=
  [(p, .lock s), (p, .decmd s), (p, .unlock s)]

/-- `SNAP s`: RDSLOT s, then the reads of these offsets through its View, in any order, without the
lock. -/
def snapOps (p : Port) (s : UnitNo) : List (Port × Instr) := [(p, .rdslot s)]

/-- The offsets SNAP reads (70_reset_and_hazards.md R309). -/
def snapOffsets (g : Geo) : List Nat := List.range (imgBytes g)

/-! ## Placing a command -/

/-- The port a command word is placed on by `State.withFetchWord`: one that may issue the operation
and owns the unit, where it exists, else the first of its kind; `MGR` for an illegal word (log entry
25). -/
def fetchPort (c : Cfg) (cw : Word) : Port :=
  match decode cw with
  | .error _ => .mgr
  | .ok i =>
    if permitted i .mgr then .mgr
    else if permitted i .wtr then .wtr
    else if permitted i (.grb 0) then
      (if i.unit.toNat < c.geo.n then .grb i.unit.toNat else .grb 0)
    else (if i.unit.toNat < c.t then .trk i.unit.toNat else .trk 0)

/-- The operands placed beside a command word: the configured geometry and an image of its shape. -/
def fetchPayload (c : Cfg) : Payload :=
  ⟨c.geo, ⟨c.geo.h, c.geo.w, c.geo.c, List.replicate (imgBytes c.geo) 0⟩, 0, 0, 0, 0, 0⟩

/-- The state in which the next step runs command word `cw`: it is the next event of the script, on a
port that is free. -/
def State.placeCommand (s : State) (cw : Word) : State :=
  let p := fetchPort s.cfg cw
  { s with
    script := .issue p cw (fetchPayload s.cfg) default :: s.script
    pend := dropPending p s.pend
    trk := match p with
      | .trk j => s.trk.modify j fun k => { k with cyc := Cycle.rest }
      | _ => s.trk }

end Sys2Proof.Machine
end

