-- ==== Sys2Proof/Machine/Runs.lean ====
section
/-! DEFINITION. The runs of the machine. `step` says what a step can do, not that it is taken; which
agent moves is the schedule's choice (10_state.md R20). A run is an infinite sequence of steps under a
schedule that is weakly fair: an agent whose step stays enabled for ever eventually takes it
(20_memory.md R78; 70_reset_and_hazards.md R319). Nothing stronger is assumed. -/

namespace Sys2Proof.Machine

/-- The port whose agent moves in an event. -/
def eventPort : Event → Port
  | .issue p _ _ _ => p
  | .advance p _ => p
  | .viewRead p _ _ => p

/-- `s` with the event `e` next. -/
def State.given (s : State) (e : Event) : State := { s with script := [e] }

/-- No agent took a step between `s` and `t`: they agree but for the event itself and the order in
which the outstanding operations are listed. An operation that waits and goes on waiting is such a
case (20_memory.md R72, "the agent has no step"). -/
def idleBetween (s t : State) : Prop :=
  (∀ q, t.outstandingOf q = s.outstandingOf q) ∧
    { t with pend := s.pend, inp := s.inp, script := s.script, clock := s.clock } = s

/-- The agent of port `p` is in the middle of something: it has an operation outstanding, or is a
Grabber in its run loop, or a Tracker inside a TRKCYCLE. An agent that is not is free to do nothing:
its next command, or its next TRKCYCLE, comes when it will (log entry 20). -/
def State.underWay (s : State) (p : Port) : Bool :=
  (s.outstandingOf p).isSome || s.inCycle p ||
    match p with
    | .grb i => decide ((s.grab i).gph ≠ .idle)
    | _ => false

/-- The agent of port `p` has an enabled step of its own: for some draws its step changes the state. The
image source is not counted on: it may never answer, so the step must be one that is there without an
answer (41_grabber_relay.md R165; 70_reset_and_hazards.md R313). -/
def State.enabled (s : State) (p : Port) : Prop :=
  s.underWay p = true ∧ ∃ d : Draws, d.read = .noAnswer ∧
    ∃ t, step (s.given (.advance p d)) = .next t ∧ ¬ idleBetween s t

/-- In the event `e`, from `s` to `t`, the agent of port `p` took a step. -/
def takesStep (p : Port) (e : Event) (s t : State) : Prop := eventPort e = p ∧ ¬ idleBetween s t

/-- Weak fairness: an agent whose step stays enabled for ever eventually takes one (20_memory.md
R78). -/
def WeaklyFair (state : Nat → State) (event : Nat → Event) : Prop :=
  ∀ (p : Port) (n : Nat), (∀ m, n ≤ m → (state m).enabled p) →
    ∃ m, n ≤ m ∧ takesStep p (event m) (state m) (state (m + 1))

/-- A run: the states, the event that leads from each to the next, every one a step of the machine, and
the schedule weakly fair (10_state.md R20; 20_memory.md R78). -/
structure Run where
  state : Nat → State
  event : Nat → Event
  steps : ∀ n, step ((state n).given (event n)) = .next (state (n + 1))
  fair : WeaklyFair state event

end Sys2Proof.Machine
end

