-- ==== Sys2Proof/Safety.lean ====
section
/-! DEFINITION. What counts as a sound state and a safe run, in the terms the statements use: the
invariants of the spec, and the filter's registers read as Mathlib matrices. -/

namespace Sys2Proof.Machine

/-! ## Invariants -/

/-- `GSTATE[i] = Running` exactly when `GPH[i] != Idle` (10_state.md R29). -/
def runningIffNotIdle (g : Grabber) : Prop := g.gstate = .running ↔ g.gph ≠ .idle

/-- The register the phase's operation reads is not none: `IMG[i]` in `Wrap`, `FRM[i]` in `Enq` and
`Wr` (10_state.md R31; 41_grabber_relay.md R166, R167). -/
def phaseRegistersHeld (g : Grabber) : Prop :=
  (g.gph = .wrap → g.img.isSome = true) ∧ (g.gph = .enq ∨ g.gph = .wr → g.frm.isSome = true)

/-- `SFB` is in the canonical form, lists only addresses of `SFB`, and is empty before ALLOC
(10_state.md R23; 20_memory.md R60, R66). -/
def State.memoryOk (s : State) : Prop :=
  Memory.wf s.sfb = true ∧ (∀ c ∈ s.sfb, c.1 < sfbBytes s.geo) ∧ (s.allocated = false → s.sfb = [])

/-- Every register file has one entry a unit: N Grabbers, T filters, T Trackers, and the lock
registers of the scope (10_state.md R24, R28, R34, R40). -/
structure State.FilesOk (s : State) : Prop where
  grb : s.grb.length = s.cfg.geo.n
  kfu : s.kfu.length = s.cfg.t
  trk : s.trk.length = s.cfg.t
  locks : s.locks.length = lockCount s.cfg

/-- A port has at most one operation outstanding (30_encoding.md R106). -/
def State.oneOutstanding (s : State) : Prop := (s.pend.map Prod.fst).Nodup

/-- Who holds the lock while a slot is written (10_state.md R32; 70_reset_and_hazards.md R303): a
Grabber with a write in flight holds the lock of its slot, and a Grabber holds a lock only then.
The other clauses say what keeps that so: the register files have their length, a WRSLOT outstanding
is its Grabber's own, and nothing is in flight before ALLOC. -/
structure State.LockOk (s : State) : Prop where
  grbLength : s.grb.length = s.cfg.geo.n
  locksLength : s.locks.length = lockCount s.cfg
  wipHolds : ∀ k, (s.grab k).wip.isSome = true → s.lockOf k = some (.grb k)
  holderWrites : ∀ i k, s.lockOf i = some (.grb k) →
    (s.grab k).wip.isSome = true ∧ lockIndex s.cfg i = lockIndex s.cfg k
  pendOwn : ∀ e ∈ s.pend, ∀ u, e.2.instr = .wrslot u →
    e.1 = .grb u.toNat ∧ u.toNat < s.cfg.geo.n ∧ s.allocated = true
  wipAllocated : ∀ k, (s.grab k).wip.isSome = true → s.allocated = true

/-- A state from which no step stops the machine: the configuration is legal and latched, the
registers a phase needs are held, the operations outstanding and the Views given lie inside `SFB`. -/
structure State.Sound (s : State) : Prop where
  cfgLegal : s.cfg.legal = true
  geoLatched : s.allocated = true → s.geo = s.cfg.geo
  grbLength : s.grb.length = s.cfg.geo.n
  regsHeld : ∀ i, phaseRegistersHeld (s.grab i)
  pendInside : ∀ e ∈ s.pend, ∀ u, e.2.instr = .wrslot u ∨ e.2.instr = .decmd u →
    s.allocated = true ∧ u.toNat < s.cfg.geo.n
  viewsInside : ∀ p v, (p, Response.ok (.view v)) ∈ s.resp →
    s.allocated = true ∧ v.length = slotBytes s.cfg.geo ∧ v.base + v.length ≤ sfbBytes s.cfg.geo
  cyclesInside : ∀ j, (s.tracker j).cyc.ph ≠ .rest →
    s.allocated = true ∧ (s.tracker j).cyc.view.length = slotBytes s.cfg.geo ∧
      (s.tracker j).cyc.view.base + (s.tracker j).cyc.view.length ≤ sfbBytes s.cfg.geo

/-- A safe run has raised no fault (10_state.md R37). -/
def State.noFaults (s : State) : Prop := s.faults = []

/-- The run has ended: every Grabber that was started has stopped (70_reset_and_hazards.md R303). -/
def State.runEnded (s : State) : Prop := ∀ g ∈ s.grb, g.gstate ≠ .running

/-! ## Several steps of one operation -/

/-- `n` times the operation `i`, one after the other, stopping where one does not go on. -/
def repeatExec (i : Instr) : Nat → State → Out
  | 0, s => .next s
  | n + 1, s =>
    match exec i s with
    | .next t => repeatExec i n t
    | .fault f => .fault f
    | .refused r => .refused r

/-! ## The operands and conditions of the check statements -/

/-- The operation reaches `SFB` or the lock and so checks `ALLOCATED` (40_buffer_codec.md R132), ALLOC
apart. -/
def needsAllocated : Instr → Bool
  | .lock _ => true
  | .unlock _ => true
  | .wrslot _ => true
  | .rdslot _ => true
  | .decmd _ => true
  | _ => false

/-- The UNIT of the operation is in range (30_encoding.md R99). -/
def unitInRange (c : Cfg) : Instr → Bool
  | .alloc u => decide (u = 0)
  | .encmd u => decide (u = 0)
  | .deq u => decide (u = 0)
  | .cancel u => decide (u = 0)
  | .kfinit u => decide (u.toNat < c.t)
  | .kfpred u => decide (u.toNat < c.t)
  | .kfcorr u => decide (u.toNat < c.t)
  | i => decide (i.unit.toNat < c.geo.n)

/-- The state of `ALLOCATED` lets the operation pass its check (40_buffer_codec.md R132). -/
def allocationPasses (s : State) (i : Instr) : Bool :=
  match i with
  | .alloc _ => !s.allocated
  | j => !needsAllocated j || s.allocated

/-- The `own` cells of the permission table (60_exceptions.md R271). -/
def ownedOp : Instr → Bool
  | .wrslot _ => true
  | .gopen _ => true
  | .gchk _ => true
  | .gread _ => true
  | .gwrap _ => true
  | .enq _ => true
  | .gstat _ => true
  | .gpace _ => true
  | .kfinit _ => true
  | .kfpred _ => true
  | .kfcorr _ => true
  | _ => false

/-! ## The filter's registers as Mathlib matrices (42_kalman.md R201) -/

/-- A 4-vector. -/
def vec4 (v : V4 Kf) : Fin 4 → ℚ := ![v.e0, v.e1, v.e2, v.e3]

/-- A 2-vector. -/
def vec2 (v : V2 Kf) : Fin 2 → ℚ := ![v.e0, v.e1]

/-- A 4×4 matrix. -/
def mat44 (a : M44) : Matrix (Fin 4) (Fin 4) ℚ := Matrix.of ![vec4 a.e0, vec4 a.e1, vec4 a.e2, vec4 a.e3]

/-- A 2×4 matrix. -/
def mat24 (a : M24) : Matrix (Fin 2) (Fin 4) ℚ := Matrix.of ![vec4 a.e0, vec4 a.e1]

/-- A 2×2 matrix. -/
def mat22 (a : M22) : Matrix (Fin 2) (Fin 2) ℚ := Matrix.of ![vec2 a.e0, vec2 a.e1]

/-- The innovation covariance `S = Hm P Hm^T + R` of filter `k` (42_kalman.md R207). -/
def innovationMatrix (c : Cfg) (k : Kfu) : Matrix (Fin 2) (Fin 2) ℚ :=
  mat24 c.kfH * mat44 k.p * (mat24 c.kfH).transpose + mat22 c.kfR

/-- A configuration whose transition is the constant-velocity model with step `dt` (42_kalman.md R204,
R209). -/
def constantVelocity (c : Cfg) (dt : Rat) : Prop :=
  c.kfSys = .rational ∧
    c.kfF = ⟨⟨1, 0, dt, 0⟩, ⟨0, 1, 0, dt⟩, ⟨0, 0, 1, 0⟩, ⟨0, 0, 0, 1⟩⟩

end Sys2Proof.Machine
end

