-- ==== Sys2Proof/Certificates/Slice0/Obligations.lean ====
section
/-! DEFINITION. The statements for the provers. Each is about every state unless it says otherwise;
`s.respond r`, `s.raise c i`, `s.wait i` and `s.keepOpen i p g` are the model's response, fault, wait and
going on later, whose whole effect `RespondEndsAndWaitKeeps` and `RaiseIsTheWholeOfTrapEntry` state. -/

open Sys2Proof Sys2Proof.Machine

/-! ## Encodings -/

/-- Decoding the word of an operation gives the operation back, whatever its UNIT (30_encoding.md R98,
R101). -/
def Obligations.DecodeOfEncodeIsTheOperation : Prop :=
  ∀ i : Instr, decode (encode i) = .ok i

/-- A word that decodes is the word of the operation it decodes to: every legal word has one meaning
and no bit of it is dropped (30_encoding.md R98, R101, R103). -/
def Obligations.EncodeOfDecodeIsTheWord : Prop :=
  ∀ (cw : Word) (i : Instr), decode cw = .ok i → encode i = cw

/-- The full word of an operation is `OPC * 2^24 + UNIT * 2^16`, with the opcode of the map, and words of
the spec's table 2.4 decode to the operations it lists (30_encoding.md R101; 95_test_vectors.md 2.4). -/
def Obligations.WordOfEachOperation : Prop :=
  (∀ u : UnitNo,
    (encode (.alloc u)).toNat = 0x01 * 2 ^ 24 + u.toNat * 2 ^ 16 ∧
    (encode (.lock u)).toNat = 0x02 * 2 ^ 24 + u.toNat * 2 ^ 16 ∧
    (encode (.unlock u)).toNat = 0x03 * 2 ^ 24 + u.toNat * 2 ^ 16 ∧
    (encode (.wrslot u)).toNat = 0x04 * 2 ^ 24 + u.toNat * 2 ^ 16 ∧
    (encode (.rdslot u)).toNat = 0x05 * 2 ^ 24 + u.toNat * 2 ^ 16 ∧
    (encode (.encmd u)).toNat = 0x06 * 2 ^ 24 + u.toNat * 2 ^ 16 ∧
    (encode (.decmd u)).toNat = 0x07 * 2 ^ 24 + u.toNat * 2 ^ 16 ∧
    (encode (.gstart u)).toNat = 0x10 * 2 ^ 24 + u.toNat * 2 ^ 16 ∧
    (encode (.gopen u)).toNat = 0x11 * 2 ^ 24 + u.toNat * 2 ^ 16 ∧
    (encode (.gchk u)).toNat = 0x12 * 2 ^ 24 + u.toNat * 2 ^ 16 ∧
    (encode (.gread u)).toNat = 0x13 * 2 ^ 24 + u.toNat * 2 ^ 16 ∧
    (encode (.gwrap u)).toNat = 0x14 * 2 ^ 24 + u.toNat * 2 ^ 16 ∧
    (encode (.enq u)).toNat = 0x15 * 2 ^ 24 + u.toNat * 2 ^ 16 ∧
    (encode (.gstat u)).toNat = 0x16 * 2 ^ 24 + u.toNat * 2 ^ 16 ∧
    (encode (.gpace u)).toNat = 0x17 * 2 ^ 24 + u.toNat * 2 ^ 16 ∧
    (encode (.deq u)).toNat = 0x18 * 2 ^ 24 + u.toNat * 2 ^ 16 ∧
    (encode (.cancel u)).toNat = 0x19 * 2 ^ 24 + u.toNat * 2 ^ 16 ∧
    (encode (.kfinit u)).toNat = 0x20 * 2 ^ 24 + u.toNat * 2 ^ 16 ∧
    (encode (.kfpred u)).toNat = 0x21 * 2 ^ 24 + u.toNat * 2 ^ 16 ∧
    (encode (.kfcorr u)).toNat = 0x22 * 2 ^ 24 + u.toNat * 2 ^ 16) ∧
  decode 0x01000000 = .ok (.alloc 0) ∧ decode 0x02010000 = .ok (.lock 1) ∧
    decode 0x04010000 = .ok (.wrslot 1) ∧ decode 0x13000000 = .ok (.gread 0) ∧
    decode 0x18000000 = .ok (.deq 0) ∧ decode 0x21030000 = .ok (.kfpred 3)

/-- The block codec loses nothing: every 64-bit value comes back, and nine bytes come back exactly
when byte 0 is zero (30_encoding.md R97). -/
def Obligations.CodecRoundTrip : Prop :=
  (∀ v : U64, dec9 (enc9 v) = v) ∧
    (∀ b : List Byte, b.length = 9 → (enc9 (dec9 b) = b ↔ b.getD 0 0 = 0))

/-- `enc9` has nine bytes, byte 0 is zero and byte 1 + n is bits 8n+7 .. 8n of the value; `dec9` is the
sum of bytes 1 to 8, little-endian, and byte 0 does not enter (30_encoding.md R95, R96). -/
def Obligations.BlockLayoutAndValue : Prop :=
  (∀ v : U64, (enc9 v).length = 9 ∧ (enc9 v).getD 0 1 = 0 ∧
    ∀ n < 8, ((enc9 v).getD (1 + n) 0).toNat = v.toNat / 2 ^ (8 * n) % 256) ∧
  (∀ b0 b1 b2 b3 b4 b5 b6 b7 b8 : Byte,
    (dec9 [b0, b1, b2, b3, b4, b5, b6, b7, b8]).toNat =
      b1.toNat + b2.toNat * 2 ^ 8 + b3.toNat * 2 ^ 16 + b4.toNat * 2 ^ 24 + b5.toNat * 2 ^ 32 +
        b6.toNat * 2 ^ 40 + b7.toNat * 2 ^ 48 + b8.toNat * 2 ^ 56)

/-! ## Addresses -/

/-- The slots cover the buffer with no overlap and no gap (20_memory.md R63). -/
def Obligations.SlotsPartitionTheBuffer : Prop :=
  ∀ g : Geo, slotBytes g = (g.h + g.m) * g.w * g.c ∧ (∀ s, slotBase g s = s * slotBytes g) ∧
    ∀ a, a < sfbBytes g → ∃! s, s < g.n ∧ slotBase g s ≤ a ∧ a < slotBase g s + slotBytes g

/-- In a legal geometry the 18 block bytes of a slot lie at 18 different addresses of its strip; with
(M, C) = (3, 1) a block is three runs of three bytes `W` bytes apart, with (M, C) = (1, 3) it is nine
consecutive bytes (20_memory.md R65; 30_encoding.md R91, R92). -/
def Obligations.BlocksLieInTheStrip : Prop :=
  (∀ (g : Geo) (s : Nat), g.legal = true →
    (∀ k < 18, slotBase g s + imgBytes g ≤ metaAddr g s k ∧
      metaAddr g s k < slotBase g s + slotBytes g) ∧
    (∀ k < 18, ∀ l < 18, metaAddr g s k = metaAddr g s l → k = l)) ∧
  (∀ (n w h s c0 k : Nat), k < 9 →
    blkAddr ⟨n, w, h, 1, 3⟩ s c0 k = s * ((h + 3) * w) + (h + k / 3) * w + c0 + k % 3 ∧
    blkAddr ⟨n, w, h, 3, 1⟩ s c0 k = s * ((h + 1) * w * 3) + (h * w + c0) * 3 + k)

/-! ## Ports, responses, faults, waits -/

/-- An operation that responds leaves its port free, gives exactly one response on it, and touches
nothing else of the machine by responding; one that has not responded yet is its port's outstanding
operation, with the operands and the bytes read so far that it goes on with, gives no response, and
touches nothing else; one that waits keeps the operands it was issued with and has read no byte
(30_encoding.md R106). -/
def Obligations.RespondEndsAndWaitKeeps : Prop :=
  (∀ (s : State) (r : Result),
    (s.respond r).resp = s.resp ++ [(s.inp.port, .ok r)] ∧
    (∀ q, (s.respond r).outstandingOf q =
      if q = s.inp.port then none else s.outstandingOf q) ∧
    { s.respond r with resp := s.resp, pend := s.pend } = s) ∧
  (∀ (s : State) (i : Instr) (pl : Payload) (got : List (Nat × Byte)),
    (∀ q, (s.keepOpen i pl got).outstandingOf q =
      if q = s.inp.port then some ⟨i, pl, got⟩ else s.outstandingOf q) ∧
    { s.keepOpen i pl got with pend := s.pend } = s) ∧
  (∀ (s : State) (i : Instr),
    (∀ q, (s.wait i).outstandingOf q =
      if q = s.inp.port then some ⟨i, s.inp.payload, []⟩ else s.outstandingOf q) ∧
    { s.wait i with pend := s.pend } = s)

/-- `raise F(info)` answers `Fault(code, info)` on the port, appends (port, code, info) to `FAULTS`,
frees the port, and does nothing else (60_exceptions.md R261). -/
def Obligations.RaiseIsTheWholeOfTrapEntry : Prop :=
  ∀ (s : State) (c : Cause) (info : Info),
    (s.raise c info).resp = s.resp ++ [(s.inp.port, .fault (causeCode c) info)] ∧
    (s.raise c info).faults = s.faults ++ [⟨s.inp.port, causeCode c, info⟩] ∧
    (∀ q, (s.raise c info).outstandingOf q =
      if q = s.inp.port then none else s.outstandingOf q) ∧
    { s.raise c info with resp := s.resp, pend := s.pend, faults := s.faults } = s

/-- The permission table, row by row: the columns are MGR, a GRB port, WTR, a TRK port; and the cause
codes (60_exceptions.md R262, R271). -/
def Obligations.PermissionsAndCauseCodes : Prop :=
  (∀ (u : UnitNo) (k : Nat),
    let row := fun i : Instr => [permitted i .mgr, permitted i (.grb k), permitted i .wtr,
      permitted i (.trk k)]
    row (.alloc u) = [true, false, false, false] ∧
    row (.lock u) = [true, false, false, true] ∧ row (.unlock u) = [true, false, false, true] ∧
    row (.wrslot u) = [false, true, false, false] ∧
    row (.rdslot u) = [true, false, false, true] ∧ row (.decmd u) = [true, false, false, true] ∧
    row (.encmd u) = [true, true, true, true] ∧
    row (.gstart u) = [true, false, false, false] ∧ row (.cancel u) = [true, false, false, false] ∧
    row (.gopen u) = [false, true, false, false] ∧ row (.gchk u) = [false, true, false, false] ∧
    row (.gread u) = [false, true, false, false] ∧ row (.gwrap u) = [false, true, false, false] ∧
    row (.enq u) = [false, true, false, false] ∧ row (.gstat u) = [false, true, false, false] ∧
    row (.gpace u) = [false, true, false, false] ∧
    row (.deq u) = [false, false, true, false] ∧
    row (.kfinit u) = [true, false, false, true] ∧
    row (.kfpred u) = [false, false, false, true] ∧ row (.kfcorr u) = [false, false, false, true]) ∧
  causeCode .captureOpenFailure = 0x01 ∧ causeCode .illegalCommand = 0x10 ∧
  causeCode .notPermitted = 0x11 ∧ causeCode .notAllocated = 0x12 ∧
  causeCode .alreadyAllocated = 0x13 ∧ causeCode .badUnit = 0x14 ∧ causeCode .notOwner = 0x15 ∧
  causeCode .badState = 0x16 ∧ causeCode .badConfig = 0x17 ∧ causeCode .shapeMismatch = 0x18 ∧
  causeCode .lockMisuse = 0x19 ∧ causeCode .badOffset = 0x1A ∧ causeCode .kfSingular = 0x20

/-- The illegal words are exactly those whose OPC is not in the map or whose ZERO field is not 0; such a
word on any port raises `IllegalCommand` with the word, and a legal word on a port that may not issue
its operation raises `NotPermitted` with the word; nothing else changes (30_encoding.md R102). The port
has no operation outstanding, as a port that issues a command has not. -/
def Obligations.IllegalAndForbiddenCommands : Prop :=
  ∀ (cw : Word) (s : State), s.outstanding = none →
    let assigned := cw.toNat / 2 ^ 24 ∈
      [0x01, 0x02, 0x03, 0x04, 0x05, 0x06, 0x07, 0x10, 0x11, 0x12, 0x13, 0x14, 0x15, 0x16, 0x17,
        0x18, 0x19, 0x20, 0x21, 0x22]
    (¬(assigned ∧ cw.toNat % 2 ^ 16 = 0) →
      runCommand cw s = .next (s.raise .illegalCommand (.word cw))) ∧
    (assigned ∧ cw.toNat % 2 ^ 16 = 0 →
      ∃ i, decode cw = .ok i ∧
        (permitted i s.inp.port = false →
          runCommand cw s = .next (s.raise .notPermitted (.word cw))))

/-- The check of `ALLOCATED`, after the port's (40_buffer_codec.md R132): an operation that reaches
`SFB` or the lock raises `NotAllocated` before ALLOC, a second ALLOC raises `AlreadyAllocated`. The
loop form of WRSLOT also stops its Grabber (41_grabber_relay.md R170). -/
def Obligations.AllocationCheck : Prop :=
  ∀ (i : Instr) (s : State), s.outstanding = none → permitted i s.inp.port = true →
    allocationPasses s i = false →
    exec i s = .next
      (match i with
      | .alloc _ => s.raise .alreadyAllocated .none
      | .wrslot u =>
        if s.inp.port = .grb u.toNat ∧ (s.grab u.toNat).gph = .wr then
          (s.modGrab u.toNat fun g =>
            { g with gph := .idle, gstate := .stopped, frm := none }).raise .notAllocated .none
        else s.raise .notAllocated .none
      | _ => s.raise .notAllocated .none)

/-- The check of UNIT, after the port's and that of `ALLOCATED` (30_encoding.md R99;
40_buffer_codec.md R132). -/
def Obligations.UnitRangeCheck : Prop :=
  ∀ (i : Instr) (s : State), s.outstanding = none → permitted i s.inp.port = true →
    allocationPasses s i = true → unitInRange s.cfg i = false →
    exec i s = .next (s.raise .badUnit (.unit i.unit))

/-- The check of ownership, after that of UNIT: an owned operation on a GRB or TRK port of another
number raises `NotOwner` (40_buffer_codec.md R132; 60_exceptions.md R262, R271). -/
def Obligations.OwnershipCheck : Prop :=
  ∀ (i : Instr) (s : State), s.outstanding = none → permitted i s.inp.port = true →
    allocationPasses s i = true → unitInRange s.cfg i = true → ownedOp i = true →
    (∃ k, k ≠ i.unit.toNat ∧ (s.inp.port = .grb k ∨ s.inp.port = .trk k)) →
    exec i s = .next (s.raise .notOwner (.unit i.unit))

/-- The check of the unit's state, after that of ownership: a loop operation out of its phase raises
`BadState` with the phase, so does a WRSLOT while `GPH[s]` is neither `Idle` nor `Wr`, and a GSTART of a
Grabber that is not `Created` with its state (41_grabber_relay.md R160, R161; 40_buffer_codec.md R124;
60_exceptions.md R262). -/
def Obligations.PhaseCheck : Prop :=
  (∀ (u : UnitNo) (s : State) (i : Instr) (p : Phase),
    (i, p) ∈ [(Instr.gopen u, Phase.opn), (Instr.gchk u, Phase.chk), (Instr.gread u, Phase.read),
      (Instr.gwrap u, Phase.wrap), (Instr.enq u, Phase.enq), (Instr.gstat u, Phase.stat),
      (Instr.gpace u, Phase.pace)] →
    s.inp.port = .grb u.toNat → u.toNat < s.cfg.geo.n → (s.grab u.toNat).gph ≠ p →
    exec i s = .next (s.raise .badState (.phase (s.grab u.toNat).gph))) ∧
  (∀ (u : UnitNo) (s : State), s.outstanding = none → s.inp.port = .grb u.toNat →
    s.allocated = true → u.toNat < s.cfg.geo.n → (s.grab u.toNat).gph ≠ .idle →
    (s.grab u.toNat).gph ≠ .wr →
    exec (.wrslot u) s = .next (s.raise .badState (.phase (s.grab u.toNat).gph))) ∧
  (∀ (u : UnitNo) (s : State), s.inp.port = .mgr → u.toNat < s.cfg.geo.n →
    (s.grab u.toNat).gstate ≠ .created →
    exec (.gstart u) s = .next (s.raise .badState (.gstate (s.grab u.toNat).gstate)))

/-! ## The step -/

/-- A command that the script places on a free port is decoded and run: the step is `exec` of the
decoded operation, with the event taken off the script and the port, the payload and the draws of the
event as its inputs; a word that decodes to none raises `IllegalCommand` with the word (30_encoding.md
R98, R102). On a port that is not free (it does not exist, has an operation outstanding, or its Tracker
is inside a TRKCYCLE) the command is used up and changes nothing. The script, and what becomes of a
command that no agent can issue, are the model's own (log entries 2, 15, 26). -/
def Obligations.StepRunsTheDecodedCommand : Prop :=
  ∀ (s : State) (p : Port) (cw : Word) (pl : Payload) (d : Draws) (es : List Event),
    s.script = .issue p cw pl d :: es →
    (s.portFree p = true → ∀ i, decode cw = .ok i →
      step s = exec i { s with script := es, inp := ⟨p, pl, d⟩ }) ∧
    (s.portFree p = true → (∀ i, decode cw ≠ .ok i) →
      step s = .next (({ s with script := es, inp := ⟨p, pl, d⟩ } : State).raise .illegalCommand
        (.word cw))) ∧
    (s.portFree p = false → step s = .next { s with script := es })

/-- A command placed by `withFetchWord` is what the very next step runs, whatever the state (log
entry 25). -/
def Obligations.PlacedWordRunsNext : Prop :=
  ∀ (s : State) (w : Nat) (i : Instr), 1 ≤ s.cfg.geo.n → 1 ≤ s.cfg.t → w < 2 ^ 32 →
    decode (BitVec.ofNat 32 w) = .ok i →
    ∃ t, step (s.withFetchWord 32 w) = exec i t ∧ permitted i t.inp.port = true ∧
      t.outstanding = none ∧
      { t with inp := s.inp, pend := s.pend, trk := s.trk } = s

/-- The Grabber's sequencer issues the operation that belongs to its phase, and nothing in `Idle`
(41_grabber_relay.md R173). The Tracker's issues, in the order of TRKCYCLE, RDSLOT, LOCK, DECMD, UNLOCK,
KFCORR with the detection as its operands, and KFPRED, each with its own number as UNIT, and takes the
response (43_tracker_consumer.md R231); an operation of a cycle that is still outstanding goes on with
its operands. `takeResponse` does nothing while the operation has not responded; it takes the last
response given, moves the cycle on to its next phase, and nothing else changes but that the position
KFPRED answered is pushed on the filtered trail (R231 step 7, R234). The next phases: after RDSLOT, with
the View, the image or, where the image is read inside the lock, LOCK; after LOCK, DECMD or then the
image; after DECMD, with the pair, UNLOCK; after UNLOCK the detection; after KFCORR, whatever it answers,
KFPRED; after KFPRED the output. Where a cycle stands is the model's own, so are the draw between the two
places of the image and that a fault other than KFCORR's ends the cycle (log entry 15). -/
def Obligations.SequencerRunsThePhasesOperation : Prop :=
  (∀ (s : State) (u : UnitNo) (d : Draws) (es : List Event),
    s.script = .advance (.grb u.toNat) d :: es → u.toNat < s.cfg.geo.n →
    s.outstandingOf (.grb u.toNat) = none →
    let t := { s with script := es, inp := ⟨.grb u.toNat, s.inp.payload, d⟩ }
    step s =
      match (s.grab u.toNat).gph with
      | .idle => .next t
      | .opn => exec (.gopen u) t
      | .chk => exec (.gchk u) t
      | .read => exec (.gread u) t
      | .wrap => exec (.gwrap u) t
      | .enq => exec (.enq u) t
      | .wr => exec (.wrslot u) t
      | .stat => exec (.gstat u) t
      | .pace => exec (.gpace u) t) ∧
  (∀ (s : State) (j : Nat) (d : Draws) (es : List Event) (ph : TrkPhase) (i : Instr),
    s.script = .advance (.trk j) d :: es → j < s.cfg.t → s.outstandingOf (.trk j) = none →
    (s.tracker j).cyc.ph = ph →
    (ph, i) ∈ [(TrkPhase.rest, Instr.rdslot (BitVec.ofNat 8 j)), (.lock, .lock (BitVec.ofNat 8 j)),
      (.decode, .decmd (BitVec.ofNat 8 j)), (.unlock, .unlock (BitVec.ofNat 8 j)),
      (.correct, .kfcorr (BitVec.ofNat 8 j)), (.predict, .kfpred (BitVec.ofNat 8 j))] →
    let pl := match (s.tracker j).cyc.det with
      | none => s.inp.payload
      | some (cx, cy) => { s.inp.payload with zx := cx, zy := cy }
    step s = takeResponse j (exec i { s with script := es, inp := ⟨.trk j, pl, d⟩ })) ∧
  (∀ (s : State) (j : Nat) (o : Pending) (d : Draws) (es : List Event),
    s.script = .advance (.trk j) d :: es → j < s.cfg.t → s.outstandingOf (.trk j) = some o →
    s.inCycle (.trk j) = true →
    step s = takeResponse j (exec o.instr { s with script := es, inp := ⟨.trk j, o.payload, d⟩ })) ∧
  (∀ (q : State) (j : Nat), q.outstandingOf (.trk j) ≠ none → takeResponse j (.next q) = .next q) ∧
  (∀ (q : State) (j : Nat) (l : List (Port × Response)) (p : Port) (e : Response),
    j < q.trk.length → q.outstandingOf (.trk j) = none → q.resp = l ++ [(p, e)] →
    let k := q.tracker j
    let c := k.cyc
    let inLock := q.inp.draws.imgInLock
    ∃ (c' : Cycle) (tr : List (Kf × Kf)),
      takeResponse j (.next q) =
        .next { q with trk := q.trk.set j { k with cyc := c', filtTrail := tr } } ∧
      (∀ x y, c.ph = .predict → e = .ok (.position x y) →
        tr = if q.cfg.trailN < k.filtTrail.length + 1 then (k.filtTrail ++ [(x, y)]).tail
          else k.filtTrail ++ [(x, y)]) ∧
      (c.ph ≠ .predict ∨ (∀ x y, e ≠ .ok (.position x y)) → tr = k.filtTrail) ∧
      (∀ v, c.ph = .rest → e = .ok (.view v) →
        c' = ⟨if inLock then .lock else .image, v, inLock, [], none, none⟩) ∧
      (∀ r, c.ph = .lock → e = .ok r →
        c' = { c with ph := if c.inLock then .image else .decode }) ∧
      (∀ t i, c.ph = .decode → e = .ok (.pair t i) →
        c' = { c with ph := .unlock, traced := some (t, i) }) ∧
      (∀ r, c.ph = .unlock → e = .ok r → c' = { c with ph := .detect }) ∧
      (c.ph = .correct → c' = { c with ph := .predict }) ∧
      (∀ r, c.ph = .predict → e = .ok r → c' = { c with ph := .output }) ∧
      (∀ code info, c.ph ≠ .correct → e = .fault code info → c' = Cycle.rest))

/-- A port with an operation outstanding takes no command, and the agent's own step goes on with that
operation and its operands (30_encoding.md R106). R106 says that the port can issue nothing else: that
a command event on it is used up with no effect is the model's (log entry 2), and so is that the
operation is run again by `exec`, from its checks where it makes them (log entry 22). -/
def Obligations.BusyPortGoesOnWithItsOperation : Prop :=
  ∀ (s : State) (p : Port) (o : Pending) (es : List Event), s.outstandingOf p = some o →
    (∀ cw pl d, s.script = .issue p cw pl d :: es → step s = .next { s with script := es }) ∧
    (∀ d, s.script = .advance p d :: es → portExists s.cfg p = true → s.inCycle p = false →
      step s = exec o.instr { s with script := es, inp := ⟨p, o.payload, d⟩ })

/-! ## ALLOC, LOCK, UNLOCK -/

/-- ALLOC with the configured operands latches them, makes every byte of `SFB` read 0x00, leaves every
lock free, sets `ALLOCATED` and changes nothing else; with operands out of their bounds, or other than
the configured ones, it raises `BadConfig` with the operands (40_buffer_codec.md R121). -/
def Obligations.AllocCreatesTheZeroBuffer : Prop :=
  ∀ (s : State) (g : Geo), s.inp.port = .mgr → s.allocated = false → s.inp.payload.geo = g →
    let legal := 1 ≤ g.n ∧ g.n ≤ 256 ∧ 22 ≤ g.w ∧ 1 ≤ g.h ∧ 1 ≤ g.c ∧ 1 ≤ g.m ∧ g.m * g.c = 3
    (legal → g = s.cfg.geo →
      ∃ t : State, exec (.alloc 0) s = .next (t.respond .none) ∧ t.allocated = true ∧ t.geo = g ∧
        (∀ a, a < sfbBytes g → t.memRead a = some 0) ∧ (∀ k, t.lockOf k = none) ∧
        { t with allocated := s.allocated, geo := s.geo, sfb := s.sfb, locks := s.locks } = s) ∧
    (¬legal ∨ g ≠ s.cfg.geo → exec (.alloc 0) s = .next (s.raise .badConfig (.config g)))

/-- LOCK takes a free lock; it waits while another port holds it, and is `LockMisuse` by the holder; the
lock written is that of every slot under buffer scope, of the one slot under slot scope
(40_buffer_codec.md R122; 20_memory.md R72, R83). -/
def Obligations.LockAcquiresOrWaits : Prop :=
  ∀ (u : UnitNo) (s : State), s.inp.port = .mgr ∨ (∃ j, s.inp.port = .trk j) →
    s.allocated = true → u.toNat < s.cfg.geo.n →
    (s.lockOf u.toNat = none →
      ∃ l : List (Option Port),
        exec (.lock u) s = .next (({ s with locks := l } : State).respond .none) ∧
        (s.locks.length = lockCount s.cfg → l.length = lockCount s.cfg ∧
          ∀ v, ({ s with locks := l } : State).lockOf v =
            if s.cfg.scope = .buffer ∨ v = u.toNat then some s.inp.port else s.lockOf v)) ∧
    (∀ q, s.lockOf u.toNat = some q → q ≠ s.inp.port →
      exec (.lock u) s = .next (s.wait (.lock u))) ∧
    (s.lockOf u.toNat = some s.inp.port →
      exec (.lock u) s = .next (s.raise .lockMisuse (.port s.inp.port)))

/-- UNLOCK by the holder frees the lock, that of every slot under buffer scope, of the one slot under
slot scope; by any other port it is `LockMisuse` and the lock is unchanged (40_buffer_codec.md R123;
20_memory.md R73, R83). -/
def Obligations.UnlockReleases : Prop :=
  ∀ (u : UnitNo) (s : State), s.inp.port = .mgr ∨ (∃ j, s.inp.port = .trk j) →
    s.allocated = true → u.toNat < s.cfg.geo.n →
    (s.lockOf u.toNat = some s.inp.port →
      ∃ l : List (Option Port),
        exec (.unlock u) s = .next (({ s with locks := l } : State).respond .none) ∧
        (s.locks.length = lockCount s.cfg → l.length = lockCount s.cfg ∧
          ∀ v, ({ s with locks := l } : State).lockOf v =
            if s.cfg.scope = .buffer ∨ v = u.toNat then none else s.lockOf v)) ∧
    (s.lockOf u.toNat ≠ some s.inp.port →
      exec (.unlock u) s = .next (s.raise .lockMisuse (.port s.inp.port)))

/-! ## WRSLOT, RDSLOT, View reads, ENCMD, DECMD -/

/-- A WRSLOT of either form, run with nothing between its byte writes, leaves the image in the image
region, the two blocks in their patches, the swatch where it covers no block byte, every other byte of
the strip and every byte outside the slot as before; the lock is free again, nothing is in flight, and
the phase `Wr` has become `Stat` (40_buffer_codec.md R124). The order of the byte writes is whatever
the draws say. That the whole write can run inside one `exec`, its draws one a byte write, is the model's
(log entry 7); `WrslotWritesOneByteAStep` takes it byte by byte. -/
def Obligations.WrslotWritesTheSlot : Prop :=
  ∀ (u : UnitNo) (s : State) (pl : Payload),
    s.outstanding = none → s.inp.port = .grb u.toNat → s.allocated = true →
    s.cfg.geo.legal = true → s.cfg.swatchLegal = true → s.geo = s.cfg.geo →
    u.toNat < s.cfg.geo.n → s.grb.length = s.cfg.geo.n → s.locks.length = lockCount s.cfg →
    Memory.wf s.sfb = true →
    ((s.grab u.toNat).gph = .idle ∧ pl = s.inp.payload ∨
      ∃ f, (s.grab u.toNat).gph = .wr ∧ (s.grab u.toNat).frm = some f ∧ pl.image = f.image ∧
        pl.tick = f.tick ∧ pl.index = f.index) →
    imgHasShape pl.image s.geo = true → s.lockOf u.toNat = none →
    imgBytes s.geo + s.cfg.swatch.length + 18 < s.inp.draws.picks.length →
    ∃ m : Memory,
      exec (.wrslot u) s = .next
        ((({ s with sfb := m } : State).modGrab u.toNat fun g =>
          { g with wip := none, gph := if g.gph = .wr then Phase.stat else g.gph }).respond .none) ∧
      Memory.wf m = true ∧
      (∀ a, a < slotBase s.geo u.toNat ∨ slotBase s.geo u.toNat + slotBytes s.geo ≤ a →
        Memory.read m a = Memory.read s.sfb a) ∧
      (∀ o < imgBytes s.geo,
        Memory.read m (slotBase s.geo u.toNat + o) = pl.image.data.getD o 0) ∧
      (∀ k < 9, Memory.read m (blkAddr s.geo u.toNat (s.geo.w - 22) k) = (enc9 pl.tick).getD k 0) ∧
      (∀ k < 9, Memory.read m (blkAddr s.geo u.toNat (s.geo.w - 19) k) = (enc9 pl.index).getD k 0) ∧
      (∀ e ∈ s.cfg.swatch, (∀ k < 18, imgBytes s.geo + e.1 ≠ metaAddr s.geo 0 k) →
        Memory.read m (slotBase s.geo u.toNat + imgBytes s.geo + e.1) = e.2) ∧
      (∀ o, imgBytes s.geo ≤ o → o < slotBytes s.geo →
        (∀ e ∈ s.cfg.swatch, o ≠ imgBytes s.geo + e.1) →
        (∀ k < 18, o ≠ metaAddr s.geo 0 k) →
        Memory.read m (slotBase s.geo u.toNat + o) =
          Memory.read s.sfb (slotBase s.geo u.toNat + o))

/-- A WRSLOT that has passed its checks waits while another port holds the lock, with its operands and
with nothing changed. An image of another shape is refused before the lock is asked for: `ShapeMismatch`
with the shape, and in the loop form the Grabber stops (40_buffer_codec.md R124; 20_memory.md R72;
41_grabber_relay.md R170). `imgHasShape` also fails for an image of the right shape whose number of bytes
is not that of the shape: that such an image is refused is the model's (log entry 11). -/
def Obligations.WrslotWaitsOrRefuses : Prop :=
  ∀ (u : UnitNo) (s : State),
    s.outstanding = none → s.inp.port = .grb u.toNat → s.allocated = true →
    u.toNat < s.cfg.geo.n →
    ((s.grab u.toNat).gph = .idle → imgHasShape s.inp.payload.image s.geo = true →
      (∃ q, s.lockOf u.toNat = some q ∧ q ≠ s.inp.port) →
      exec (.wrslot u) s = .next (s.wait (.wrslot u))) ∧
    (∀ f, (s.grab u.toNat).gph = .wr → (s.grab u.toNat).frm = some f →
      imgHasShape f.image s.geo = true → (∃ q, s.lockOf u.toNat = some q ∧ q ≠ s.inp.port) →
      exec (.wrslot u) s = .next (s.keepOpen (.wrslot u)
        { s.inp.payload with image := f.image, tick := f.tick, index := f.index } [])) ∧
    (∀ img, (s.grab u.toNat).gph = .idle → s.inp.payload.image = img →
      imgHasShape img s.geo = false →
      exec (.wrslot u) s =
        .next (s.raise .shapeMismatch (.shape img.rows img.cols img.chans))) ∧
    (∀ f, (s.grab u.toNat).gph = .wr → (s.grab u.toNat).frm = some f →
      imgHasShape f.image s.geo = false →
      exec (.wrslot u) s =
        .next ((s.modGrab u.toNat fun g =>
          { g with gph := .idle, gstate := .stopped, frm := none }).raise .shapeMismatch
            (.shape f.image.rows f.image.cols f.image.chans)))

/-- A WRSLOT step by step. One that waited takes the lock once it is free and sets `WIP` to its operands,
phase 1, nothing done; while another port holds the lock it stays as it is. One in flight that is given
one choice writes one byte of the earliest phase that has any left, records it in `done`, stays open, and
touches nothing else. One with nothing left sets `WIP` to none, releases the lock, turns the phase `Wr`
into `Stat` and responds once (40_buffer_codec.md R124, R125; 10_state.md R32). The model's own: the
acquire and the setting of `WIP` are one step, and so are the last three writes and the response (log
entry 7); the field `phase` of `WIP` takes the phase of the byte written last, so that it moves on with
the first byte of the next phase (log entry 29). -/
def Obligations.WrslotWritesOneByteAStep : Prop :=
  (∀ (u : UnitNo) (s : State) (o : Pending),
    s.outstanding = some o → (s.grab u.toNat).wip = none → u.toNat < s.cfg.geo.n →
    s.locks.length = lockCount s.cfg →
    (s.lockOf u.toNat = none → s.inp.draws.picks = [] →
      ∃ l : List (Option Port),
        exec (.wrslot u) s = .next
          ((({ s with locks := l } : State).modGrab u.toNat fun g =>
            { g with wip := some ⟨o.payload.image, o.payload.tick, o.payload.index, 1, []⟩ }).keepOpen
              (.wrslot u) o.payload []) ∧
        l.length = lockCount s.cfg ∧
        ∀ v, ({ s with locks := l } : State).lockOf v =
          if s.cfg.scope = .buffer ∨ v = u.toNat then some s.inp.port else s.lockOf v) ∧
    (∀ q, s.lockOf u.toNat = some q → q ≠ s.inp.port →
      exec (.wrslot u) s = .next (s.keepOpen (.wrslot u) o.payload []))) ∧
  (∀ (u : UnitNo) (s : State) (o : Pending) (w : Wip) (n : Nat),
    s.outstanding = some o → (s.grab u.toNat).wip = some w → s.inp.draws.picks = [n] →
    s.cfg.geo.legal = true → s.cfg.swatchLegal = true → s.geo = s.cfg.geo → s.allocated = true →
    u.toNat < s.cfg.geo.n → (∃ q, writesLeft s w q ≠ [] ∧ 1 ≤ q ∧ q ≤ 3) →
    ∃ it : WrItem,
      it ∈ writesLeft s w it.phase ∧ (∀ q, 1 ≤ q → q < it.phase → writesLeft s w q = []) ∧
      exec (.wrslot u) s = .next
        ((({ s with sfb := Memory.write s.sfb (slotBase s.geo u.toNat + it.off) it.byte } :
            State).modGrab u.toNat fun g =>
          { g with wip := some { w with phase := it.phase, done := (it.phase, it.off) :: w.done } }).keepOpen
            (.wrslot u) o.payload [])) ∧
  (∀ (u : UnitNo) (s : State) (o : Pending) (w : Wip) (n : Nat) (ns : List Nat),
    s.outstanding = some o → (s.grab u.toNat).wip = some w → s.inp.draws.picks = n :: ns →
    u.toNat < s.cfg.geo.n → s.locks.length = lockCount s.cfg →
    s.lockOf u.toNat = some s.inp.port → (∀ q, 1 ≤ q → q ≤ 3 → writesLeft s w q = []) →
    ∃ l : List (Option Port),
      exec (.wrslot u) s = .next
        ((({ s with locks := l } : State).modGrab u.toNat fun g =>
          { g with wip := none, gph := if g.gph = .wr then Phase.stat else g.gph }).respond .none) ∧
      l.length = lockCount s.cfg ∧
      ∀ v, ({ s with locks := l } : State).lockOf v =
        if s.cfg.scope = .buffer ∨ v = u.toNat then none else s.lockOf v)

/-- RDSLOT answers the View of the slot and changes no state; a read through a View answers the byte of
live memory at its offset, an offset outside the View raises `BadOffset`, and neither changes memory
(40_buffer_codec.md R126, R127). A step makes such a read on the port that obtained the View and has no
operation outstanding, inside a TRKCYCLE as well as outside, and on no other (60_exceptions.md R271): that
a port with an operation outstanding makes none, that a read which is not open is used up with no effect,
and that the byte is answered as a response, is the model's (log entry 23). -/
def Obligations.RdslotAndViewReads : Prop :=
  (∀ (u : UnitNo) (s : State), s.inp.port = .mgr ∨ (∃ j, s.inp.port = .trk j) →
    s.allocated = true → u.toNat < s.cfg.geo.n →
    exec (.rdslot u) s =
      .next (s.respond (.view ⟨u.toNat * ((s.geo.h + s.geo.m) * s.geo.w * s.geo.c),
        (s.geo.h + s.geo.m) * s.geo.w * s.geo.c⟩))) ∧
  (∀ (v : View) (o : Nat) (s : State),
    (v.length ≤ o → readThroughView v o s = .next (s.raise .badOffset (.offset o))) ∧
    (o < v.length → s.allocated = true → v.base + v.length ≤ sfbBytes s.geo →
      readThroughView v o s = .next (s.respond (.byte (Memory.read s.sfb (v.base + o)))))) ∧
  (∀ (s : State) (p : Port) (v : View) (o : Nat) (es : List Event),
    s.script = .viewRead p v o :: es →
    (portExists s.cfg p = true → s.outstandingOf p = none → (p, Response.ok (.view v)) ∈ s.resp →
      step s = readThroughView v o
        { s with script := es, inp := ⟨p, s.inp.payload, s.inp.draws⟩ }) ∧
    (portExists s.cfg p = false ∨ s.outstandingOf p ≠ none ∨ (p, Response.ok (.view v)) ∉ s.resp →
      step s = .next { s with script := es }))

/-- ENCMD answers `enc9(v)` on any port and changes no state (40_buffer_codec.md R128). -/
def Obligations.EncmdAnswersTheBlock : Prop :=
  ∀ s : State,
    exec (.encmd 0) s = .next (s.respond (.bytes (enc9 s.inp.payload.value)))

/-- A DECMD run with nothing between its 18 byte reads, in whatever order the draws say, answers the
values of the two blocks of its slot and changes no state. Given one choice it reads one byte that it has
not read yet, from memory as it is at that moment, keeps what it has read and stays open; once it has all
18 it answers the values of the bytes it read, whatever memory holds by then, so torn pairs are possible
(40_buffer_codec.md R129, R130). That the 18 reads come in any order across both blocks is the model's
reading (log entry 8). -/
def Obligations.DecmdAnswersTheBlocks : Prop :=
  ∀ (u : UnitNo) (s : State),
    s.inp.port = .mgr ∨ (∃ j, s.inp.port = .trk j) →
    s.allocated = true → s.cfg.geo.legal = true → s.geo = s.cfg.geo → u.toNat < s.cfg.geo.n →
    (s.outstanding = none → 18 < s.inp.draws.picks.length →
      exec (.decmd u) s =
        .next (s.respond (.pair
          (dec9 ((List.range 9).map fun k =>
            Memory.read s.sfb (blkAddr s.geo u.toNat (s.geo.w - 22) k)))
          (dec9 ((List.range 9).map fun k =>
            Memory.read s.sfb (blkAddr s.geo u.toNat (s.geo.w - 19) k)))))) ∧
    (∀ (got : List (Nat × Byte)) (n : Nat), s.inp.draws.picks = [n] →
      (s.outstanding = none ∧ got = [] ∨ ∃ o, s.outstanding = some o ∧ o.got = got) →
      ((∃ k < 18, k ∉ got.map Prod.fst) →
        ∃ k < 18, k ∉ got.map Prod.fst ∧
          exec (.decmd u) s = .next (s.keepOpen (.decmd u) s.inp.payload
            ((k, Memory.read s.sfb
              (if k < 9 then blkAddr s.geo u.toNat (s.geo.w - 22) k
              else blkAddr s.geo u.toNat (s.geo.w - 19) (k - 9))) :: got))) ∧
      ((∀ k < 18, k ∈ got.map Prod.fst) →
        exec (.decmd u) s =
          .next (s.respond (.pair
            (dec9 ((List.range 9).map fun k => (got.lookup k).getD 0))
            (dec9 ((List.range 9).map fun k => (got.lookup (9 + k)).getD 0))))))

/-- What a WRSLOT wrote, of either form, a DECMD of the same slot reads back, byte for byte, in any later
state with the same memory: the operands of the direct form, the frame's tick and index of the loop form
(40_buffer_codec.md R129; 41_grabber_relay.md R170; 95_test_vectors.md S1). That each operation can run
inside one `exec` is the model's (log entries 7 and 8). -/
def Obligations.SlotRoundTrip : Prop :=
  ∀ (u : UnitNo) (s t r : State) (pl : Payload),
    s.outstanding = none → s.inp.port = .grb u.toNat → s.allocated = true →
    s.cfg.geo.legal = true → s.cfg.swatchLegal = true → s.geo = s.cfg.geo →
    u.toNat < s.cfg.geo.n → s.grb.length = s.cfg.geo.n → s.locks.length = lockCount s.cfg →
    Memory.wf s.sfb = true →
    ((s.grab u.toNat).gph = .idle ∧ pl = s.inp.payload ∨
      ∃ f, (s.grab u.toNat).gph = .wr ∧ (s.grab u.toNat).frm = some f ∧ pl.image = f.image ∧
        pl.tick = f.tick ∧ pl.index = f.index) →
    imgHasShape pl.image s.geo = true → s.lockOf u.toNat = none →
    imgBytes s.geo + s.cfg.swatch.length + 18 < s.inp.draws.picks.length →
    exec (.wrslot u) s = .next t →
    r.sfb = t.sfb → r.geo = t.geo → r.cfg = t.cfg → r.allocated = t.allocated →
    r.outstanding = none → r.inp.port = .mgr ∨ (∃ j, r.inp.port = .trk j) →
    18 < r.inp.draws.picks.length →
    exec (.decmd u) r = .next (r.respond (.pair pl.tick pl.index))

/-! ## Grabber, relay, queue -/

/-- GSTART of a Grabber that is `Created` starts it at `Open` with index 0. GOPEN: an answer `ok` leads to
`Chk`; an answer `fail` stops the Grabber and raises `CaptureOpenFailure` (41_grabber_relay.md R161, R162;
60_exceptions.md R264). -/
def Obligations.GstartAndGopen : Prop :=
  ∀ (u : UnitNo) (s : State), u.toNat < s.cfg.geo.n →
    (s.inp.port = .mgr → (s.grab u.toNat).gstate = .created →
      exec (.gstart u) s =
        .next ((s.modGrab u.toNat fun g =>
          { g with gstate := .running, gph := .opn, seq := 0, fpscnt := 0 }).respond .none)) ∧
    (s.inp.port = .grb u.toNat → (s.grab u.toNat).gph = .opn → s.inp.draws.openOk = true →
      exec (.gopen u) s =
        .next ((s.modGrab u.toNat fun g => { g with gph := .chk }).respond .none)) ∧
    (s.inp.port = .grb u.toNat → (s.grab u.toNat).gph = .opn → s.inp.draws.openOk = false →
      exec (.gopen u) s =
        .next ((s.modGrab u.toNat fun g => { g with gph := .idle, gstate := .stopped }).raise
          .captureOpenFailure (.number u.toNat)))

/-- GCHK stops the Grabber when `CANCEL = 1`, else leads to `Read`; GPACE only closes the loop
(41_grabber_relay.md R164, R172). -/
def Obligations.GchkAndGpace : Prop :=
  ∀ (u : UnitNo) (s : State), s.inp.port = .grb u.toNat → u.toNat < s.cfg.geo.n →
    ((s.grab u.toNat).gph = .chk → s.cancel = true →
      exec (.gchk u) s =
        .next ((s.modGrab u.toNat fun g => { g with gph := .idle, gstate := .stopped }).respond
          .none)) ∧
    ((s.grab u.toNat).gph = .chk → s.cancel = false →
      exec (.gchk u) s =
        .next ((s.modGrab u.toNat fun g => { g with gph := .read }).respond .none)) ∧
    ((s.grab u.toNat).gph = .pace →
      exec (.gpace u) s = .next ((s.modGrab u.toNat fun g => { g with gph := .chk }).respond .none))

/-- GREAD: an image goes to `IMG[i]` and leads to `Wrap`, a failure leads to `Pace` and changes nothing
else, no answer is a wait (41_grabber_relay.md R166). -/
def Obligations.GreadTakesTheAnswer : Prop :=
  ∀ (u : UnitNo) (s : State), s.inp.port = .grb u.toNat → u.toNat < s.cfg.geo.n →
    (s.grab u.toNat).gph = .read →
    (∀ img, s.inp.draws.read = .ok img →
      exec (.gread u) s =
        .next ((s.modGrab u.toNat fun g => { g with img := some img, gph := .wrap }).respond
          .none)) ∧
    (s.inp.draws.read = .fail →
      exec (.gread u) s =
        .next ((s.modGrab u.toNat fun g => { g with gph := .pace }).respond .none)) ∧
    (s.inp.draws.read = .noAnswer → exec (.gread u) s = .next (s.wait (.gread u)))

/-- GWRAP builds the Frame, counts the sequence index up modulo 2^64, and reads the tick counter, which
never goes back (41_grabber_relay.md R167; 10_state.md R26, R30). -/
def Obligations.GwrapBuildsTheFrame : Prop :=
  ∀ (u : UnitNo) (s : State) (img : Image), s.inp.port = .grb u.toNat → u.toNat < s.cfg.geo.n →
    (s.grab u.toNat).gph = .wrap → (s.grab u.toNat).img = some img →
    ∃ t : U64, s.tick.toNat ≤ t.toNat ∧
      (s.tick.toNat ≤ s.inp.draws.tick.toNat → t = s.inp.draws.tick) ∧
      exec (.gwrap u) s =
        .next ((({ s with tick := t } : State).modGrab u.toNat fun g =>
          { g with
            frm := some ⟨g.seq, t, s.inp.draws.wall, img, s.cfg.labels.getD u.toNat ""⟩
            seq := BitVec.ofNat 64 ((g.seq.toNat + 1) % 2 ^ 64)
            img := none
            gph := .enq }).respond .none)

/-- ENQ: the frame is appended where there is room; a full queue drops it, logs the drop and raises
nothing, or lets the Grabber wait, by a draw; the frame stays in `FRM[i]` (41_grabber_relay.md R168,
R169). -/
def Obligations.EnqDeliversDropsOrWaits : Prop :=
  ∀ (u : UnitNo) (s : State) (f : Frame), s.inp.port = .grb u.toNat → u.toNat < s.cfg.geo.n →
    (s.grab u.toNat).gph = .enq → (s.grab u.toNat).frm = some f →
    (s.dq.length < s.cfg.qcap →
      exec (.enq u) s =
        .next ((({ s with dq := s.dq ++ [f] } : State).modGrab u.toNat fun g =>
          { g with gph := .wr }).respond .delivered)) ∧
    (s.dq.length = s.cfg.qcap → s.inp.draws.drop = true →
      exec (.enq u) s =
        .next ((({ s with log := s.log ++ [LogEvent.dropFull u.toNat f.index] } : State).modGrab
          u.toNat fun g => { g with gph := .wr }).respond .dropped)) ∧
    (s.dq.length = s.cfg.qcap → s.inp.draws.drop = false →
      exec (.enq u) s = .next (s.wait (.enq u)))

/-- GSTAT clears `FRM[i]` and counts the frame; at `FPS_WINDOW` it logs the drawn figure and starts
again at 0 (41_grabber_relay.md R171). -/
def Obligations.GstatCountsTheFrame : Prop :=
  ∀ (u : UnitNo) (s : State), s.inp.port = .grb u.toNat → u.toNat < s.cfg.geo.n →
    (s.grab u.toNat).gph = .stat →
    ((s.grab u.toNat).fpscnt + 1 = s.cfg.fpsWindow →
      exec (.gstat u) s =
        .next ((({ s with log := s.log ++ [LogEvent.fps u.toNat s.inp.draws.fps] } : State).modGrab
          u.toNat fun g => { g with frm := none, fpscnt := 0, gph := .pace }).respond .none)) ∧
    ((s.grab u.toNat).fpscnt + 1 ≠ s.cfg.fpsWindow →
      exec (.gstat u) s =
        .next ((s.modGrab u.toNat fun g =>
          { g with frm := none, fpscnt := g.fpscnt + 1, gph := .pace }).respond .none))

/-- DEQ removes and answers the head of the queue; on an empty queue the Writer waits. CANCEL sets the
cancellation signal and nothing else (41_grabber_relay.md R174, R175). -/
def Obligations.DeqAndCancel : Prop :=
  ∀ s : State,
    (s.inp.port = .wtr → ∀ f fs, s.dq = f :: fs →
      exec (.deq 0) s = .next (({ s with dq := fs } : State).respond (.frame f))) ∧
    (s.inp.port = .wtr → s.dq = [] → exec (.deq 0) s = .next (s.wait (.deq 0))) ∧
    (s.inp.port = .mgr →
      exec (.cancel 0) s = .next (({ s with cancel := true } : State).respond .none))

/-! ## The filter -/

/-- KFINIT loads `KF_X0` and `KF_P0` (42_kalman.md R205). -/
def Obligations.KfinitLoadsTheStart : Prop :=
  ∀ (u : UnitNo) (s : State), s.inp.port = .mgr ∨ s.inp.port = .trk u.toNat →
    u.toNat < s.cfg.t →
    exec (.kfinit u) s =
      .next (({ s with kfu := s.kfu.set u.toNat ⟨s.cfg.kfX0, s.cfg.kfP0⟩ } : State).respond .none)

/-- KFPRED in any number system: the filter becomes the time update `predictFilter`, a nest of the
system's scalar operations in the order of log entries 5 and 6; it answers the position part and never
faults on its values. Over the rationals that is `x' = F x` and `P' = F P F^T + Q` as matrices
(42_kalman.md R202, R206). -/
def Obligations.KfpredIsTheTimeUpdate : Prop :=
  ∀ (u : UnitNo) (s : State), s.inp.port = .trk u.toNat → u.toNat < s.cfg.t →
    let k := predictFilter s.cfg (s.filter u.toNat)
    exec (.kfpred u) s =
      .next (({ s with kfu := s.kfu.set u.toNat k } : State).respond (.position k.x.e0 k.x.e1)) ∧
    (s.cfg.kfSys = .rational →
      vec4 k.x = (mat44 s.cfg.kfF).mulVec (vec4 (s.filter u.toNat).x) ∧
      mat44 k.p = mat44 s.cfg.kfF * mat44 (s.filter u.toNat).p * (mat44 s.cfg.kfF).transpose +
        mat44 s.cfg.kfQ)

/-- KFCORR in any number system: a zero determinant of `S` raises `KfSingular` and writes nothing; else
the filter becomes the measurement update `correctFilter` of the operands, a nest of the system's scalar
operations in the order of log entries 5 and 6. Over the rationals the determinant is that of the matrix
`S = Hm P Hm^T + R`, and with the gain `K`, the matrix with `K S = P Hm^T`, `x' = x + K (z - Hm x)` and
`P' = (I4 - K Hm) P` (42_kalman.md R207). -/
def Obligations.KfcorrIsTheMeasurementUpdate : Prop :=
  ∀ (u : UnitNo) (s : State), s.inp.port = .trk u.toNat → u.toNat < s.cfg.t →
    (singular s.cfg (s.filter u.toNat) = true →
      exec (.kfcorr u) s = .next (s.raise .kfSingular (.number u.toNat))) ∧
    (singular s.cfg (s.filter u.toNat) = false →
      exec (.kfcorr u) s =
        .next (({ s with
          kfu := s.kfu.set u.toNat (correctFilter s.cfg (s.filter u.toNat) s.inp.payload.zx
            s.inp.payload.zy) } : State).respond .none)) ∧
    (s.cfg.kfSys = .rational →
      ((innovationMatrix s.cfg (s.filter u.toNat)).det = 0 →
        exec (.kfcorr u) s = .next (s.raise .kfSingular (.number u.toNat))) ∧
      ((innovationMatrix s.cfg (s.filter u.toNat)).det ≠ 0 →
        ∃ (k : Kfu) (K : Matrix (Fin 4) (Fin 2) ℚ),
          exec (.kfcorr u) s = .next (({ s with kfu := s.kfu.set u.toNat k } : State).respond .none) ∧
          K * innovationMatrix s.cfg (s.filter u.toNat) =
            mat44 (s.filter u.toNat).p * (mat24 s.cfg.kfH).transpose ∧
          vec4 k.x = vec4 (s.filter u.toNat).x +
            K.mulVec (![s.inp.payload.zx, s.inp.payload.zy] -
              (mat24 s.cfg.kfH).mulVec (vec4 (s.filter u.toNat).x)) ∧
          mat44 k.p = (1 - K * mat24 s.cfg.kfH) * mat44 (s.filter u.toNat).p))

/-- Pure extrapolation: after `n` KFPREDs with no KFCORR between, under a constant-velocity `F` with
step `dt`, the state is `(x + n dt vx, y + n dt vy, vx, vy)`; every KFPRED completes (42_kalman.md
R209). -/
def Obligations.PredictExtrapolatesAlongALine : Prop :=
  ∀ (u : UnitNo) (s : State) (n : Nat) (dt : Rat), s.inp.port = .trk u.toNat →
    u.toNat < s.cfg.t → u.toNat < s.kfu.length → constantVelocity s.cfg dt →
    ∃ t, repeatExec (.kfpred u) n s = .next t ∧
      (t.filter u.toNat).x =
        ⟨(s.filter u.toNat).x.e0 + n * dt * (s.filter u.toNat).x.e2,
          (s.filter u.toNat).x.e1 + n * dt * (s.filter u.toNat).x.e3,
          (s.filter u.toNat).x.e2, (s.filter u.toNat).x.e3⟩

/-! ## The Tracker's functions -/

/-- `match_node` over the rationals answers none exactly when no node is below the radius, else the
first node of the registry of minimal distance, and that distance is below the radius
(43_tracker_consumer.md R235). -/
def Obligations.MatchNodeIsTheFirstNearest : Prop :=
  ∀ (nodes : List Node) (radius cx cy : Rat),
    let d := fun nd : Node => (nd.x - cx) ^ 2 + (nd.y - cy) ^ 2
    matchNode .rational none nodes radius = none ∧
    (matchNode .rational (some (cx, cy)) nodes radius = none ↔
      ∀ nd ∈ nodes, ¬ d nd < radius ^ 2) ∧
    (∀ i, matchNode .rational (some (cx, cy)) nodes radius = some i →
      ∃ front nd back, nodes = front ++ nd :: back ∧ nd.id = i ∧ d nd < radius ^ 2 ∧
        (∀ m ∈ front, d nd < d m) ∧ (∀ m ∈ back, d nd ≤ d m))

/-- Among the contours the one of largest area is chosen, the first seen on a tie
(43_tracker_consumer.md R240). -/
def Obligations.LargestContourIsTheFirstLargest : Prop :=
  ∀ (cs : List Contour) (c : Contour), largestContour cs = some c ↔
    ∃ front back, cs = front ++ c :: back ∧ (∀ b ∈ front, b.area < c.area) ∧
      (∀ b ∈ back, b.area ≤ c.area)

/-- A Tracker's own steps of its cycle. The image: one choice reads one byte of the image that has not
been read yet, through the View, from memory as it is at that moment; once all are read the cycle goes on
to LOCK or, inside the lock, to DECMD (R231 step 1b; 30_encoding.md R105). The detection: the mask is built on the first
image whose intensities do not sum to zero and never written again (R239); while there is no mask, or no
contour, there is no detection; else it is the centroid `(m10/m00, m01/m00)` of the first contour of
largest area, none where `m00 = 0` (R233, R240); the raw trail takes it (R234); KFCORR follows with a
detection only, else KFPRED at once (R231). The output: `LASTNODE` becomes the matched node, which the
output names only when it changed, with `node_updated` saying so (R236); `LED` is whether the intensity
at its pixel exceeds the threshold, which for one channel is the sample (R237); one tuple a cycle (R238).
Nothing else changes in any of them (rules without a file are of 43_tracker_consumer.md). The contours,
the numbers of their moments, the content of the mask and where a cycle stands are the model's (log
entries 5 and 15 to 18). -/
def Obligations.TrackerDetectsAndOutputs : Prop :=
  ∀ (s : State) (j : Nat) (d : Draws) (es : List Event),
    s.script = .advance (.trk j) d :: es → j < s.cfg.t → j < s.trk.length →
    s.outstandingOf (.trk j) = none →
    let k := s.tracker j
    let img := cycleImage s.geo k.cyc.got
    let n := s.cfg.kfSys
    let after := fun (k' : Tracker) (o : List TrkOut) => { s with
      script := es
      inp := ⟨.trk j, s.inp.payload, d⟩
      trk := s.trk.set j k'
      tout := s.tout ++ o }
    (k.cyc.ph = .image → s.allocated = true → k.cyc.view.base + imgBytes s.geo ≤ sfbBytes s.geo →
      (∀ n, d.picks = [n] → (∃ o < imgBytes s.geo, o ∉ k.cyc.got.map Prod.fst) →
        ∃ o < imgBytes s.geo, o ∉ k.cyc.got.map Prod.fst ∧
          step s = .next (after
            { k with cyc := { k.cyc with
              got := (o, Memory.read s.sfb (k.cyc.view.base + o)) :: k.cyc.got } } [])) ∧
      (∀ n ns, d.picks = n :: ns → (∀ o < imgBytes s.geo, o ∈ k.cyc.got.map Prod.fst) →
        step s = .next (after
          { k with cyc := { k.cyc with ph := if k.cyc.inLock then .decode else .lock } } []))) ∧
    (k.cyc.ph = .detect →
      let mask := match k.mask with
        | some m => some m
        | none => if intensitySum s.geo img = 0 then none else some d.mask
      ∃ det : Option (Kf × Kf),
        (mask = none ∨ d.contours = [] → det = none) ∧
        (∀ front c back, mask ≠ none → d.contours = front ++ c :: back →
          (∀ b ∈ front, b.area < c.area) → (∀ b ∈ back, b.area ≤ c.area) →
          det = if kfIsZero n c.m00 then none else some (kfDiv n c.m10 c.m00, kfDiv n c.m01 c.m00)) ∧
        step s = .next (after
          { k with
            mask := mask
            rawTrail :=
              if s.cfg.trailN < k.rawTrail.length + 1 then (k.rawTrail ++ [det]).tail
              else k.rawTrail ++ [det]
            cyc := { k.cyc with det := det, ph := if det.isSome then .correct else .predict } }
          [])) ∧
    (k.cyc.ph = .output →
      let m := matchNode n k.cyc.det (s.cfg.nodes.getD j []) s.cfg.radius
      let x := (s.cfg.ledXY.getD j (0, 0)).1
      let y := (s.cfg.ledXY.getD j (0, 0)).2
      ∃ led : Bool,
        (led = true ↔ s.cfg.ledThresh < pixelIntensity (pixelSamples s.geo img x y)) ∧
        (s.geo.c = 1 → x < s.geo.w → y < s.geo.h →
          (led = true ↔ s.cfg.ledThresh < (img.getD (y * s.geo.w + x) 0).toNat)) ∧
        step s = .next (after { k with lastNode := m, led := led, cyc := Cycle.rest }
          [⟨j, led, if m = k.lastNode then none else m, decide (m ≠ k.lastNode)⟩]))

/-! ## Whole-machine rules -/

/-- A byte of `SFB` changes only by the Grabber that owns its slot: a step after which a byte reads
otherwise is one of port `GRB[u]`, the byte lies in slot `u`, and no other port held the slot's lock
(20_memory.md R74, R81). -/
def Obligations.BytesChangeOnlyByTheirOwner : Prop :=
  ∀ (s t : State) (a : Nat), s.Sound → s.LockOk → s.memoryOk → s.allocated = true →
    step s = .next t → Memory.read t.sfb a ≠ Memory.read s.sfb a →
    ∃ u, eventPort s.takeEvent.1 = .grb u ∧ slotBase s.geo u ≤ a ∧
      a < slotBase s.geo u + slotBytes s.geo ∧
      (s.lockOf u = none ∨ s.lockOf u = some (.grb u))

/-- The registers of a Grabber change only by its own port, and by GSTART of the Manager; those of a
filter only by its Tracker's port, and by KFINIT of the Manager (10_state.md R30, R34;
60_exceptions.md R270). The port has no operation outstanding, or not a WRSLOT of that Grabber. -/
def Obligations.RegistersChangeOnlyByTheirOwner : Prop :=
  ∀ (i : Instr) (s t : State) (k : Nat), exec i s = .next t → k < 256 →
    (s.inp.port ≠ .grb k → i ≠ .gstart (BitVec.ofNat 8 k) →
      (s.outstanding = none ∨ i ≠ .wrslot (BitVec.ofNat 8 k)) → t.grab k = s.grab k) ∧
    (s.inp.port ≠ .trk k → (s.inp.port = .mgr → i ≠ .kfinit (BitVec.ofNat 8 k)) →
      t.filter k = s.filter k)

/-- Faults are precise: an operation that adds to `FAULTS` has done nothing but raise, but for the two
cases that stop a Grabber; and a WRSLOT that has passed its checks adds nothing to `FAULTS` any more
(60_exceptions.md R264 to R266). -/
def Obligations.FaultsArePrecise : Prop :=
  ∀ (i : Instr) (s t : State), s.LockOk → (∀ o, s.outstanding = some o → o.instr = i) →
    exec i s = .next t → t.faults ≠ s.faults →
    ((∃ c info, t = s.raise c info) ∨
      (∃ u, i = .gopen u ∧ t = (s.modGrab u.toNat fun g =>
        { g with gph := .idle, gstate := .stopped }).raise .captureOpenFailure (.number u.toNat)) ∨
      (∃ u c info, i = .wrslot u ∧ s.inp.port = .grb u.toNat ∧ (s.grab u.toNat).gph = .wr ∧
        (c = .notAllocated ∨ c = .shapeMismatch) ∧
        t = (s.modGrab u.toNat fun g =>
          { g with gph := .idle, gstate := .stopped, frm := none }).raise c info)) ∧
    (∀ u, i = .wrslot u → s.outstanding = none)

/-- An operation that goes on gives exactly one response and is then no longer outstanding, or gives
none and is its port's outstanding operation; the other ports are as before (30_encoding.md R106). -/
def Obligations.OneResponsePerOperation : Prop :=
  ∀ (i : Instr) (s t : State), exec i s = .next t →
    ((∃ r, t.resp = s.resp ++ [(s.inp.port, r)] ∧ t.outstandingOf s.inp.port = none) ∨
      (t.resp = s.resp ∧ ∃ o, t.outstandingOf s.inp.port = some o ∧ o.instr = i)) ∧
    ∀ q, q ≠ s.inp.port → t.outstandingOf q = s.outstandingOf q

/-! ## Invariants of the step -/

/-- `FAULTS` and `LOG` are only appended to, `CANCEL` and `ALLOCATED` are never cleared, `GEO` does not
change once latched, `CFG` never changes, and the tick read never goes back (10_state.md R21, R22, R26,
R27, R37, R38). The lists of the responses given and of the Trackers' outputs, the model's own fields
`resp` and `tout` (log entries 9 and 15), are only appended to as well. -/
def Obligations.StickyStateStays : Prop :=
  ∀ s t : State, step s = .next t →
    s.faults <+: t.faults ∧ s.log <+: t.log ∧ s.resp <+: t.resp ∧ s.tout <+: t.tout ∧
    (s.cancel = true → t.cancel = true) ∧
    (s.allocated = true → t.allocated = true ∧ t.geo = s.geo) ∧
    t.cfg = s.cfg ∧ s.tick.toNat ≤ t.tick.toNat

/-- Every step keeps the memory in its canonical form, inside `SFB`, and empty before ALLOC
(20_memory.md R60, R66). -/
def Obligations.StepKeepsTheMemoryCanonical : Prop :=
  ∀ s t : State, s.memoryOk → step s = .next t → t.memoryOk

/-- Every step keeps, for every Grabber, `GSTATE[i] = Running` exactly when `GPH[i] != Idle`; no step
leads out of `Stopped` and none back to `Created` (10_state.md R29). -/
def Obligations.StepKeepsTheLifecycle : Prop :=
  ∀ s t : State, step s = .next t →
    ((∀ i, runningIffNotIdle (s.grab i)) → ∀ i, runningIffNotIdle (t.grab i)) ∧
    (∀ i, (s.grab i).gstate = .stopped → (t.grab i).gstate = .stopped) ∧
    (∀ i, (t.grab i).gstate = .created → (s.grab i).gstate = .created)

/-- Every step keeps the delivery queue within its capacity, at most one operation outstanding a port, and
every register file at its length: N Grabbers, T filters, T Trackers, the lock registers of the scope
(41_grabber_relay.md R178; 30_encoding.md R106; 10_state.md R24, R28, R34, R40). -/
def Obligations.StepKeepsTheBounds : Prop :=
  ∀ s t : State, step s = .next t →
    (s.dq.length ≤ s.cfg.qcap → t.dq.length ≤ t.cfg.qcap) ∧
    (s.oneOutstanding → t.oneOutstanding) ∧ (s.FilesOk → t.FilesOk)

/-- Every step keeps the lock with the writer: a write in flight holds the lock of its slot, and a
Grabber holds a lock only while it writes (10_state.md R32; 70_reset_and_hazards.md R303). That a Grabber
that holds a lock has `WIP` set at every moment is the model's: it takes the lock and sets `WIP` in one
step, where R124 writes one after the other (log entry 7). The other clauses of `LockOk` are the model's
own invariant (log entry 13). -/
def Obligations.StepKeepsTheLockWithTheWriter : Prop :=
  ∀ s t : State, s.LockOk → step s = .next t → t.LockOk

/-- What a step can do to a Tracker's state. A mask, once built, is never written again, and it is built
only by the detection, on an image whose intensities do not sum to zero (R239); a trail never grows
beyond `TRAIL_N` (R234). The raw trail takes an entry only in the detection, the filtered trail only with
the response to KFPRED (R231). KFCORR comes after a detection only, KFPRED after KFCORR or after the
detection step with none, the output after KFPRED only, and the decode after the lock was taken (R231;
42_kalman.md R208). `LASTNODE` and `LED` change, and an output is given, only in the output step (R236 to
R238). The steps of a cycle are the model's own field (log entry 15): from any of them it may also end. -/
def Obligations.MaskAndTrails : Prop :=
  ∀ s t : State, step s = .next t →
    (t.tout = s.tout ∨ ∃ j o, eventPort s.takeEvent.1 = .trk j ∧ (s.tracker j).cyc.ph = .output ∧
      o.trk = j ∧ t.tout = s.tout ++ [o]) ∧
    ∀ j : Nat,
      let k := s.tracker j
      let k' := t.tracker j
      (∀ m, k.mask = some m → k'.mask = some m) ∧
      (k.rawTrail.length ≤ s.cfg.trailN → k'.rawTrail.length ≤ s.cfg.trailN) ∧
      (k.filtTrail.length ≤ s.cfg.trailN → k'.filtTrail.length ≤ s.cfg.trailN) ∧
      (k' ≠ k → eventPort s.takeEvent.1 = .trk j) ∧
      (k'.mask ≠ k.mask →
        k.cyc.ph = .detect ∧ intensitySum s.geo (cycleImage s.geo k.cyc.got) ≠ 0) ∧
      (k'.rawTrail ≠ k.rawTrail → k.cyc.ph = .detect) ∧
      (k'.filtTrail ≠ k.filtTrail → k.cyc.ph = .predict ∧ k'.cyc.ph = .output) ∧
      (k'.lastNode ≠ k.lastNode ∨ k'.led ≠ k.led → k.cyc.ph = .output) ∧
      (k'.cyc.ph ≠ k.cyc.ph →
        match k'.cyc.ph with
        | .rest => True
        | .image => k.cyc.ph = .rest ∨ k.cyc.ph = .lock
        | .lock => k.cyc.ph = .rest ∨ k.cyc.ph = .image
        | .decode => k.cyc.ph = .lock ∨ k.cyc.ph = .image ∧ k.cyc.inLock = true
        | .unlock => k.cyc.ph = .decode
        | .detect => k.cyc.ph = .unlock
        | .correct => k.cyc.ph = .detect ∧ k'.cyc.det ≠ none
        | .predict => k.cyc.ph = .correct ∨ k.cyc.ph = .detect ∧ k'.cyc.det = none
        | .output => k.cyc.ph = .predict)

/-- A Tracker's own step writes its filter and, of the rest of the block, only the lock of its slot and a
fault record of its port: no byte of `SFB`, not the queue, no Grabber, not the geometry, not the
cancellation signal. A lock register it changes goes from free to its own port or back, under slot scope
only that of its own slot, or of the slot whose LOCK it has outstanding (43_tracker_consumer.md R241;
60_exceptions.md R261). Its own step is that of its TRKCYCLE, or goes on with a LOCK or DECMD it has
outstanding: the model's reading of R231 (log entry 15). -/
def Obligations.TrackerStepWritesOnlyItsFilter : Prop :=
  ∀ (s t : State) (j : Nat) (d : Draws) (es : List Event),
    s.script = .advance (.trk j) d :: es →
    (∀ o, s.outstandingOf (.trk j) = some o →
      ∃ u, o.instr = .lock u ∨ o.instr = .decmd u) →
    step s = .next t →
    t.sfb = s.sfb ∧ t.dq = s.dq ∧ t.grb = s.grb ∧ t.geo = s.geo ∧ t.allocated = s.allocated ∧
      t.cancel = s.cancel ∧ t.tick = s.tick ∧ t.log = s.log ∧ t.cfg = s.cfg ∧
      (∀ k, k ≠ j → t.filter k = s.filter k ∧ t.tracker k = s.tracker k) ∧
      (∀ q, q ≠ .trk j → t.outstandingOf q = s.outstandingOf q) ∧
      (t.faults = s.faults ∨ ∃ c i, t.faults = s.faults ++ [⟨.trk j, c, i⟩]) ∧
      (t.resp = s.resp ∨ ∃ r, t.resp = s.resp ++ [(.trk j, r)]) ∧
      (∀ v, t.lockOf v ≠ s.lockOf v →
        (s.lockOf v = none ∧ t.lockOf v = some (.trk j) ∨
          s.lockOf v = some (.trk j) ∧ t.lockOf v = none) ∧
        (s.cfg.scope = .slot →
          s.outstandingOf (.trk j) = none ∧ v = j % 256 ∨
            ∃ o u, s.outstandingOf (.trk j) = some o ∧ o.instr = .lock u ∧ v = u.toNat))

/-- Every step keeps a sound state sound. -/
def Obligations.StepKeepsSound : Prop :=
  ∀ s t : State, s.Sound → step s = .next t → t.Sound

/-- From a sound state no step stops the machine: whatever event comes, the machine goes on to a next
state, so no ordinary input ends a run. -/
def Obligations.SoundStatesNeverStop : Prop :=
  ∀ s : State, s.Sound → ∃ t, step s = .next t

/-! ## Runs -/

/-- An ENQ never stays outstanding for ever: in every run, which is weakly fair, one that waits ends in one
of its outcomes (41_grabber_relay.md R169; 20_memory.md R78). The states of the run are sound and keep the
queue within its capacity, as every run from a legal reset does (`ResetMeetsTheInvariants`,
`StepKeepsSound`, `StepKeepsTheBounds`). How a run and its fairness are written is the model's (log entry
20). -/
def Obligations.EnqAlwaysEnds : Prop :=
  ∀ (r : Run) (u : UnitNo) (n : Nat) (o : Pending),
    (∀ m, n ≤ m → (r.state m).Sound ∧ (r.state m).dq.length ≤ (r.state m).cfg.qcap) →
    u.toNat < (r.state n).cfg.geo.n →
    (r.state n).outstandingOf (.grb u.toNat) = some o → o.instr = .enq u →
    ∃ m, n ≤ m ∧ (r.state m).outstandingOf (.grb u.toNat) = none

/-- Weak fairness is all there is: a run from reset of a legal configuration in which a Grabber waits in
phase `Wr` for ever, though the lock is free again and again, because another port takes it again each
time (70_reset_and_hazards.md R319; 20_memory.md R72, R78). How a run and its fairness are written (`Run`,
`WeaklyFair`, `State.enabled`, `State.underWay`) is the model's choice (log entry 20). -/
def Obligations.WeakFairnessLetsAWriterStarve : Prop :=
  ∃ (r : Run) (c : Cfg) (n : Nat), c.legal = true ∧ r.state 0 = State.resetWith c ∧
    (∀ m, n ≤ m → ((r.state m).grab 0).gph = .wr ∧
      ∃ o, (r.state m).outstandingOf (.grb 0) = some o ∧ o.instr = .wrslot 0) ∧
    (∀ m, ∃ k, m ≤ k ∧ (r.state k).lockOf 0 = none)

/-! ## Reset -/

/-- The values after reset (10_state.md R45), for every configuration: the register files have N, T and T
entries and the locks those of the scope, each at its reset value; `GEO` and `TICK`, which the spec leaves
open, are not mentioned. The operations outstanding, the responses and the outputs are the model's own
fields, empty (log entries 9 and 15). -/
def Obligations.ResetValues : Prop :=
  ∀ (c : Cfg) (k : Nat),
    let s := State.resetWith c
    s.grb.length = c.geo.n ∧ s.kfu.length = c.t ∧ s.trk.length = c.t ∧
      s.locks.length = lockCount c ∧
      s.cfg = c ∧ s.allocated = false ∧ s.sfb = [] ∧ s.lockOf k = none ∧ s.dq = [] ∧
      s.cancel = false ∧ s.grab k = ⟨.idle, .created, 0, none, none, none, 0⟩ ∧
      s.filter k = ⟨c.kfX0, c.kfP0⟩ ∧ s.faults = [] ∧ s.log = [] ∧
      (s.tracker k).mask = none ∧ (s.tracker k).rawTrail = [] ∧ (s.tracker k).filtTrail = [] ∧
      (s.tracker k).lastNode = none ∧ (s.tracker k).led = false ∧
      (∀ p, s.outstandingOf p = none) ∧ s.resp = [] ∧ s.tout = []

/-- Every invariant holds after reset, for every legal configuration (10_state.md R45). `Sound` and `LockOk`
are the model's own invariants (log entry 13). -/
def Obligations.ResetMeetsTheInvariants : Prop :=
  ∀ c : Cfg, c.legal = true →
    (State.resetWith c).Sound ∧ (State.resetWith c).LockOk ∧ (State.resetWith c).memoryOk ∧
      (State.resetWith c).oneOutstanding ∧ (State.resetWith c).FilesOk ∧
      (∀ i, runningIffNotIdle ((State.resetWith c).grab i)) ∧
      (State.resetWith c).dq.length ≤ c.qcap
end

