-- ==== Sys2Proof/Laws/Memory.lean ====
section
/-! SUPPORT. The laws of the byte memory: reading after writing, and the canonical form that every
memory operation keeps (20_memory.md R66, R67). -/

namespace Sys2Proof.Machine

@[simp] theorem read_nil (a : Nat) : Memory.read [] a = unlistedByte := rfl

/-- An address below every listed one reads as unlisted. -/
theorem read_of_lt {m : Memory} {a : Nat} (h : ∀ c ∈ m, a < c.1) :
    Memory.read m a = unlistedByte := by
  induction m with
  | nil => rfl
  | cons c m ih =>
    have hc : a < c.1 := h c (by simp)
    have hm : Memory.read m a = unlistedByte := ih fun d hd => h d (by simp [hd])
    simp [Memory.read, Nat.ne_of_lt hc, hm]

theorem wf_cons {a : Nat} {v : Byte} {m : Memory} :
    Memory.wf ((a, v) :: m) = true ↔
      v ≠ unlistedByte ∧ (∀ c ∈ m, a < c.1) ∧ Memory.wf m = true := by
  simp [Memory.wf, and_assoc]

/-- Every address listed after a write was listed before or is the one written. -/
theorem mem_write {m : Memory} {a : Nat} {v : Byte} {c : Host.Cell}
    (h : c ∈ Memory.write m a v) : c ∈ m ∨ c = (a, v) := by
  induction m with
  | nil =>
    by_cases hv : v = unlistedByte <;> simp_all [Memory.write]
  | cons d m ih =>
    obtain ⟨b, w⟩ := d
    simp only [Memory.write] at h
    split_ifs at h <;> simp only [List.mem_cons] at h ⊢ <;> tauto

/-- A write keeps the canonical form. -/
theorem write_wf {m : Memory} (a : Nat) (v : Byte) (h : Memory.wf m = true) :
    Memory.wf (Memory.write m a v) = true := by
  induction m with
  | nil =>
    by_cases hv : v = unlistedByte
    · simp [Memory.write, hv, Memory.wf]
    · simp [Memory.write, hv, Memory.wf]
  | cons d m ih =>
    obtain ⟨b, w⟩ := d
    obtain ⟨hw, hlt, hm⟩ := wf_cons.mp h
    simp only [Memory.write]
    split_ifs with h1 h2 h3 h4
    · exact h
    · refine wf_cons.mpr ⟨h2, ?_, h⟩
      intro c hc
      rcases List.mem_cons.mp hc with rfl | hc
      · exact h1
      · exact lt_trans h1 (hlt c hc)
    · exact hm
    · subst h3
      exact wf_cons.mpr ⟨h4, hlt, hm⟩
    · refine wf_cons.mpr ⟨hw, ?_, ih hm⟩
      intro c hc
      rcases mem_write hc with hc | rfl
      · exact hlt c hc
      · change b < a
        omega

/-- Reading after writing: the byte written at its address, every other byte as before. -/
theorem read_write {m : Memory} (a b : Nat) (v : Byte) (h : Memory.wf m = true) :
    Memory.read (Memory.write m a v) b = if b = a then v else Memory.read m b := by
  induction m with
  | nil =>
    by_cases hv : v = unlistedByte <;> by_cases hb : b = a <;> simp [Memory.write, Memory.read, hv, hb]
  | cons d m ih =>
    obtain ⟨c, w⟩ := d
    obtain ⟨-, hlt, hm⟩ := wf_cons.mp h
    have below : a < c → Memory.read ((c, w) :: m) a = unlistedByte := fun hac =>
      read_of_lt fun e he => by
        rcases List.mem_cons.mp he with rfl | he
        · exact hac
        · exact lt_trans hac (hlt e he)
    rcases lt_trichotomy a c with hac | rfl | hca
    · by_cases hv : v = unlistedByte <;> by_cases hb : b = a
      · simp [Memory.write, hac, hv, hb, below hac]
      · simp [Memory.write, hac, hv, hb]
      · simp [Memory.write, hac, hv, hb, Memory.read]
      · simp [Memory.write, hac, hv, hb, Memory.read]
    · by_cases hv : v = unlistedByte <;> by_cases hb : b = a
      · simp [Memory.write, hv, hb, read_of_lt hlt]
      · simp [Memory.write, hv, hb, Memory.read]
      · simp [Memory.write, hv, hb, Memory.read]
      · simp [Memory.write, hv, hb, Memory.read]
    · have h1 : ¬ a < c := by omega
      have h2 : ¬ a = c := by omega
      by_cases hb : b = c
      · have h3 : ¬ c = a := by omega
        simp [Memory.write, h1, h2, hb, h3, Memory.read]
      · simp [Memory.write, h1, h2, hb, Memory.read, ih hm]

/-- `MemRead` where it is defined (20_memory.md R66). -/
theorem memRead_eq_some {s : State} {a : Nat} {v : Byte} :
    s.memRead a = some v ↔ s.inSfb a = true ∧ v = Memory.read s.sfb a := by
  unfold State.memRead
  split_ifs with h <;> simp [h, eq_comm]

/-- `MemWrite` where it is defined: only the memory changes (20_memory.md R67). -/
theorem memWrite_eq_some {s t : State} {a : Nat} {v : Byte} :
    s.memWrite a v = some t ↔ s.inSfb a = true ∧ t = { s with sfb := Memory.write s.sfb a v } := by
  unfold State.memWrite
  split_ifs with h <;> simp [h, eq_comm]

/-- `MemWrite` keeps the canonical form. -/
theorem memWrite_wf {s t : State} {a : Nat} {v : Byte} (h : s.memWrite a v = some t)
    (hw : Memory.wf s.sfb = true) : Memory.wf t.sfb = true := by
  obtain ⟨-, rfl⟩ := memWrite_eq_some.mp h
  exact write_wf a v hw

/-- ALLOC's memory and the memory after reset are in the canonical form. -/
theorem empty_wf : Memory.wf [] = true := rfl

end Sys2Proof.Machine
end

