-- ==== Sys2Proof/Laws/State.lean ====
section
/-! SUPPORT. What each update of the state does to each field: one lemma per field per update, true by
definition, so that no proof unfolds an update. -/

namespace Sys2Proof.Machine

/-! ## `answer` -/

@[simp] theorem answer_cfg (s : State) (r : Response) : (s.answer r).cfg = s.cfg := rfl
@[simp] theorem answer_allocated (s : State) (r : Response) :
    (s.answer r).allocated = s.allocated := rfl
@[simp] theorem answer_geo (s : State) (r : Response) : (s.answer r).geo = s.geo := rfl
@[simp] theorem answer_sfb (s : State) (r : Response) : (s.answer r).sfb = s.sfb := rfl
@[simp] theorem answer_locks (s : State) (r : Response) : (s.answer r).locks = s.locks := rfl
@[simp] theorem answer_dq (s : State) (r : Response) : (s.answer r).dq = s.dq := rfl
@[simp] theorem answer_tick (s : State) (r : Response) : (s.answer r).tick = s.tick := rfl
@[simp] theorem answer_cancel (s : State) (r : Response) : (s.answer r).cancel = s.cancel := rfl
@[simp] theorem answer_grb (s : State) (r : Response) : (s.answer r).grb = s.grb := rfl
@[simp] theorem answer_kfu (s : State) (r : Response) : (s.answer r).kfu = s.kfu := rfl
@[simp] theorem answer_faults (s : State) (r : Response) : (s.answer r).faults = s.faults := rfl
@[simp] theorem answer_log (s : State) (r : Response) : (s.answer r).log = s.log := rfl
@[simp] theorem answer_trk (s : State) (r : Response) : (s.answer r).trk = s.trk := rfl
@[simp] theorem answer_tout (s : State) (r : Response) : (s.answer r).tout = s.tout := rfl
@[simp] theorem answer_pend (s : State) (r : Response) :
    (s.answer r).pend = dropPending s.inp.port s.pend := rfl
@[simp] theorem answer_resp (s : State) (r : Response) :
    (s.answer r).resp = s.resp ++ [(s.inp.port, r)] := rfl
@[simp] theorem answer_inp (s : State) (r : Response) : (s.answer r).inp = s.inp := rfl
@[simp] theorem answer_script (s : State) (r : Response) : (s.answer r).script = s.script := rfl
@[simp] theorem answer_clock (s : State) (r : Response) : (s.answer r).clock = s.clock := rfl

/-! ## `respond` -/

@[simp] theorem respond_cfg (s : State) (r : Result) : (s.respond r).cfg = s.cfg := rfl
@[simp] theorem respond_allocated (s : State) (r : Result) :
    (s.respond r).allocated = s.allocated := rfl
@[simp] theorem respond_geo (s : State) (r : Result) : (s.respond r).geo = s.geo := rfl
@[simp] theorem respond_sfb (s : State) (r : Result) : (s.respond r).sfb = s.sfb := rfl
@[simp] theorem respond_locks (s : State) (r : Result) : (s.respond r).locks = s.locks := rfl
@[simp] theorem respond_dq (s : State) (r : Result) : (s.respond r).dq = s.dq := rfl
@[simp] theorem respond_tick (s : State) (r : Result) : (s.respond r).tick = s.tick := rfl
@[simp] theorem respond_cancel (s : State) (r : Result) : (s.respond r).cancel = s.cancel := rfl
@[simp] theorem respond_grb (s : State) (r : Result) : (s.respond r).grb = s.grb := rfl
@[simp] theorem respond_kfu (s : State) (r : Result) : (s.respond r).kfu = s.kfu := rfl
@[simp] theorem respond_faults (s : State) (r : Result) : (s.respond r).faults = s.faults := rfl
@[simp] theorem respond_log (s : State) (r : Result) : (s.respond r).log = s.log := rfl
@[simp] theorem respond_trk (s : State) (r : Result) : (s.respond r).trk = s.trk := rfl
@[simp] theorem respond_tout (s : State) (r : Result) : (s.respond r).tout = s.tout := rfl
@[simp] theorem respond_pend (s : State) (r : Result) :
    (s.respond r).pend = dropPending s.inp.port s.pend := rfl
@[simp] theorem respond_resp (s : State) (r : Result) :
    (s.respond r).resp = s.resp ++ [(s.inp.port, .ok r)] := rfl
@[simp] theorem respond_inp (s : State) (r : Result) : (s.respond r).inp = s.inp := rfl
@[simp] theorem respond_script (s : State) (r : Result) : (s.respond r).script = s.script := rfl
@[simp] theorem respond_clock (s : State) (r : Result) : (s.respond r).clock = s.clock := rfl

/-! ## `raise` -/

@[simp] theorem raise_cfg (s : State) (c : Cause) (i : Info) : (s.raise c i).cfg = s.cfg := rfl
@[simp] theorem raise_allocated (s : State) (c : Cause) (i : Info) :
    (s.raise c i).allocated = s.allocated := rfl
@[simp] theorem raise_geo (s : State) (c : Cause) (i : Info) : (s.raise c i).geo = s.geo := rfl
@[simp] theorem raise_sfb (s : State) (c : Cause) (i : Info) : (s.raise c i).sfb = s.sfb := rfl
@[simp] theorem raise_locks (s : State) (c : Cause) (i : Info) :
    (s.raise c i).locks = s.locks := rfl
@[simp] theorem raise_dq (s : State) (c : Cause) (i : Info) : (s.raise c i).dq = s.dq := rfl
@[simp] theorem raise_tick (s : State) (c : Cause) (i : Info) : (s.raise c i).tick = s.tick := rfl
@[simp] theorem raise_cancel (s : State) (c : Cause) (i : Info) :
    (s.raise c i).cancel = s.cancel := rfl
@[simp] theorem raise_grb (s : State) (c : Cause) (i : Info) : (s.raise c i).grb = s.grb := rfl
@[simp] theorem raise_kfu (s : State) (c : Cause) (i : Info) : (s.raise c i).kfu = s.kfu := rfl
@[simp] theorem raise_faults (s : State) (c : Cause) (i : Info) :
    (s.raise c i).faults = s.faults ++ [⟨s.inp.port, causeCode c, i⟩] := rfl
@[simp] theorem raise_log (s : State) (c : Cause) (i : Info) : (s.raise c i).log = s.log := rfl
@[simp] theorem raise_trk (s : State) (c : Cause) (i : Info) : (s.raise c i).trk = s.trk := rfl
@[simp] theorem raise_tout (s : State) (c : Cause) (i : Info) : (s.raise c i).tout = s.tout := rfl
@[simp] theorem raise_pend (s : State) (c : Cause) (i : Info) :
    (s.raise c i).pend = dropPending s.inp.port s.pend := rfl
@[simp] theorem raise_resp (s : State) (c : Cause) (i : Info) :
    (s.raise c i).resp = s.resp ++ [(s.inp.port, .fault (causeCode c) i)] := rfl
@[simp] theorem raise_inp (s : State) (c : Cause) (i : Info) : (s.raise c i).inp = s.inp := rfl
@[simp] theorem raise_script (s : State) (c : Cause) (i : Info) :
    (s.raise c i).script = s.script := rfl
@[simp] theorem raise_clock (s : State) (c : Cause) (i : Info) :
    (s.raise c i).clock = s.clock := rfl

/-! ## `raiseLockMisuse` -/

@[simp] theorem raiseLockMisuse_cfg (s : State) : (s.raiseLockMisuse).cfg = s.cfg := rfl
@[simp] theorem raiseLockMisuse_allocated (s : State) :
    (s.raiseLockMisuse).allocated = s.allocated := rfl
@[simp] theorem raiseLockMisuse_geo (s : State) : (s.raiseLockMisuse).geo = s.geo := rfl
@[simp] theorem raiseLockMisuse_sfb (s : State) : (s.raiseLockMisuse).sfb = s.sfb := rfl
@[simp] theorem raiseLockMisuse_locks (s : State) : (s.raiseLockMisuse).locks = s.locks := rfl
@[simp] theorem raiseLockMisuse_dq (s : State) : (s.raiseLockMisuse).dq = s.dq := rfl
@[simp] theorem raiseLockMisuse_tick (s : State) : (s.raiseLockMisuse).tick = s.tick := rfl
@[simp] theorem raiseLockMisuse_cancel (s : State) : (s.raiseLockMisuse).cancel = s.cancel := rfl
@[simp] theorem raiseLockMisuse_grb (s : State) : (s.raiseLockMisuse).grb = s.grb := rfl
@[simp] theorem raiseLockMisuse_kfu (s : State) : (s.raiseLockMisuse).kfu = s.kfu := rfl
@[simp] theorem raiseLockMisuse_faults (s : State) :
    (s.raiseLockMisuse).faults = s.faults ++ [⟨s.inp.port, 0x19, .port s.inp.port⟩] := rfl
@[simp] theorem raiseLockMisuse_log (s : State) : (s.raiseLockMisuse).log = s.log := rfl
@[simp] theorem raiseLockMisuse_trk (s : State) : (s.raiseLockMisuse).trk = s.trk := rfl
@[simp] theorem raiseLockMisuse_tout (s : State) : (s.raiseLockMisuse).tout = s.tout := rfl
@[simp] theorem raiseLockMisuse_pend (s : State) :
    (s.raiseLockMisuse).pend = dropPending s.inp.port s.pend := rfl
@[simp] theorem raiseLockMisuse_resp (s : State) :
    (s.raiseLockMisuse).resp = s.resp ++ [(s.inp.port, .fault 0x19 (.port s.inp.port))] := rfl
@[simp] theorem raiseLockMisuse_inp (s : State) : (s.raiseLockMisuse).inp = s.inp := rfl
@[simp] theorem raiseLockMisuse_script (s : State) : (s.raiseLockMisuse).script = s.script := rfl
@[simp] theorem raiseLockMisuse_clock (s : State) : (s.raiseLockMisuse).clock = s.clock := rfl

/-! ## `keepOpen` -/

@[simp] theorem keepOpen_cfg (s : State) (i : Instr) (pl : Payload) (g : List (Nat × Byte)) :
    (s.keepOpen i pl g).cfg = s.cfg := rfl
@[simp] theorem keepOpen_allocated (s : State) (i : Instr) (pl : Payload) (g : List (Nat × Byte)) :
    (s.keepOpen i pl g).allocated = s.allocated := rfl
@[simp] theorem keepOpen_geo (s : State) (i : Instr) (pl : Payload) (g : List (Nat × Byte)) :
    (s.keepOpen i pl g).geo = s.geo := rfl
@[simp] theorem keepOpen_sfb (s : State) (i : Instr) (pl : Payload) (g : List (Nat × Byte)) :
    (s.keepOpen i pl g).sfb = s.sfb := rfl
@[simp] theorem keepOpen_locks (s : State) (i : Instr) (pl : Payload) (g : List (Nat × Byte)) :
    (s.keepOpen i pl g).locks = s.locks := rfl
@[simp] theorem keepOpen_dq (s : State) (i : Instr) (pl : Payload) (g : List (Nat × Byte)) :
    (s.keepOpen i pl g).dq = s.dq := rfl
@[simp] theorem keepOpen_tick (s : State) (i : Instr) (pl : Payload) (g : List (Nat × Byte)) :
    (s.keepOpen i pl g).tick = s.tick := rfl
@[simp] theorem keepOpen_cancel (s : State) (i : Instr) (pl : Payload) (g : List (Nat × Byte)) :
    (s.keepOpen i pl g).cancel = s.cancel := rfl
@[simp] theorem keepOpen_grb (s : State) (i : Instr) (pl : Payload) (g : List (Nat × Byte)) :
    (s.keepOpen i pl g).grb = s.grb := rfl
@[simp] theorem keepOpen_kfu (s : State) (i : Instr) (pl : Payload) (g : List (Nat × Byte)) :
    (s.keepOpen i pl g).kfu = s.kfu := rfl
@[simp] theorem keepOpen_faults (s : State) (i : Instr) (pl : Payload) (g : List (Nat × Byte)) :
    (s.keepOpen i pl g).faults = s.faults := rfl
@[simp] theorem keepOpen_log (s : State) (i : Instr) (pl : Payload) (g : List (Nat × Byte)) :
    (s.keepOpen i pl g).log = s.log := rfl
@[simp] theorem keepOpen_trk (s : State) (i : Instr) (pl : Payload) (g : List (Nat × Byte)) :
    (s.keepOpen i pl g).trk = s.trk := rfl
@[simp] theorem keepOpen_tout (s : State) (i : Instr) (pl : Payload) (g : List (Nat × Byte)) :
    (s.keepOpen i pl g).tout = s.tout := rfl
@[simp] theorem keepOpen_pend (s : State) (i : Instr) (pl : Payload) (g : List (Nat × Byte)) :
    (s.keepOpen i pl g).pend = (s.inp.port, ⟨i, pl, g⟩) :: dropPending s.inp.port s.pend := rfl
@[simp] theorem keepOpen_resp (s : State) (i : Instr) (pl : Payload) (g : List (Nat × Byte)) :
    (s.keepOpen i pl g).resp = s.resp := rfl
@[simp] theorem keepOpen_inp (s : State) (i : Instr) (pl : Payload) (g : List (Nat × Byte)) :
    (s.keepOpen i pl g).inp = s.inp := rfl
@[simp] theorem keepOpen_script (s : State) (i : Instr) (pl : Payload) (g : List (Nat × Byte)) :
    (s.keepOpen i pl g).script = s.script := rfl
@[simp] theorem keepOpen_clock (s : State) (i : Instr) (pl : Payload) (g : List (Nat × Byte)) :
    (s.keepOpen i pl g).clock = s.clock := rfl

/-! ## `wait` -/

@[simp] theorem wait_cfg (s : State) (i : Instr) : (s.wait i).cfg = s.cfg := rfl
@[simp] theorem wait_allocated (s : State) (i : Instr) : (s.wait i).allocated = s.allocated := rfl
@[simp] theorem wait_geo (s : State) (i : Instr) : (s.wait i).geo = s.geo := rfl
@[simp] theorem wait_sfb (s : State) (i : Instr) : (s.wait i).sfb = s.sfb := rfl
@[simp] theorem wait_locks (s : State) (i : Instr) : (s.wait i).locks = s.locks := rfl
@[simp] theorem wait_dq (s : State) (i : Instr) : (s.wait i).dq = s.dq := rfl
@[simp] theorem wait_tick (s : State) (i : Instr) : (s.wait i).tick = s.tick := rfl
@[simp] theorem wait_cancel (s : State) (i : Instr) : (s.wait i).cancel = s.cancel := rfl
@[simp] theorem wait_grb (s : State) (i : Instr) : (s.wait i).grb = s.grb := rfl
@[simp] theorem wait_kfu (s : State) (i : Instr) : (s.wait i).kfu = s.kfu := rfl
@[simp] theorem wait_faults (s : State) (i : Instr) : (s.wait i).faults = s.faults := rfl
@[simp] theorem wait_log (s : State) (i : Instr) : (s.wait i).log = s.log := rfl
@[simp] theorem wait_trk (s : State) (i : Instr) : (s.wait i).trk = s.trk := rfl
@[simp] theorem wait_tout (s : State) (i : Instr) : (s.wait i).tout = s.tout := rfl
@[simp] theorem wait_pend (s : State) (i : Instr) :
    (s.wait i).pend = (s.inp.port, ⟨i, s.inp.payload, []⟩) :: dropPending s.inp.port s.pend := rfl
@[simp] theorem wait_resp (s : State) (i : Instr) : (s.wait i).resp = s.resp := rfl
@[simp] theorem wait_inp (s : State) (i : Instr) : (s.wait i).inp = s.inp := rfl
@[simp] theorem wait_script (s : State) (i : Instr) : (s.wait i).script = s.script := rfl
@[simp] theorem wait_clock (s : State) (i : Instr) : (s.wait i).clock = s.clock := rfl

/-! ## `logEvent` -/

@[simp] theorem logEvent_cfg (s : State) (e : LogEvent) : (s.logEvent e).cfg = s.cfg := rfl
@[simp] theorem logEvent_allocated (s : State) (e : LogEvent) :
    (s.logEvent e).allocated = s.allocated := rfl
@[simp] theorem logEvent_geo (s : State) (e : LogEvent) : (s.logEvent e).geo = s.geo := rfl
@[simp] theorem logEvent_sfb (s : State) (e : LogEvent) : (s.logEvent e).sfb = s.sfb := rfl
@[simp] theorem logEvent_locks (s : State) (e : LogEvent) : (s.logEvent e).locks = s.locks := rfl
@[simp] theorem logEvent_dq (s : State) (e : LogEvent) : (s.logEvent e).dq = s.dq := rfl
@[simp] theorem logEvent_tick (s : State) (e : LogEvent) : (s.logEvent e).tick = s.tick := rfl
@[simp] theorem logEvent_cancel (s : State) (e : LogEvent) : (s.logEvent e).cancel = s.cancel := rfl
@[simp] theorem logEvent_grb (s : State) (e : LogEvent) : (s.logEvent e).grb = s.grb := rfl
@[simp] theorem logEvent_kfu (s : State) (e : LogEvent) : (s.logEvent e).kfu = s.kfu := rfl
@[simp] theorem logEvent_faults (s : State) (e : LogEvent) : (s.logEvent e).faults = s.faults := rfl
@[simp] theorem logEvent_log (s : State) (e : LogEvent) : (s.logEvent e).log = s.log ++ [e] := rfl
@[simp] theorem logEvent_trk (s : State) (e : LogEvent) : (s.logEvent e).trk = s.trk := rfl
@[simp] theorem logEvent_tout (s : State) (e : LogEvent) : (s.logEvent e).tout = s.tout := rfl
@[simp] theorem logEvent_pend (s : State) (e : LogEvent) : (s.logEvent e).pend = s.pend := rfl
@[simp] theorem logEvent_resp (s : State) (e : LogEvent) : (s.logEvent e).resp = s.resp := rfl
@[simp] theorem logEvent_inp (s : State) (e : LogEvent) : (s.logEvent e).inp = s.inp := rfl
@[simp] theorem logEvent_script (s : State) (e : LogEvent) : (s.logEvent e).script = s.script := rfl
@[simp] theorem logEvent_clock (s : State) (e : LogEvent) : (s.logEvent e).clock = s.clock := rfl

/-! ## `modGrab` -/

@[simp] theorem modGrab_cfg (s : State) (i : Nat) (f : Grabber → Grabber) :
    (s.modGrab i f).cfg = s.cfg := rfl
@[simp] theorem modGrab_allocated (s : State) (i : Nat) (f : Grabber → Grabber) :
    (s.modGrab i f).allocated = s.allocated := rfl
@[simp] theorem modGrab_geo (s : State) (i : Nat) (f : Grabber → Grabber) :
    (s.modGrab i f).geo = s.geo := rfl
@[simp] theorem modGrab_sfb (s : State) (i : Nat) (f : Grabber → Grabber) :
    (s.modGrab i f).sfb = s.sfb := rfl
@[simp] theorem modGrab_locks (s : State) (i : Nat) (f : Grabber → Grabber) :
    (s.modGrab i f).locks = s.locks := rfl
@[simp] theorem modGrab_dq (s : State) (i : Nat) (f : Grabber → Grabber) :
    (s.modGrab i f).dq = s.dq := rfl
@[simp] theorem modGrab_tick (s : State) (i : Nat) (f : Grabber → Grabber) :
    (s.modGrab i f).tick = s.tick := rfl
@[simp] theorem modGrab_cancel (s : State) (i : Nat) (f : Grabber → Grabber) :
    (s.modGrab i f).cancel = s.cancel := rfl
@[simp] theorem modGrab_grb (s : State) (i : Nat) (f : Grabber → Grabber) :
    (s.modGrab i f).grb = s.grb.modify i f := rfl
@[simp] theorem modGrab_kfu (s : State) (i : Nat) (f : Grabber → Grabber) :
    (s.modGrab i f).kfu = s.kfu := rfl
@[simp] theorem modGrab_faults (s : State) (i : Nat) (f : Grabber → Grabber) :
    (s.modGrab i f).faults = s.faults := rfl
@[simp] theorem modGrab_log (s : State) (i : Nat) (f : Grabber → Grabber) :
    (s.modGrab i f).log = s.log := rfl
@[simp] theorem modGrab_trk (s : State) (i : Nat) (f : Grabber → Grabber) :
    (s.modGrab i f).trk = s.trk := rfl
@[simp] theorem modGrab_tout (s : State) (i : Nat) (f : Grabber → Grabber) :
    (s.modGrab i f).tout = s.tout := rfl
@[simp] theorem modGrab_pend (s : State) (i : Nat) (f : Grabber → Grabber) :
    (s.modGrab i f).pend = s.pend := rfl
@[simp] theorem modGrab_resp (s : State) (i : Nat) (f : Grabber → Grabber) :
    (s.modGrab i f).resp = s.resp := rfl
@[simp] theorem modGrab_inp (s : State) (i : Nat) (f : Grabber → Grabber) :
    (s.modGrab i f).inp = s.inp := rfl
@[simp] theorem modGrab_script (s : State) (i : Nat) (f : Grabber → Grabber) :
    (s.modGrab i f).script = s.script := rfl
@[simp] theorem modGrab_clock (s : State) (i : Nat) (f : Grabber → Grabber) :
    (s.modGrab i f).clock = s.clock := rfl

/-! ## `setPhase` -/

@[simp] theorem setPhase_cfg (s : State) (i : Nat) (p : Phase) : (s.setPhase i p).cfg = s.cfg := rfl
@[simp] theorem setPhase_allocated (s : State) (i : Nat) (p : Phase) :
    (s.setPhase i p).allocated = s.allocated := rfl
@[simp] theorem setPhase_geo (s : State) (i : Nat) (p : Phase) : (s.setPhase i p).geo = s.geo := rfl
@[simp] theorem setPhase_sfb (s : State) (i : Nat) (p : Phase) : (s.setPhase i p).sfb = s.sfb := rfl
@[simp] theorem setPhase_locks (s : State) (i : Nat) (p : Phase) :
    (s.setPhase i p).locks = s.locks := rfl
@[simp] theorem setPhase_dq (s : State) (i : Nat) (p : Phase) : (s.setPhase i p).dq = s.dq := rfl
@[simp] theorem setPhase_tick (s : State) (i : Nat) (p : Phase) :
    (s.setPhase i p).tick = s.tick := rfl
@[simp] theorem setPhase_cancel (s : State) (i : Nat) (p : Phase) :
    (s.setPhase i p).cancel = s.cancel := rfl
@[simp] theorem setPhase_grb (s : State) (i : Nat) (p : Phase) :
    (s.setPhase i p).grb = s.grb.modify i fun g => { g with gph := p } := rfl
@[simp] theorem setPhase_kfu (s : State) (i : Nat) (p : Phase) : (s.setPhase i p).kfu = s.kfu := rfl
@[simp] theorem setPhase_faults (s : State) (i : Nat) (p : Phase) :
    (s.setPhase i p).faults = s.faults := rfl
@[simp] theorem setPhase_log (s : State) (i : Nat) (p : Phase) : (s.setPhase i p).log = s.log := rfl
@[simp] theorem setPhase_trk (s : State) (i : Nat) (p : Phase) : (s.setPhase i p).trk = s.trk := rfl
@[simp] theorem setPhase_tout (s : State) (i : Nat) (p : Phase) :
    (s.setPhase i p).tout = s.tout := rfl
@[simp] theorem setPhase_pend (s : State) (i : Nat) (p : Phase) :
    (s.setPhase i p).pend = s.pend := rfl
@[simp] theorem setPhase_resp (s : State) (i : Nat) (p : Phase) :
    (s.setPhase i p).resp = s.resp := rfl
@[simp] theorem setPhase_inp (s : State) (i : Nat) (p : Phase) : (s.setPhase i p).inp = s.inp := rfl
@[simp] theorem setPhase_script (s : State) (i : Nat) (p : Phase) :
    (s.setPhase i p).script = s.script := rfl
@[simp] theorem setPhase_clock (s : State) (i : Nat) (p : Phase) :
    (s.setPhase i p).clock = s.clock := rfl

/-! ## `setWip` -/

@[simp] theorem setWip_cfg (s : State) (i : Nat) (w : Option Wip) :
    (s.setWip i w).cfg = s.cfg := rfl
@[simp] theorem setWip_allocated (s : State) (i : Nat) (w : Option Wip) :
    (s.setWip i w).allocated = s.allocated := rfl
@[simp] theorem setWip_geo (s : State) (i : Nat) (w : Option Wip) :
    (s.setWip i w).geo = s.geo := rfl
@[simp] theorem setWip_sfb (s : State) (i : Nat) (w : Option Wip) :
    (s.setWip i w).sfb = s.sfb := rfl
@[simp] theorem setWip_locks (s : State) (i : Nat) (w : Option Wip) :
    (s.setWip i w).locks = s.locks := rfl
@[simp] theorem setWip_dq (s : State) (i : Nat) (w : Option Wip) : (s.setWip i w).dq = s.dq := rfl
@[simp] theorem setWip_tick (s : State) (i : Nat) (w : Option Wip) :
    (s.setWip i w).tick = s.tick := rfl
@[simp] theorem setWip_cancel (s : State) (i : Nat) (w : Option Wip) :
    (s.setWip i w).cancel = s.cancel := rfl
@[simp] theorem setWip_grb (s : State) (i : Nat) (w : Option Wip) :
    (s.setWip i w).grb = s.grb.modify i fun g => { g with wip := w } := rfl
@[simp] theorem setWip_kfu (s : State) (i : Nat) (w : Option Wip) :
    (s.setWip i w).kfu = s.kfu := rfl
@[simp] theorem setWip_faults (s : State) (i : Nat) (w : Option Wip) :
    (s.setWip i w).faults = s.faults := rfl
@[simp] theorem setWip_log (s : State) (i : Nat) (w : Option Wip) :
    (s.setWip i w).log = s.log := rfl
@[simp] theorem setWip_trk (s : State) (i : Nat) (w : Option Wip) :
    (s.setWip i w).trk = s.trk := rfl
@[simp] theorem setWip_tout (s : State) (i : Nat) (w : Option Wip) :
    (s.setWip i w).tout = s.tout := rfl
@[simp] theorem setWip_pend (s : State) (i : Nat) (w : Option Wip) :
    (s.setWip i w).pend = s.pend := rfl
@[simp] theorem setWip_resp (s : State) (i : Nat) (w : Option Wip) :
    (s.setWip i w).resp = s.resp := rfl
@[simp] theorem setWip_inp (s : State) (i : Nat) (w : Option Wip) :
    (s.setWip i w).inp = s.inp := rfl
@[simp] theorem setWip_script (s : State) (i : Nat) (w : Option Wip) :
    (s.setWip i w).script = s.script := rfl
@[simp] theorem setWip_clock (s : State) (i : Nat) (w : Option Wip) :
    (s.setWip i w).clock = s.clock := rfl

/-! ## `stopGrabber` -/

@[simp] theorem stopGrabber_cfg (s : State) (i : Nat) : (s.stopGrabber i).cfg = s.cfg := rfl
@[simp] theorem stopGrabber_allocated (s : State) (i : Nat) :
    (s.stopGrabber i).allocated = s.allocated := rfl
@[simp] theorem stopGrabber_geo (s : State) (i : Nat) : (s.stopGrabber i).geo = s.geo := rfl
@[simp] theorem stopGrabber_sfb (s : State) (i : Nat) : (s.stopGrabber i).sfb = s.sfb := rfl
@[simp] theorem stopGrabber_locks (s : State) (i : Nat) : (s.stopGrabber i).locks = s.locks := rfl
@[simp] theorem stopGrabber_dq (s : State) (i : Nat) : (s.stopGrabber i).dq = s.dq := rfl
@[simp] theorem stopGrabber_tick (s : State) (i : Nat) : (s.stopGrabber i).tick = s.tick := rfl
@[simp] theorem stopGrabber_cancel (s : State) (i : Nat) :
    (s.stopGrabber i).cancel = s.cancel := rfl
@[simp] theorem stopGrabber_grb (s : State) (i : Nat) :
    (s.stopGrabber i).grb = s.grb.modify i fun g => { g with gph := .idle, gstate := .stopped } := rfl
@[simp] theorem stopGrabber_kfu (s : State) (i : Nat) : (s.stopGrabber i).kfu = s.kfu := rfl
@[simp] theorem stopGrabber_faults (s : State) (i : Nat) :
    (s.stopGrabber i).faults = s.faults := rfl
@[simp] theorem stopGrabber_log (s : State) (i : Nat) : (s.stopGrabber i).log = s.log := rfl
@[simp] theorem stopGrabber_trk (s : State) (i : Nat) : (s.stopGrabber i).trk = s.trk := rfl
@[simp] theorem stopGrabber_tout (s : State) (i : Nat) : (s.stopGrabber i).tout = s.tout := rfl
@[simp] theorem stopGrabber_pend (s : State) (i : Nat) : (s.stopGrabber i).pend = s.pend := rfl
@[simp] theorem stopGrabber_resp (s : State) (i : Nat) : (s.stopGrabber i).resp = s.resp := rfl
@[simp] theorem stopGrabber_inp (s : State) (i : Nat) : (s.stopGrabber i).inp = s.inp := rfl
@[simp] theorem stopGrabber_script (s : State) (i : Nat) :
    (s.stopGrabber i).script = s.script := rfl
@[simp] theorem stopGrabber_clock (s : State) (i : Nat) : (s.stopGrabber i).clock = s.clock := rfl

/-! ## `stopGrabberAndDrop` -/

@[simp] theorem stopGrabberAndDrop_cfg (s : State) (i : Nat) :
    (s.stopGrabberAndDrop i).cfg = s.cfg := rfl
@[simp] theorem stopGrabberAndDrop_allocated (s : State) (i : Nat) :
    (s.stopGrabberAndDrop i).allocated = s.allocated := rfl
@[simp] theorem stopGrabberAndDrop_geo (s : State) (i : Nat) :
    (s.stopGrabberAndDrop i).geo = s.geo := rfl
@[simp] theorem stopGrabberAndDrop_sfb (s : State) (i : Nat) :
    (s.stopGrabberAndDrop i).sfb = s.sfb := rfl
@[simp] theorem stopGrabberAndDrop_locks (s : State) (i : Nat) :
    (s.stopGrabberAndDrop i).locks = s.locks := rfl
@[simp] theorem stopGrabberAndDrop_dq (s : State) (i : Nat) :
    (s.stopGrabberAndDrop i).dq = s.dq := rfl
@[simp] theorem stopGrabberAndDrop_tick (s : State) (i : Nat) :
    (s.stopGrabberAndDrop i).tick = s.tick := rfl
@[simp] theorem stopGrabberAndDrop_cancel (s : State) (i : Nat) :
    (s.stopGrabberAndDrop i).cancel = s.cancel := rfl
@[simp] theorem stopGrabberAndDrop_grb (s : State) (i : Nat) :
    (s.stopGrabberAndDrop i).grb = s.grb.modify i fun g => { g with gph := .idle, gstate := .stopped, frm := none } := rfl
@[simp] theorem stopGrabberAndDrop_kfu (s : State) (i : Nat) :
    (s.stopGrabberAndDrop i).kfu = s.kfu := rfl
@[simp] theorem stopGrabberAndDrop_faults (s : State) (i : Nat) :
    (s.stopGrabberAndDrop i).faults = s.faults := rfl
@[simp] theorem stopGrabberAndDrop_log (s : State) (i : Nat) :
    (s.stopGrabberAndDrop i).log = s.log := rfl
@[simp] theorem stopGrabberAndDrop_trk (s : State) (i : Nat) :
    (s.stopGrabberAndDrop i).trk = s.trk := rfl
@[simp] theorem stopGrabberAndDrop_tout (s : State) (i : Nat) :
    (s.stopGrabberAndDrop i).tout = s.tout := rfl
@[simp] theorem stopGrabberAndDrop_pend (s : State) (i : Nat) :
    (s.stopGrabberAndDrop i).pend = s.pend := rfl
@[simp] theorem stopGrabberAndDrop_resp (s : State) (i : Nat) :
    (s.stopGrabberAndDrop i).resp = s.resp := rfl
@[simp] theorem stopGrabberAndDrop_inp (s : State) (i : Nat) :
    (s.stopGrabberAndDrop i).inp = s.inp := rfl
@[simp] theorem stopGrabberAndDrop_script (s : State) (i : Nat) :
    (s.stopGrabberAndDrop i).script = s.script := rfl
@[simp] theorem stopGrabberAndDrop_clock (s : State) (i : Nat) :
    (s.stopGrabberAndDrop i).clock = s.clock := rfl

/-! ## `setFilter` -/

@[simp] theorem setFilter_cfg (s : State) (j : Nat) (k : Kfu) : (s.setFilter j k).cfg = s.cfg := rfl
@[simp] theorem setFilter_allocated (s : State) (j : Nat) (k : Kfu) :
    (s.setFilter j k).allocated = s.allocated := rfl
@[simp] theorem setFilter_geo (s : State) (j : Nat) (k : Kfu) : (s.setFilter j k).geo = s.geo := rfl
@[simp] theorem setFilter_sfb (s : State) (j : Nat) (k : Kfu) : (s.setFilter j k).sfb = s.sfb := rfl
@[simp] theorem setFilter_locks (s : State) (j : Nat) (k : Kfu) :
    (s.setFilter j k).locks = s.locks := rfl
@[simp] theorem setFilter_dq (s : State) (j : Nat) (k : Kfu) : (s.setFilter j k).dq = s.dq := rfl
@[simp] theorem setFilter_tick (s : State) (j : Nat) (k : Kfu) :
    (s.setFilter j k).tick = s.tick := rfl
@[simp] theorem setFilter_cancel (s : State) (j : Nat) (k : Kfu) :
    (s.setFilter j k).cancel = s.cancel := rfl
@[simp] theorem setFilter_grb (s : State) (j : Nat) (k : Kfu) : (s.setFilter j k).grb = s.grb := rfl
@[simp] theorem setFilter_kfu (s : State) (j : Nat) (k : Kfu) :
    (s.setFilter j k).kfu = s.kfu.set j k := rfl
@[simp] theorem setFilter_faults (s : State) (j : Nat) (k : Kfu) :
    (s.setFilter j k).faults = s.faults := rfl
@[simp] theorem setFilter_log (s : State) (j : Nat) (k : Kfu) : (s.setFilter j k).log = s.log := rfl
@[simp] theorem setFilter_trk (s : State) (j : Nat) (k : Kfu) : (s.setFilter j k).trk = s.trk := rfl
@[simp] theorem setFilter_tout (s : State) (j : Nat) (k : Kfu) :
    (s.setFilter j k).tout = s.tout := rfl
@[simp] theorem setFilter_pend (s : State) (j : Nat) (k : Kfu) :
    (s.setFilter j k).pend = s.pend := rfl
@[simp] theorem setFilter_resp (s : State) (j : Nat) (k : Kfu) :
    (s.setFilter j k).resp = s.resp := rfl
@[simp] theorem setFilter_inp (s : State) (j : Nat) (k : Kfu) : (s.setFilter j k).inp = s.inp := rfl
@[simp] theorem setFilter_script (s : State) (j : Nat) (k : Kfu) :
    (s.setFilter j k).script = s.script := rfl
@[simp] theorem setFilter_clock (s : State) (j : Nat) (k : Kfu) :
    (s.setFilter j k).clock = s.clock := rfl

/-! ## `modTracker` -/

@[simp] theorem modTracker_cfg (s : State) (j : Nat) (f : Tracker → Tracker) :
    (s.modTracker j f).cfg = s.cfg := rfl
@[simp] theorem modTracker_allocated (s : State) (j : Nat) (f : Tracker → Tracker) :
    (s.modTracker j f).allocated = s.allocated := rfl
@[simp] theorem modTracker_geo (s : State) (j : Nat) (f : Tracker → Tracker) :
    (s.modTracker j f).geo = s.geo := rfl
@[simp] theorem modTracker_sfb (s : State) (j : Nat) (f : Tracker → Tracker) :
    (s.modTracker j f).sfb = s.sfb := rfl
@[simp] theorem modTracker_locks (s : State) (j : Nat) (f : Tracker → Tracker) :
    (s.modTracker j f).locks = s.locks := rfl
@[simp] theorem modTracker_dq (s : State) (j : Nat) (f : Tracker → Tracker) :
    (s.modTracker j f).dq = s.dq := rfl
@[simp] theorem modTracker_tick (s : State) (j : Nat) (f : Tracker → Tracker) :
    (s.modTracker j f).tick = s.tick := rfl
@[simp] theorem modTracker_cancel (s : State) (j : Nat) (f : Tracker → Tracker) :
    (s.modTracker j f).cancel = s.cancel := rfl
@[simp] theorem modTracker_grb (s : State) (j : Nat) (f : Tracker → Tracker) :
    (s.modTracker j f).grb = s.grb := rfl
@[simp] theorem modTracker_kfu (s : State) (j : Nat) (f : Tracker → Tracker) :
    (s.modTracker j f).kfu = s.kfu := rfl
@[simp] theorem modTracker_faults (s : State) (j : Nat) (f : Tracker → Tracker) :
    (s.modTracker j f).faults = s.faults := rfl
@[simp] theorem modTracker_log (s : State) (j : Nat) (f : Tracker → Tracker) :
    (s.modTracker j f).log = s.log := rfl
@[simp] theorem modTracker_trk (s : State) (j : Nat) (f : Tracker → Tracker) :
    (s.modTracker j f).trk = s.trk.modify j f := rfl
@[simp] theorem modTracker_tout (s : State) (j : Nat) (f : Tracker → Tracker) :
    (s.modTracker j f).tout = s.tout := rfl
@[simp] theorem modTracker_pend (s : State) (j : Nat) (f : Tracker → Tracker) :
    (s.modTracker j f).pend = s.pend := rfl
@[simp] theorem modTracker_resp (s : State) (j : Nat) (f : Tracker → Tracker) :
    (s.modTracker j f).resp = s.resp := rfl
@[simp] theorem modTracker_inp (s : State) (j : Nat) (f : Tracker → Tracker) :
    (s.modTracker j f).inp = s.inp := rfl
@[simp] theorem modTracker_script (s : State) (j : Nat) (f : Tracker → Tracker) :
    (s.modTracker j f).script = s.script := rfl
@[simp] theorem modTracker_clock (s : State) (j : Nat) (f : Tracker → Tracker) :
    (s.modTracker j f).clock = s.clock := rfl

/-! ## `setLock` -/

@[simp] theorem setLock_cfg (s : State) (u : Nat) (h : Option Port) :
    (s.setLock u h).cfg = s.cfg := rfl
@[simp] theorem setLock_allocated (s : State) (u : Nat) (h : Option Port) :
    (s.setLock u h).allocated = s.allocated := rfl
@[simp] theorem setLock_geo (s : State) (u : Nat) (h : Option Port) :
    (s.setLock u h).geo = s.geo := rfl
@[simp] theorem setLock_sfb (s : State) (u : Nat) (h : Option Port) :
    (s.setLock u h).sfb = s.sfb := rfl
@[simp] theorem setLock_locks (s : State) (u : Nat) (h : Option Port) :
    (s.setLock u h).locks = s.locks.set (lockIndex s.cfg u) h := rfl
@[simp] theorem setLock_dq (s : State) (u : Nat) (h : Option Port) :
    (s.setLock u h).dq = s.dq := rfl
@[simp] theorem setLock_tick (s : State) (u : Nat) (h : Option Port) :
    (s.setLock u h).tick = s.tick := rfl
@[simp] theorem setLock_cancel (s : State) (u : Nat) (h : Option Port) :
    (s.setLock u h).cancel = s.cancel := rfl
@[simp] theorem setLock_grb (s : State) (u : Nat) (h : Option Port) :
    (s.setLock u h).grb = s.grb := rfl
@[simp] theorem setLock_kfu (s : State) (u : Nat) (h : Option Port) :
    (s.setLock u h).kfu = s.kfu := rfl
@[simp] theorem setLock_faults (s : State) (u : Nat) (h : Option Port) :
    (s.setLock u h).faults = s.faults := rfl
@[simp] theorem setLock_log (s : State) (u : Nat) (h : Option Port) :
    (s.setLock u h).log = s.log := rfl
@[simp] theorem setLock_trk (s : State) (u : Nat) (h : Option Port) :
    (s.setLock u h).trk = s.trk := rfl
@[simp] theorem setLock_tout (s : State) (u : Nat) (h : Option Port) :
    (s.setLock u h).tout = s.tout := rfl
@[simp] theorem setLock_pend (s : State) (u : Nat) (h : Option Port) :
    (s.setLock u h).pend = s.pend := rfl
@[simp] theorem setLock_resp (s : State) (u : Nat) (h : Option Port) :
    (s.setLock u h).resp = s.resp := rfl
@[simp] theorem setLock_inp (s : State) (u : Nat) (h : Option Port) :
    (s.setLock u h).inp = s.inp := rfl
@[simp] theorem setLock_script (s : State) (u : Nat) (h : Option Port) :
    (s.setLock u h).script = s.script := rfl
@[simp] theorem setLock_clock (s : State) (u : Nat) (h : Option Port) :
    (s.setLock u h).clock = s.clock := rfl

/-! ## `allocate` -/

@[simp] theorem allocate_cfg (s : State) (g : Geo) : (s.allocate g).cfg = s.cfg := rfl
@[simp] theorem allocate_allocated (s : State) (g : Geo) : (s.allocate g).allocated = true := rfl
@[simp] theorem allocate_geo (s : State) (g : Geo) : (s.allocate g).geo = g := rfl
@[simp] theorem allocate_sfb (s : State) (g : Geo) : (s.allocate g).sfb = [] := rfl
@[simp] theorem allocate_locks (s : State) (g : Geo) :
    (s.allocate g).locks = List.replicate (lockCount s.cfg) none := rfl
@[simp] theorem allocate_dq (s : State) (g : Geo) : (s.allocate g).dq = s.dq := rfl
@[simp] theorem allocate_tick (s : State) (g : Geo) : (s.allocate g).tick = s.tick := rfl
@[simp] theorem allocate_cancel (s : State) (g : Geo) : (s.allocate g).cancel = s.cancel := rfl
@[simp] theorem allocate_grb (s : State) (g : Geo) : (s.allocate g).grb = s.grb := rfl
@[simp] theorem allocate_kfu (s : State) (g : Geo) : (s.allocate g).kfu = s.kfu := rfl
@[simp] theorem allocate_faults (s : State) (g : Geo) : (s.allocate g).faults = s.faults := rfl
@[simp] theorem allocate_log (s : State) (g : Geo) : (s.allocate g).log = s.log := rfl
@[simp] theorem allocate_trk (s : State) (g : Geo) : (s.allocate g).trk = s.trk := rfl
@[simp] theorem allocate_tout (s : State) (g : Geo) : (s.allocate g).tout = s.tout := rfl
@[simp] theorem allocate_pend (s : State) (g : Geo) : (s.allocate g).pend = s.pend := rfl
@[simp] theorem allocate_resp (s : State) (g : Geo) : (s.allocate g).resp = s.resp := rfl
@[simp] theorem allocate_inp (s : State) (g : Geo) : (s.allocate g).inp = s.inp := rfl
@[simp] theorem allocate_script (s : State) (g : Geo) : (s.allocate g).script = s.script := rfl
@[simp] theorem allocate_clock (s : State) (g : Geo) : (s.allocate g).clock = s.clock := rfl

/-! ## `beginWrite` -/

@[simp] theorem beginWrite_cfg (s : State) (u : Nat) (pl : Payload) :
    (s.beginWrite u pl).cfg = s.cfg := rfl
@[simp] theorem beginWrite_allocated (s : State) (u : Nat) (pl : Payload) :
    (s.beginWrite u pl).allocated = s.allocated := rfl
@[simp] theorem beginWrite_geo (s : State) (u : Nat) (pl : Payload) :
    (s.beginWrite u pl).geo = s.geo := rfl
@[simp] theorem beginWrite_sfb (s : State) (u : Nat) (pl : Payload) :
    (s.beginWrite u pl).sfb = s.sfb := rfl
@[simp] theorem beginWrite_locks (s : State) (u : Nat) (pl : Payload) :
    (s.beginWrite u pl).locks = s.locks := rfl
@[simp] theorem beginWrite_dq (s : State) (u : Nat) (pl : Payload) :
    (s.beginWrite u pl).dq = s.dq := rfl
@[simp] theorem beginWrite_tick (s : State) (u : Nat) (pl : Payload) :
    (s.beginWrite u pl).tick = s.tick := rfl
@[simp] theorem beginWrite_cancel (s : State) (u : Nat) (pl : Payload) :
    (s.beginWrite u pl).cancel = s.cancel := rfl
@[simp] theorem beginWrite_grb (s : State) (u : Nat) (pl : Payload) :
    (s.beginWrite u pl).grb = s.grb.modify u fun g => { g with wip := some ⟨pl.image, pl.tick, pl.index, 1, []⟩ } := rfl
@[simp] theorem beginWrite_kfu (s : State) (u : Nat) (pl : Payload) :
    (s.beginWrite u pl).kfu = s.kfu := rfl
@[simp] theorem beginWrite_faults (s : State) (u : Nat) (pl : Payload) :
    (s.beginWrite u pl).faults = s.faults := rfl
@[simp] theorem beginWrite_log (s : State) (u : Nat) (pl : Payload) :
    (s.beginWrite u pl).log = s.log := rfl
@[simp] theorem beginWrite_trk (s : State) (u : Nat) (pl : Payload) :
    (s.beginWrite u pl).trk = s.trk := rfl
@[simp] theorem beginWrite_tout (s : State) (u : Nat) (pl : Payload) :
    (s.beginWrite u pl).tout = s.tout := rfl
@[simp] theorem beginWrite_pend (s : State) (u : Nat) (pl : Payload) :
    (s.beginWrite u pl).pend = s.pend := rfl
@[simp] theorem beginWrite_resp (s : State) (u : Nat) (pl : Payload) :
    (s.beginWrite u pl).resp = s.resp := rfl
@[simp] theorem beginWrite_inp (s : State) (u : Nat) (pl : Payload) :
    (s.beginWrite u pl).inp = s.inp := rfl
@[simp] theorem beginWrite_script (s : State) (u : Nat) (pl : Payload) :
    (s.beginWrite u pl).script = s.script := rfl
@[simp] theorem beginWrite_clock (s : State) (u : Nat) (pl : Payload) :
    (s.beginWrite u pl).clock = s.clock := rfl

end Sys2Proof.Machine
end

