-- ==== Sys2Proof/Laws/Ops.lean ====
section
/-! SUPPORT. What each shared operation can do, said once: the checks, the ports' outstanding
operations, the register files, the lock, the choice of a byte access. -/

namespace Sys2Proof.Machine

/-! ## Checks -/

@[simp] theorem firstFailing_nil : firstFailing [] = none := rfl

theorem firstFailing_cons (c : Check) (cs : List Check) :
    firstFailing (c :: cs) = if c.fails then some c else firstFailing cs := rfl

/-- No check fails. -/
theorem firstFailing_eq_none {cs : List Check} :
    firstFailing cs = none ↔ ∀ c ∈ cs, c.fails = false := by
  induction cs with
  | nil => simp
  | cons c cs ih => cases h : c.fails <;> simp [firstFailing, h, ih]

/-- The fault reported is that of a failing check. -/
theorem firstFailing_mem {cs : List Check} {c : Check} (h : firstFailing cs = some c) :
    c ∈ cs ∧ c.fails = true := by
  induction cs with
  | nil => simp at h
  | cons d cs ih =>
    cases hd : d.fails
    · simp only [firstFailing, hd] at h
      exact ⟨List.mem_cons_of_mem _ (ih h).1, (ih h).2⟩
    · simp only [firstFailing, hd, if_true, Option.some.injEq] at h
      subst h
      exact ⟨List.mem_cons_self, hd⟩

/-- A guarded operation either raises the fault of a failing check, or every check passes and it is
its body (40_buffer_codec.md R132). -/
theorem guarded_cases (s : State) (cs : List Check) (body : Out) :
    (∃ c ∈ cs, c.fails = true ∧ s.guarded cs body = .next (s.raise c.cause c.info)) ∨
      ((∀ c ∈ cs, c.fails = false) ∧ s.guarded cs body = body) := by
  unfold State.guarded
  cases h : firstFailing cs with
  | none => exact .inr ⟨firstFailing_eq_none.mp h, rfl⟩
  | some c => exact .inl ⟨c, (firstFailing_mem h).1, (firstFailing_mem h).2, rfl⟩

/-- A guarded operation whose checks all pass is its body. -/
theorem guarded_of_pass {s : State} {cs : List Check} {body : Out}
    (h : ∀ c ∈ cs, c.fails = false) : s.guarded cs body = body := by
  unfold State.guarded
  rw [firstFailing_eq_none.mpr h]

/-! ## Outstanding operations -/

theorem lookup_dropPending (p q : Port) (l : List (Port × Pending)) :
    (dropPending p l).lookup q = if q = p then none else l.lookup q := by
  induction l with
  | nil => simp [dropPending]
  | cons e l ih =>
    obtain ⟨r, o⟩ := e
    simp only [dropPending, ne_eq, decide_not] at ih ⊢
    by_cases hr : r = p
    · subst hr
      by_cases hq : q = r
      · subst hq; simpa using ih
      · have : (q == r) = false := by simp [hq]
        simp [List.lookup, this, ih, hq]
    · by_cases hq : q = r
      · subst hq; simp [hr, List.lookup]
      · have : (q == r) = false := by simp [hq]
        simp [hr, List.lookup, this, ih]

theorem mem_dropPending {p : Port} {e : Port × Pending} {l : List (Port × Pending)} :
    e ∈ dropPending p l ↔ e ∈ l ∧ e.1 ≠ p := by
  simp [dropPending]

/-- After a response the issuing port has nothing outstanding and the other ports are as before
(30_encoding.md R106). -/
theorem outstandingOf_answer (s : State) (r : Response) (q : Port) :
    (s.answer r).outstandingOf q = if q = s.inp.port then none else s.outstandingOf q :=
  lookup_dropPending _ _ _

theorem outstandingOf_respond (s : State) (r : Result) (q : Port) :
    (s.respond r).outstandingOf q = if q = s.inp.port then none else s.outstandingOf q :=
  lookup_dropPending _ _ _

theorem outstandingOf_raise (s : State) (c : Cause) (i : Info) (q : Port) :
    (s.raise c i).outstandingOf q = if q = s.inp.port then none else s.outstandingOf q :=
  lookup_dropPending _ _ _

/-- An operation kept open is the issuing port's outstanding one; the other ports are as before
(30_encoding.md R106). -/
theorem outstandingOf_keepOpen (s : State) (i : Instr) (pl : Payload) (g : List (Nat × Byte))
    (q : Port) :
    (s.keepOpen i pl g).outstandingOf q =
      if q = s.inp.port then some ⟨i, pl, g⟩ else s.outstandingOf q := by
  unfold State.outstandingOf
  rw [keepOpen_pend]
  by_cases hq : q = s.inp.port
  · subst hq; simp [List.lookup]
  · have : (q == s.inp.port) = false := by simp [hq]
    simp [List.lookup, this, lookup_dropPending, hq]

/-! ## Register files -/

theorem getD_modify {α : Type} (l : List α) (i k : Nat) (f : α → α) (d : α) :
    (l.modify i f).getD k d = if k = i ∧ i < l.length then f (l.getD k d) else l.getD k d := by
  simp only [List.getD_eq_getElem?_getD, List.getElem?_modify]
  by_cases hk : i = k
  · subst hk
    by_cases hi : i < l.length
    · simp [hi]
    · simp [hi]
  · have : ¬ k = i := fun h => hk h.symm
    simp [hk, this]

theorem getD_set {α : Type} (l : List α) (i k : Nat) (v d : α) :
    (l.set i v).getD k d = if k = i ∧ i < l.length then v else l.getD k d := by
  simp only [List.getD_eq_getElem?_getD, List.getElem?_set]
  by_cases hk : i = k
  · subst hk
    by_cases hi : i < l.length
    · simp [hi]
    · simp [hi]
  · have : ¬ k = i := fun h => hk h.symm
    simp [hk, this]

/-- Changing the registers of Grabber `i` changes those and no others. -/
theorem grab_modGrab (s : State) (i k : Nat) (f : Grabber → Grabber) :
    (s.modGrab i f).grab k = if k = i ∧ i < s.grb.length then f (s.grab k) else s.grab k :=
  getD_modify _ _ _ _ _

/-- Changing the state of Tracker `j` changes that and no other. -/
theorem tracker_modTracker (s : State) (j k : Nat) (f : Tracker → Tracker) :
    (s.modTracker j f).tracker k =
      if k = j ∧ j < s.trk.length then f (s.tracker k) else s.tracker k :=
  getD_modify _ _ _ _ _

/-- Writing filter `j` writes that and no other. -/
theorem filter_setFilter (s : State) (j k : Nat) (v : Kfu) :
    (s.setFilter j v).filter k = if k = j ∧ j < s.kfu.length then v else s.filter k :=
  getD_set _ _ _ _ _

/-- Writing the lock of slot `u` writes that register and no other. -/
theorem lockOf_setLock (s : State) (u k : Nat) (h : Option Port) :
    (s.setLock u h).lockOf k =
      if lockIndex s.cfg k = lockIndex s.cfg u ∧ lockIndex s.cfg u < s.locks.length then h
      else s.lockOf k :=
  getD_set _ _ _ _ _

/-! ## The lock -/

/-- How an acquire ends, by the lock register (20_memory.md R72). -/
theorem acquire_cases (s : State) (u : Nat) :
    (s.lockOf u = none ∧ s.acquire u = .taken (s.setLock u (some s.inp.port))) ∨
      (s.lockOf u = some s.inp.port ∧ s.acquire u = .misuse) ∨
      (∃ q, q ≠ s.inp.port ∧ s.lockOf u = some q ∧ s.acquire u = .waits) := by
  unfold State.acquire
  cases h : s.lockOf u with
  | none => simp
  | some q =>
    by_cases hq : q = s.inp.port
    · simp [hq]
    · exact .inr (.inr ⟨q, hq, rfl, by simp [hq]⟩)

/-- How a release ends (20_memory.md R73). -/
theorem release_cases (s : State) (u : Nat) :
    (s.lockOf u = some s.inp.port ∧ s.release u = some (s.setLock u none)) ∨
      (s.lockOf u ≠ some s.inp.port ∧ s.release u = none) := by
  unfold State.release
  by_cases h : s.lockOf u = some s.inp.port <;> simp [h]

/-! ## Choices and the tick -/

/-- A choice among candidates is one of them. -/
theorem pick_mem {α : Type} {l : List α} {n : Nat} {x : α} (h : pick l n = some x) : x ∈ l :=
  List.mem_of_getElem? h

/-- There is a choice exactly when there is a candidate. -/
theorem pick_eq_none {α : Type} {l : List α} {n : Nat} : pick l n = none ↔ l = [] := by
  cases l with
  | nil => simp [pick]
  | cons x l =>
    have : n % (x :: l).length < (x :: l).length := Nat.mod_lt _ (by simp)
    simp only [pick, List.getElem?_eq_none_iff]
    simp only [reduceCtorEq, iff_false, not_le]
    exact this

/-- A read of the tick counter never returns less than the read before (10_state.md R26). -/
theorem tickRead_ge (prev drawn : U64) : prev.toNat ≤ (tickRead prev drawn).toNat := by
  unfold tickRead
  split_ifs with h <;> omega

/-- A drawn tick that is not less than the read before is the one returned. -/
theorem tickRead_of_le {prev drawn : U64} (h : prev.toNat ≤ drawn.toNat) :
    tickRead prev drawn = drawn := if_pos h

end Sys2Proof.Machine
end

