-- ==== Sys2Proof/Laws/Exec.lean ====
section
/-! SUPPORT. What each meaning can do when it goes on to a next state: one lemma per operation that
names every such state, and for the two operations that move bytes the rule by which a property is
carried through their byte accesses. Proofs about `exec` cite these and unfold nothing. -/

namespace Sys2Proof.Machine

/-! ## The checks -/

/-- A guarded operation that goes on has raised the fault of a failing check, or every check has passed
and it is its body. -/
theorem guarded_next {s t : State} {cs : List Check} {body : Out} (h : s.guarded cs body = .next t) :
    (∃ c info, t = s.raise c info) ∨ ((∀ c ∈ cs, c.fails = false) ∧ body = .next t) := by
  rcases guarded_cases s cs body with ⟨c, -, -, hc⟩ | ⟨hp, hb⟩
  · rw [hc] at h
    exact .inl ⟨c.cause, c.info, (Host.Outcome.next.inj h).symm⟩
  · exact .inr ⟨hp, hb ▸ h⟩

/-- The checks of an operation on a slot, said in words. -/
theorem slotChecks_pass {s : State} {i : Instr} {u : UnitNo} :
    (∀ c ∈ s.slotChecks i u, c.fails = false) ↔
      permitted i s.inp.port = true ∧ s.allocated = true ∧ u.toNat < s.cfg.geo.n := by
  simp [State.slotChecks, State.checkPort, State.checkAllocated, checkUnit]

/-- The checks of a Grabber's operation, said in words. -/
theorem grabberChecks_pass {s : State} {i : Instr} {u : UnitNo} {p : Phase} :
    (∀ c ∈ s.grabberChecks i u p, c.fails = false) ↔
      permitted i s.inp.port = true ∧ u.toNat < s.cfg.geo.n ∧ ownsUnit u s.inp.port = true ∧
        (s.grab u.toNat).gph = p := by
  simp [State.grabberChecks, State.checkPort, checkUnit, State.checkOwner, State.checkPhase]

/-- The checks of a filter's operation, said in words. -/
theorem filterChecks_pass {s : State} {i : Instr} {u : UnitNo} :
    (∀ c ∈ s.filterChecks i u, c.fails = false) ↔
      permitted i s.inp.port = true ∧ u.toNat < s.cfg.t ∧ ownsUnit u s.inp.port = true := by
  simp [State.filterChecks, State.checkPort, checkUnit, State.checkOwner]

/-- The checks of a WRSLOT up to the unit's state, said in words. -/
theorem writeChecks_pass {s : State} {u : UnitNo} :
    (∀ c ∈ s.writeChecks u, c.fails = false) ↔
      isGrb s.inp.port = true ∧ s.allocated = true ∧ u.toNat < s.cfg.geo.n ∧
        ownsUnit u s.inp.port = true ∧
        ((s.grab u.toNat).gph = .idle ∨ (s.grab u.toNat).gph = .wr) := by
  simp only [State.writeChecks, State.checkPort, permitted, State.checkAllocated, checkUnit,
    State.checkOwner, List.mem_cons, List.not_mem_nil, or_false, forall_eq_or_imp, forall_eq,
    Bool.not_eq_false', decide_eq_false_iff_not, not_le, Bool.and_eq_false_iff, ne_eq, not_not]

/-- A Grabber port that owns the unit is the unit's own. -/
theorem port_of_grb_owner {p : Port} {u : UnitNo} (hg : isGrb p = true)
    (ho : ownsUnit u p = true) : p = .grb u.toNat := by
  cases p <;> simp_all [isGrb, ownsUnit]

/-- A Tracker port that owns the unit is the unit's own. -/
theorem port_of_trk_owner {p : Port} {u : UnitNo} (hg : isTrk p = true)
    (ho : ownsUnit u p = true) : p = .trk u.toNat := by
  cases p <;> simp_all [isTrk, ownsUnit]

/-- The ports of the operations for inspection. -/
theorem port_of_mgr_or_trk {p : Port} (h : (isMgr p || isTrk p) = true) :
    p = .mgr ∨ ∃ j, p = .trk j := by
  cases p <;> simp_all [isMgr, isTrk]

/-! ## ALLOC, LOCK, UNLOCK, RDSLOT, ENCMD -/

theorem execAlloc_next {u : UnitNo} {s t : State} (h : execAlloc u s = .next t) :
    (∃ c info, t = s.raise c info) ∨
      (s.inp.port = .mgr ∧ s.allocated = false ∧ u = 0 ∧ s.cfg.geo.legal = true ∧
        t = (s.allocate s.cfg.geo).respond .none) := by
  rcases guarded_next h with h | ⟨hp, hb⟩
  · exact .inl h
  · simp [State.checkPort, permitted, checkNoUnit, badConfig] at hp
    obtain ⟨h1, h2, h3, h4, h5⟩ := hp
    refine .inr ⟨?_, h2, h3, h5 ▸ h4, ?_⟩
    · cases hq : s.inp.port <;> simp_all [isMgr]
    · rw [← h5]; exact (Host.Outcome.next.inj hb).symm

theorem execLock_next {u : UnitNo} {s t : State} (h : execLock u s = .next t) :
    (∃ c info, t = s.raise c info) ∨
      ((s.inp.port = .mgr ∨ ∃ j, s.inp.port = .trk j) ∧ s.allocated = true ∧
        u.toNat < s.cfg.geo.n ∧
        (s.lockOf u.toNat = none ∧ t = (s.setLock u.toNat (some s.inp.port)).respond .none ∨
          t = s.wait (.lock u))) := by
  rcases guarded_next h with h | ⟨hp, hb⟩
  · exact .inl h
  · obtain ⟨h1, h2, h3⟩ := slotChecks_pass.mp hp
    rcases acquire_cases s u.toNat with ⟨ha, hc⟩ | ⟨ha, hc⟩ | ⟨q, hq, ha, hc⟩ <;> rw [hc] at hb <;>
      have hb := (Host.Outcome.next.inj hb).symm
    · exact .inr ⟨port_of_mgr_or_trk h1, h2, h3, .inl ⟨ha, hb⟩⟩
    · exact .inl ⟨_, _, hb⟩
    · exact .inr ⟨port_of_mgr_or_trk h1, h2, h3, .inr hb⟩

theorem execUnlock_next {u : UnitNo} {s t : State} (h : execUnlock u s = .next t) :
    (∃ c info, t = s.raise c info) ∨
      ((s.inp.port = .mgr ∨ ∃ j, s.inp.port = .trk j) ∧ s.allocated = true ∧
        u.toNat < s.cfg.geo.n ∧ s.lockOf u.toNat = some s.inp.port ∧
        t = (s.setLock u.toNat none).respond .none) := by
  rcases guarded_next h with h | ⟨hp, hb⟩
  · exact .inl h
  · obtain ⟨h1, h2, h3⟩ := slotChecks_pass.mp hp
    rcases release_cases s u.toNat with ⟨ha, hc⟩ | ⟨ha, hc⟩ <;> rw [hc] at hb <;>
      have hb := (Host.Outcome.next.inj hb).symm
    · exact .inr ⟨port_of_mgr_or_trk h1, h2, h3, ha, hb⟩
    · exact .inl ⟨_, _, hb⟩

theorem execRdslot_next {u : UnitNo} {s t : State} (h : execRdslot u s = .next t) :
    (∃ c info, t = s.raise c info) ∨
      ((s.inp.port = .mgr ∨ ∃ j, s.inp.port = .trk j) ∧ s.allocated = true ∧
        u.toNat < s.cfg.geo.n ∧ t = s.respond (.view (slotView s.geo u.toNat))) := by
  rcases guarded_next h with h | ⟨hp, hb⟩
  · exact .inl h
  · obtain ⟨h1, h2, h3⟩ := slotChecks_pass.mp hp
    exact .inr ⟨port_of_mgr_or_trk h1, h2, h3, (Host.Outcome.next.inj hb).symm⟩

theorem execEncmd_next {u : UnitNo} {s t : State} (h : execEncmd u s = .next t) :
    (∃ c info, t = s.raise c info) ∨
      t = s.respond (.bytes (enc9 s.inp.payload.value)) := by
  rcases guarded_next h with h | ⟨-, hb⟩
  · exact .inl h
  · exact .inr (Host.Outcome.next.inj hb).symm

/-! ## DECMD -/

/-- A run of byte reads ends in an open operation or in the pair of values; a byte outside `SFB` is a
stop. -/
theorem readBytes_next {u : UnitNo} {ns : List Nat} {got : List (Nat × Byte)} {s t : State}
    (h : readBytes u ns got s = .next t) :
    (∃ g, t = s.keepOpen (.decmd u) s.inp.payload g) ∨ ∃ g, t = s.respond (decodedPair g) := by
  induction ns generalizing got with
  | nil => exact .inl ⟨got, (Host.Outcome.next.inj h).symm⟩
  | cons n ns ih =>
    simp only [readBytes] at h
    split at h
    · exact .inr ⟨got, (Host.Outcome.next.inj h).symm⟩
    · split at h
      · cases h
      · exact ih h

theorem execDecmd_next {u : UnitNo} {s t : State} (h : execDecmd u s = .next t) :
    (∃ c info, t = s.raise c info) ∨
      ((s.inp.port = .mgr ∨ ∃ j, s.inp.port = .trk j) ∧ s.allocated = true ∧
        u.toNat < s.cfg.geo.n ∧
        ((∃ g, t = s.keepOpen (.decmd u) s.inp.payload g) ∨
          ∃ g, t = s.respond (decodedPair g))) := by
  rcases guarded_next h with h | ⟨hp, hb⟩
  · exact .inl h
  · obtain ⟨h1, h2, h3⟩ := slotChecks_pass.mp hp
    exact .inr ⟨port_of_mgr_or_trk h1, h2, h3, readBytes_next hb⟩

/-! ## WRSLOT -/

/-- The state after one byte write of a WRSLOT in flight (40_buffer_codec.md R124, R125). -/
def State.afterWrite (s : State) (u : Nat) (w : Wip) (it : WrItem) : State :=
  { s with sfb := Memory.write s.sfb (slotBase s.geo u + it.off) it.byte }.setWip u
    (some { w with phase := it.phase, done := (it.phase, it.off) :: w.done })

/-- A property kept by every byte write holds where a run of byte writes ends: at an operation left
open, or at a write with nothing left, which then finishes. -/
theorem writeBytes_next {Inv : State → Prop} {u : UnitNo} {pl : Payload} {ns : List Nat}
    {s t : State}
    (hstep : ∀ r w it, Inv r → (r.grab u.toNat).wip = some w → it ∈ nextWrites r w →
      r.inSfb (slotBase r.geo u.toNat + it.off) = true → Inv (r.afterWrite u.toNat w it))
    (hs : Inv s) (h : writeBytes u pl ns s = .next t) :
    ∃ r, Inv r ∧ (t = r.keepOpen (.wrslot u) pl [] ∨
      ∃ w, (r.grab u.toNat).wip = some w ∧ nextWrites r w = [] ∧ t = r.finishWrite u.toNat) := by
  induction ns generalizing s with
  | nil => exact ⟨s, hs, .inl (Host.Outcome.next.inj h).symm⟩
  | cons n ns ih =>
    simp only [writeBytes] at h
    split at h
    · cases h
    · rename_i w hw
      split at h
      · rename_i hn
        exact ⟨s, hs, .inr ⟨w, hw, pick_eq_none.mp hn, (Host.Outcome.next.inj h).symm⟩⟩
      · rename_i it hit
        split at h
        · cases h
        · rename_i r hr
          obtain ⟨hin, rfl⟩ := memWrite_eq_some.mp hr
          exact ih (hstep s w it hs hw (pick_mem hit) hin) h

/-- A WRSLOT that is issued raises a fault of a check, stops its Grabber with one, waits for the lock,
or takes the lock and writes bytes. -/
theorem startWrite_next {u : UnitNo} {s t : State} (h : s.startWrite u = .next t) :
    (∃ c info, t = s.raise c info) ∨
      (s.inp.port = .grb u.toNat ∧ (s.grab u.toNat).gph = .wr ∧ ∃ c info,
        (c = .notAllocated ∨ c = .shapeMismatch) ∧
          t = (s.stopGrabberAndDrop u.toNat).raise c info) ∨
      (s.inp.port = .grb u.toNat ∧ s.allocated = true ∧ u.toNat < s.cfg.geo.n ∧
        ∃ pl, s.writeOperands u.toNat = some pl ∧ imgHasShape pl.image s.geo = true ∧
          s.acquireAndWrite u pl = .next t) := by
  have raised : ∀ c info, t = s.raiseWrite u c info →
      (∃ c info, t = s.raise c info) ∨
      (s.inp.port = .grb u.toNat ∧ (s.grab u.toNat).gph = .wr ∧ ∃ c info,
        (c = .notAllocated ∨ c = .shapeMismatch) ∧
          t = (s.stopGrabberAndDrop u.toNat).raise c info) := by
    intro c info e
    unfold State.raiseWrite at e
    split at e
    · rename_i hc
      simp only [State.isLoopForm, Bool.and_eq_true, decide_eq_true_eq, Bool.or_eq_true,
        beq_iff_eq] at hc
      exact .inr ⟨hc.1.1, hc.1.2, c, info, hc.2, e⟩
    · exact .inl ⟨c, info, e⟩
  unfold State.startWrite at h
  split at h
  · rename_i c hc
    rcases raised _ _ (Host.Outcome.next.inj h).symm with h | h
    · exact .inl h
    · exact .inr (.inl h)
  · rename_i hc
    obtain ⟨h1, h2, h3, h4, -⟩ := writeChecks_pass.mp (firstFailing_eq_none.mp hc)
    split at h
    · cases h
    · rename_i pl hpl
      split at h
      · rename_i hs
        exact .inr (.inr ⟨port_of_grb_owner h1 h4, h2, h3, pl, hpl, hs, h⟩)
      · rcases raised _ _ (Host.Outcome.next.inj h).symm with h | h
        · exact .inl h
        · exact .inr (.inl h)

/-- From the acquire on: the lock is taken and bytes are written, the operation waits, or the port holds
the lock already. -/
theorem acquireAndWrite_next {u : UnitNo} {pl : Payload} {s t : State}
    (h : s.acquireAndWrite u pl = .next t) :
    (s.lockOf u.toNat = none ∧
        writeBytes u pl s.inp.draws.picks
          ((s.setLock u.toNat (some s.inp.port)).beginWrite u.toNat pl) = .next t) ∨
      ((∃ q, q ≠ s.inp.port ∧ s.lockOf u.toNat = some q) ∧
        t = s.keepOpen (.wrslot u) pl []) ∨
      (s.lockOf u.toNat = some s.inp.port ∧ t = s.raiseLockMisuse) := by
  unfold State.acquireAndWrite at h
  rcases acquire_cases s u.toNat with ⟨ha, hc⟩ | ⟨ha, hc⟩ | ⟨q, hq, ha, hc⟩ <;> rw [hc] at h
  · exact .inl ⟨ha, h⟩
  · exact .inr (.inr ⟨ha, (Host.Outcome.next.inj h).symm⟩)
  · exact .inr (.inl ⟨⟨q, hq, ha⟩, (Host.Outcome.next.inj h).symm⟩)

/-- The end of a write: the lock is released and the response given, or the port does not hold it. -/
theorem finishWrite_cases (s : State) (u : Nat) :
    (s.lockOf u = some s.inp.port ∧
        s.finishWrite u =
          (if (s.grab u).gph = .wr then ((s.setWip u none).setLock u none).setPhase u .stat
            else (s.setWip u none).setLock u none).respond .none) ∨
      (s.lockOf u ≠ some s.inp.port ∧ s.finishWrite u = (s.setWip u none).raiseLockMisuse) := by
  have hl : (s.setWip u none).lockOf u = s.lockOf u := rfl
  have hg : (((s.setWip u none).setLock u none).grab u).gph = (s.grab u).gph := by
    show ((s.setWip u none).grab u).gph = _
    rw [show (s.setWip u none).grab u = _ from grab_modGrab _ _ _ _]
    split <;> rfl
  unfold State.finishWrite
  rcases release_cases (s.setWip u none) u with ⟨ha, hc⟩ | ⟨ha, hc⟩ <;> rw [hc]
  · exact .inl ⟨hl ▸ ha, by simp only [hg]⟩
  · exact .inr ⟨hl ▸ ha, rfl⟩

/-! ## The Grabber, the queue, the cancellation -/

theorem execGstart_next {u : UnitNo} {s t : State} (h : execGstart u s = .next t) :
    (∃ c info, t = s.raise c info) ∨
      (s.inp.port = .mgr ∧ u.toNat < s.cfg.geo.n ∧ (s.grab u.toNat).gstate = .created ∧
        t = (s.modGrab u.toNat fun g =>
          { g with gstate := .running, gph := .opn, seq := 0, fpscnt := 0 }).respond .none) := by
  rcases guarded_next h with h | ⟨hp, hb⟩
  · exact .inl h
  · simp [State.checkPort, permitted, checkUnit] at hp
    refine .inr ⟨?_, hp.2.1, hp.2.2, (Host.Outcome.next.inj hb).symm⟩
    cases hq : s.inp.port <;> simp_all [isMgr]

/-- A Grabber's operation has raised a fault of a check, or its checks have passed, so that the port is
the Grabber's own and the phase is the operation's, and it is its body. -/
theorem grabberOp_next {u : UnitNo} {s t : State} {i : Instr} {p : Phase} {body : Out}
    (hi : ∀ q, permitted i q = isGrb q) (h : s.guarded (s.grabberChecks i u p) body = .next t) :
    (∃ c info, t = s.raise c info) ∨
      (s.inp.port = .grb u.toNat ∧ u.toNat < s.cfg.geo.n ∧ (s.grab u.toNat).gph = p ∧
        body = .next t) := by
  rcases guarded_next h with h | ⟨hp, hb⟩
  · exact .inl h
  · obtain ⟨h1, h2, h3, h4⟩ := grabberChecks_pass.mp hp
    exact .inr ⟨port_of_grb_owner (hi _ ▸ h1) h3, h2, h4, hb⟩

theorem execGopen_next {u : UnitNo} {s t : State} (h : execGopen u s = .next t) :
    (∃ c info, t = s.raise c info) ∨
      (s.inp.port = .grb u.toNat ∧ u.toNat < s.cfg.geo.n ∧ (s.grab u.toNat).gph = .opn ∧
        (t = (s.setPhase u.toNat .chk).respond .none ∨
          t = (s.stopGrabber u.toNat).raise .captureOpenFailure (.number u.toNat))) := by
  rcases grabberOp_next (fun _ => rfl) h with h | ⟨h1, h2, h3, hb⟩
  · exact .inl h
  · refine .inr ⟨h1, h2, h3, ?_⟩
    split at hb
    · exact .inl (Host.Outcome.next.inj hb).symm
    · exact .inr (Host.Outcome.next.inj hb).symm

theorem execGchk_next {u : UnitNo} {s t : State} (h : execGchk u s = .next t) :
    (∃ c info, t = s.raise c info) ∨
      (s.inp.port = .grb u.toNat ∧ u.toNat < s.cfg.geo.n ∧ (s.grab u.toNat).gph = .chk ∧
        (t = (s.stopGrabber u.toNat).respond .none ∨
          t = (s.setPhase u.toNat .read).respond .none)) := by
  rcases grabberOp_next (fun _ => rfl) h with h | ⟨h1, h2, h3, hb⟩
  · exact .inl h
  · refine .inr ⟨h1, h2, h3, ?_⟩
    split at hb
    · exact .inl (Host.Outcome.next.inj hb).symm
    · exact .inr (Host.Outcome.next.inj hb).symm

theorem execGread_next {u : UnitNo} {s t : State} (h : execGread u s = .next t) :
    (∃ c info, t = s.raise c info) ∨
      (s.inp.port = .grb u.toNat ∧ u.toNat < s.cfg.geo.n ∧ (s.grab u.toNat).gph = .read ∧
        (t = s.wait (.gread u) ∨ t = (s.setPhase u.toNat .pace).respond .none ∨
          ∃ img, t = (s.modGrab u.toNat fun g =>
            { g with img := some img, gph := .wrap }).respond .none)) := by
  rcases grabberOp_next (fun _ => rfl) h with h | ⟨h1, h2, h3, hb⟩
  · exact .inl h
  · refine .inr ⟨h1, h2, h3, ?_⟩
    split at hb
    · exact .inl (Host.Outcome.next.inj hb).symm
    · exact .inr (.inl (Host.Outcome.next.inj hb).symm)
    · exact .inr (.inr ⟨_, (Host.Outcome.next.inj hb).symm⟩)

theorem execGwrap_next {u : UnitNo} {s t : State} (h : execGwrap u s = .next t) :
    (∃ c info, t = s.raise c info) ∨
      (s.inp.port = .grb u.toNat ∧ u.toNat < s.cfg.geo.n ∧ (s.grab u.toNat).gph = .wrap ∧
        ∃ (x : U64) (f : Frame), s.tick.toNat ≤ x.toNat ∧
          t = (State.modGrab { s with tick := x } u.toNat fun g =>
            { g with frm := some f, seq := g.seq + 1, img := none, gph := .enq }).respond .none) := by
  rcases grabberOp_next (fun _ => rfl) h with h | ⟨h1, h2, h3, hb⟩
  · exact .inl h
  · refine .inr ⟨h1, h2, h3, ?_⟩
    split at hb
    · cases hb
    · exact ⟨_, _, tickRead_ge _ _, (Host.Outcome.next.inj hb).symm⟩

theorem execEnq_next {u : UnitNo} {s t : State} (h : execEnq u s = .next t) :
    (∃ c info, t = s.raise c info) ∨
      (s.inp.port = .grb u.toNat ∧ u.toNat < s.cfg.geo.n ∧ (s.grab u.toNat).gph = .enq ∧
        ∃ f, (s.grab u.toNat).frm = some f ∧
        (s.dq.length < s.cfg.qcap ∧
            t = (State.setPhase { s with dq := s.dq ++ [f] } u.toNat .wr).respond .delivered ∨
          s.dq.length = s.cfg.qcap ∧
            t = ((s.logEvent (.dropFull u.toNat f.index)).setPhase u.toNat .wr).respond .dropped ∨
          t = s.wait (.enq u))) := by
  rcases grabberOp_next (fun _ => rfl) h with h | ⟨h1, h2, h3, hb⟩
  · exact .inl h
  · refine .inr ⟨h1, h2, h3, ?_⟩
    split at hb
    · cases hb
    · rename_i f hf
      refine ⟨f, hf, ?_⟩
      split_ifs at hb with hr hd
      · exact .inl ⟨by simpa [State.dqHasRoom] using hr, (Host.Outcome.next.inj hb).symm⟩
      · simp only [State.dqFull, Bool.and_eq_true, decide_eq_true_eq] at hd
        exact .inr (.inl ⟨hd.1, (Host.Outcome.next.inj hb).symm⟩)
      · exact .inr (.inr (Host.Outcome.next.inj hb).symm)

theorem execGstat_next {u : UnitNo} {s t : State} (h : execGstat u s = .next t) :
    (∃ c info, t = s.raise c info) ∨
      (s.inp.port = .grb u.toNat ∧ u.toNat < s.cfg.geo.n ∧ (s.grab u.toNat).gph = .stat ∧
        ∃ (l : List LogEvent) (n : Nat), s.log <+: l ∧
          t = (State.modGrab { s with log := l } u.toNat fun g =>
            { g with frm := none, fpscnt := n, gph := .pace }).respond .none) := by
  rcases grabberOp_next (fun _ => rfl) h with h | ⟨h1, h2, h3, hb⟩
  · exact .inl h
  · refine .inr ⟨h1, h2, h3, ?_⟩
    split at hb
    · exact ⟨_, 0, List.prefix_append _ _, (Host.Outcome.next.inj hb).symm⟩
    · refine ⟨s.log, (s.grab u.toNat).fpscnt + 1, List.prefix_rfl, ?_⟩
      rw [← (Host.Outcome.next.inj hb)]
      congr 1
      unfold State.modGrab
      congr 1
      apply List.ext_getElem?
      intro k
      simp only [List.getElem?_modify]
      by_cases hk : u.toNat = k
      · subst hk
        cases hh : s.grb[u.toNat]? with
        | none => rfl
        | some g => simp [State.grab, List.getD_eq_getElem?_getD, hh]
      · simp [hk]

theorem execGpace_next {u : UnitNo} {s t : State} (h : execGpace u s = .next t) :
    (∃ c info, t = s.raise c info) ∨
      (s.inp.port = .grb u.toNat ∧ u.toNat < s.cfg.geo.n ∧ (s.grab u.toNat).gph = .pace ∧
        t = (s.setPhase u.toNat .chk).respond .none) := by
  rcases grabberOp_next (fun _ => rfl) h with h | ⟨h1, h2, h3, hb⟩
  · exact .inl h
  · exact .inr ⟨h1, h2, h3, (Host.Outcome.next.inj hb).symm⟩

theorem execDeq_next {u : UnitNo} {s t : State} (h : execDeq u s = .next t) :
    (∃ c info, t = s.raise c info) ∨ t = s.wait (.deq u) ∨
      ∃ f fs, s.dq = f :: fs ∧ t = State.respond { s with dq := fs } (.frame f) := by
  rcases guarded_next h with h | ⟨-, hb⟩
  · exact .inl h
  · split at hb
    · exact .inr (.inl (Host.Outcome.next.inj hb).symm)
    · rename_i f fs hf
      exact .inr (.inr ⟨f, fs, hf, (Host.Outcome.next.inj hb).symm⟩)

theorem execCancel_next {u : UnitNo} {s t : State} (h : execCancel u s = .next t) :
    (∃ c info, t = s.raise c info) ∨ t = State.respond { s with cancel := true } .none := by
  rcases guarded_next h with h | ⟨-, hb⟩
  · exact .inl h
  · exact .inr (Host.Outcome.next.inj hb).symm

/-! ## The filter -/

theorem execKfinit_next {u : UnitNo} {s t : State} (h : execKfinit u s = .next t) :
    (∃ c info, t = s.raise c info) ∨
      ((s.inp.port = .mgr ∨ s.inp.port = .trk u.toNat) ∧ u.toNat < s.cfg.t ∧
        t = (s.setFilter u.toNat ⟨s.cfg.kfX0, s.cfg.kfP0⟩).respond .none) := by
  rcases guarded_next h with h | ⟨hp, hb⟩
  · exact .inl h
  · obtain ⟨h1, h2, h3⟩ := filterChecks_pass.mp hp
    refine .inr ⟨?_, h2, (Host.Outcome.next.inj hb).symm⟩
    rcases port_of_mgr_or_trk h1 with h | ⟨j, h⟩
    · exact .inl h
    · exact .inr (port_of_trk_owner (by rw [h]; rfl) h3)

theorem execKfpred_next {u : UnitNo} {s t : State} (h : execKfpred u s = .next t) :
    (∃ c info, t = s.raise c info) ∨
      (s.inp.port = .trk u.toNat ∧ u.toNat < s.cfg.t ∧ ∃ k,
        t = (s.setFilter u.toNat k).respond (.position k.x.e0 k.x.e1)) := by
  rcases guarded_next h with h | ⟨hp, hb⟩
  · exact .inl h
  · obtain ⟨h1, h2, h3⟩ := filterChecks_pass.mp hp
    exact .inr ⟨port_of_trk_owner h1 h3, h2, _, (Host.Outcome.next.inj hb).symm⟩

theorem execKfcorr_next {u : UnitNo} {s t : State} (h : execKfcorr u s = .next t) :
    (∃ c info, t = s.raise c info) ∨
      (s.inp.port = .trk u.toNat ∧ u.toNat < s.cfg.t ∧ ∃ k,
        t = (s.setFilter u.toNat k).respond .none) := by
  rcases guarded_next h with h | ⟨hp, hb⟩
  · exact .inl h
  · obtain ⟨h1, h2, h3⟩ := filterChecks_pass.mp hp
    split at hb
    · exact .inl ⟨_, _, (Host.Outcome.next.inj hb).symm⟩
    · exact .inr ⟨port_of_trk_owner h1 h3, h2, _, (Host.Outcome.next.inj hb).symm⟩

end Sys2Proof.Machine
end

