-- ==== Sys2Proof/Laws/Bytes.lean ====
section
/-! SUPPORT. The byte accesses of WRSLOT and DECMD run to their end: which bytes are written and read,
whatever the order the draws choose (40_buffer_codec.md R124, R125, R129). -/

namespace Sys2Proof.Machine

/-! ## Shapes and sizes -/

/-- The two legal shapes of a strip, and the bounds (00_scope.md R9). -/
theorem legal_shape {g : Geo} (h : g.legal = true) :
    (g.m = 3 ∧ g.c = 1 ∨ g.m = 1 ∧ g.c = 3) ∧ 22 ≤ g.w ∧ 1 ≤ g.h ∧ 1 ≤ g.n ∧ g.n ≤ 256 := by
  simp only [Geo.legal, Bool.and_eq_true, decide_eq_true_eq] at h
  obtain ⟨⟨⟨⟨⟨⟨h1, h2⟩, h3⟩, h4⟩, -⟩, -⟩, h7⟩ := h
  refine ⟨?_, h3, h4, h1, h2⟩
  have hd : g.m ∣ 3 := ⟨g.c, h7.symm⟩
  rcases (Nat.dvd_prime (by norm_num)).mp hd with hm | hm <;> rw [hm] at h7 <;> omega

/-- A slot lies inside the buffer (20_memory.md R63). -/
theorem slot_inside {g : Geo} {u : Nat} (h : u < g.n) :
    slotBase g u + slotBytes g ≤ sfbBytes g := by
  unfold slotBase sfbBytes
  have := Nat.mul_le_mul_right (slotBytes g) h
  rwa [Nat.succ_mul] at this

/-- A slot is its image region and its strip (00_scope.md R9). -/
theorem slotBytes_eq (g : Geo) : slotBytes g = imgBytes g + stripBytes g := by
  unfold slotBytes imgBytes stripBytes
  ring

/-- A block's address in a slot is the slot's base and the address in slot 0. -/
theorem blkAddr_base (g : Geo) (s c0 k : Nat) :
    blkAddr g s c0 k = slotBase g s + blkAddr g 0 c0 k := by
  simp [blkAddr, addr, slotBase, Nat.add_assoc]

theorem metaAddr_base (g : Geo) (s k : Nat) : metaAddr g s k = slotBase g s + metaAddr g 0 k := by
  unfold metaAddr
  split <;> exact blkAddr_base _ _ _ _

/-! ## DECMD -/

/-- A list of read bytes that holds only bytes `f k` under `k` answers `f k` for every `k` it has. -/
theorem lookup_of_reads (f : Nat → Byte) {got : List (Nat × Byte)} {k : Nat}
    (h : ∀ e ∈ got, e.2 = f e.1) (hk : k ∈ got.map Prod.fst) : got.lookup k = some (f k) := by
  induction got with
  | nil => simp at hk
  | cons e got ih =>
    obtain ⟨a, b⟩ := e
    by_cases hka : k = a
    · subst hka
      have := h (k, b) (by simp)
      simp only at this
      simp [List.lookup, this]
    · have hb : (k == a) = false := by simp [hka]
      simp only [List.lookup, hb]
      refine ih (fun e he => h e (by simp [he])) ?_
      simp only [List.map_cons, List.mem_cons] at hk
      exact hk.resolve_left hka

/-- With more choices than bytes left, a run of byte reads over an unchanging memory ends in the values
of the two blocks, whatever the choices. -/
theorem readBytes_complete (u : UnitNo) (s : State) (ha : s.allocated = true)
    (hin : ∀ k < 18, metaAddr s.geo u.toNat k < sfbBytes s.geo) (ns : List Nat)
    (got : List (Nat × Byte))
    (hg : ∀ e ∈ got, e.2 = Memory.read s.sfb (metaAddr s.geo u.toNat e.1))
    (hn : (readsLeft got).length < ns.length) :
    readBytes u ns got s = .next (s.respond (.pair
      (dec9 ((List.range 9).map fun k => Memory.read s.sfb (metaAddr s.geo u.toNat k)))
      (dec9 ((List.range 9).map fun k => Memory.read s.sfb (metaAddr s.geo u.toNat (9 + k)))))) := by
  induction ns generalizing got with
  | nil => simp at hn
  | cons n ns ih =>
    simp only [readBytes]
    cases hp : pick (readsLeft got) n with
    | none =>
      have he := pick_eq_none.mp hp
      have hall : ∀ k < 18, got.lookup k = some (Memory.read s.sfb (metaAddr s.geo u.toNat k)) := by
        intro k hk
        refine lookup_of_reads (fun k => Memory.read s.sfb (metaAddr s.geo u.toNat k)) hg ?_
        by_contra hc
        have : k ∈ readsLeft got := by
          simp only [readsLeft, blockBytes, List.mem_filter, List.mem_range]
          exact ⟨by omega, by simpa using hc⟩
        rw [he] at this
        simp at this
      simp only [decodedPair, blockRead, blockBytes]
      congr 4 <;>
      · apply List.map_congr_left
        intro k hk
        rw [List.mem_range] at hk
        rw [hall _ (by omega)]
        simp
    | some k =>
      have hm := pick_mem hp
      have hk : k < 18 := by
        simp only [readsLeft, blockBytes, List.mem_filter, List.mem_range] at hm
        omega
      have hr : s.memRead (metaAddr s.geo u.toNat k) =
          some (Memory.read s.sfb (metaAddr s.geo u.toNat k)) := by
        simp [State.memRead, State.inSfb, ha, hin k hk]
      simp only [hr]
      refine ih _ ?_ ?_
      · intro e he
        rcases List.mem_cons.mp he with rfl | he
        · rfl
        · exact hg e he
      · have hs : readsLeft ((k, Memory.read s.sfb (metaAddr s.geo u.toNat k)) :: got) =
            (readsLeft got).filter (fun x => decide (x ≠ k)) := by
          simp only [readsLeft, List.filter_filter]
          apply List.filter_congr
          intro x _
          by_cases hx : x = k <;> simp [hx]
        have : (readsLeft ((k, Memory.read s.sfb (metaAddr s.geo u.toNat k)) :: got)).length <
            (readsLeft got).length := by
          rw [hs]
          exact List.length_filter_lt_length_iff_exists.mpr ⟨k, hm, by simp⟩
        simp only [List.length_cons] at hn
        omega

/-! ## WRSLOT -/

/-- A byte write of a WRSLOT is done. -/
def Wip.did (w : Wip) (it : WrItem) : Prop := (it.phase, it.off) ∈ w.done

/-- What the byte writes done so far have made of memory `m0` (40_buffer_codec.md R125): phases come in
order, a byte holds what the latest phase done wrote there, every other byte is as in `m0`. -/
structure WriteInv (m0 : Memory) (base : Nat) (items : List WrItem) (w : Wip) (m : Memory) : Prop where
  wf : Memory.wf m = true
  order : ∀ it ∈ items, w.did it → ∀ i ∈ items, i.phase < it.phase → w.did i
  vals : ∀ it ∈ items, w.did it → (∀ i ∈ items, w.did i → i.off = it.off → i.phase ≤ it.phase) →
    Memory.read m (base + it.off) = it.byte
  rest : ∀ a, (∀ it ∈ items, w.did it → a ≠ base + it.off) → Memory.read m a = Memory.read m0 a

/-- The writes of a WRSLOT not done yet. -/
def leftOver (items : List WrItem) (w : Wip) : List WrItem :=
  items.filter fun it => !w.done.contains (it.phase, it.off)

theorem mem_leftOver {items : List WrItem} {w : Wip} {it : WrItem} :
    it ∈ leftOver items w ↔ it ∈ items ∧ ¬ w.did it := by
  simp [leftOver, Wip.did]

theorem mem_writesLeft {s : State} {w : Wip} {q : Nat} {it : WrItem} :
    it ∈ writesLeft s w q ↔ it ∈ slotWrites s w ∧ it.phase = q ∧ ¬ w.did it := by
  simp only [writesLeft, List.mem_filter, Bool.and_eq_true, decide_eq_true_eq, Bool.not_eq_true',
    Wip.did]
  constructor
  · rintro ⟨h1, h2, h3⟩
    exact ⟨h1, h2, by rw [h2]; simpa using h3⟩
  · rintro ⟨h1, h2, h3⟩
    exact ⟨h1, h2, by rw [h2] at h3; simpa using h3⟩

/-- A write that may come next is not done, and every write of an earlier phase is. -/
theorem mem_nextWrites {s : State} {w : Wip} {it : WrItem}
    (hp : ∀ i ∈ slotWrites s w, 1 ≤ i.phase ∧ i.phase ≤ 3) (h : it ∈ nextWrites s w) :
    it ∈ slotWrites s w ∧ ¬ w.did it ∧ ∀ i ∈ slotWrites s w, i.phase < it.phase → w.did i := by
  have earlier : ∀ q, writesLeft s w q = [] → ∀ i ∈ slotWrites s w, i.phase = q → w.did i := by
    intro q hq i hi hiq
    by_contra hc
    have : i ∈ writesLeft s w q := mem_writesLeft.mpr ⟨hi, hiq, hc⟩
    rw [hq] at this
    simp at this
  unfold nextWrites at h
  split_ifs at h with h1 h2
  · obtain ⟨a, b, c⟩ := mem_writesLeft.mp h
    exact ⟨a, c, fun i hi hlt => by have := (hp i hi).1; omega⟩
  · obtain ⟨a, b, c⟩ := mem_writesLeft.mp h
    rw [ne_eq, not_not] at h1
    refine ⟨a, c, fun i hi hlt => earlier 1 h1 i hi ?_⟩
    have := (hp i hi).1
    omega
  · obtain ⟨a, b, c⟩ := mem_writesLeft.mp h
    rw [ne_eq, not_not] at h1 h2
    refine ⟨a, c, fun i hi hlt => ?_⟩
    have := (hp i hi).1
    by_cases hq : i.phase = 1
    · exact earlier 1 h1 i hi hq
    · exact earlier 2 h2 i hi (by omega)

/-- With no write that may come next, every write is done. -/
theorem nextWrites_nil {s : State} {w : Wip}
    (hp : ∀ i ∈ slotWrites s w, 1 ≤ i.phase ∧ i.phase ≤ 3) (h : nextWrites s w = []) :
    ∀ i ∈ slotWrites s w, w.did i := by
  intro i hi
  by_contra hc
  have hl : i ∈ writesLeft s w i.phase := mem_writesLeft.mpr ⟨hi, rfl, hc⟩
  have h0 : ∀ q, q = i.phase → writesLeft s w q ≠ [] := by
    rintro q rfl hq
    rw [hq] at hl
    simp at hl
  unfold nextWrites at h
  have := hp i hi
  split_ifs at h with h1 h2
  · exact h1 h
  · exact h2 h
  · rw [ne_eq, not_not] at h1 h2
    by_cases q1 : i.phase = 1
    · exact h0 1 q1.symm h1
    · by_cases q2 : i.phase = 2
      · exact h0 2 q2.symm h2
      · exact h0 3 (by omega) h

/-- The record of a WRSLOT after one more byte write. -/
def Wip.after (w : Wip) (it : WrItem) : Wip :=
  { w with phase := it.phase, done := (it.phase, it.off) :: w.done }

theorem did_after {w : Wip} {it i : WrItem} :
    (w.after it).did i ↔ (i.phase = it.phase ∧ i.off = it.off) ∨ w.did i := by
  simp [Wip.did, Wip.after]

/-- One more byte write keeps what is said of memory. -/
theorem WriteInv.after {m0 m : Memory} {base : Nat} {items : List WrItem} {w : Wip} {it : WrItem}
    (huniq : ∀ i ∈ items, ∀ k ∈ items, i.phase = k.phase → i.off = k.off → i = k)
    (h : WriteInv m0 base items w m) (hi : it ∈ items) (hd : ¬ w.did it)
    (hearly : ∀ i ∈ items, i.phase < it.phase → w.did i) :
    WriteInv m0 base items (w.after it) (Memory.write m (base + it.off) it.byte) where
  wf := write_wf _ _ h.wf
  order := by
    intro k hk hkd i hii hlt
    rcases did_after.mp hkd with ⟨h1, -⟩ | hkd
    · exact did_after.mpr (.inr (hearly i hii (by omega)))
    · exact did_after.mpr (.inr (h.order k hk hkd i hii hlt))
  vals := by
    intro k hk hkd hlast
    rw [read_write _ _ _ h.wf]
    by_cases ho : k.off = it.off
    · rw [if_pos (by rw [ho])]
      have hle : it.phase ≤ k.phase := hlast it hi (did_after.mpr (.inl ⟨rfl, rfl⟩)) ho.symm
      rcases did_after.mp hkd with ⟨h1, h2⟩ | hkd
      · rw [huniq k hk it hi h1 h2]
      · rcases Nat.lt_or_eq_of_le hle with hlt | heq
        · exact absurd (h.order k hk hkd it hi hlt) hd
        · rw [huniq k hk it hi heq.symm ho]
    · rw [if_neg (by omega)]
      refine h.vals k hk ?_ ?_
      · rcases did_after.mp hkd with ⟨-, h2⟩ | hkd
        · exact absurd h2 ho
        · exact hkd
      · exact fun i hii hid hio => hlast i hii (did_after.mpr (.inr hid)) hio
  rest := by
    intro a ha
    rw [read_write _ _ _ h.wf, if_neg (ha it hi (did_after.mpr (.inl ⟨rfl, rfl⟩)))]
    exact h.rest a fun i hii hid => ha i hii (did_after.mpr (.inr hid))

theorem modify_modify_self {α : Type} (l : List α) (i : Nat) (f g : α → α) :
    (l.modify i f).modify i g = l.modify i (g ∘ f) := by
  apply List.ext_getElem?
  intro k
  simp only [List.getElem?_modify]
  by_cases hk : i = k <;> simp [hk, Function.comp_def]

/-- With more choices than bytes left, a run of byte writes ends in a finished write in which every byte
is written, whatever the choices. -/
theorem writeBytes_complete (u : UnitNo) (pl : Payload) (m0 : Memory) (ns : List Nat) (s : State)
    (w : Wip) (hw : (s.grab u.toNat).wip = some w) (hu : u.toNat < s.grb.length)
    (huniq : ∀ i ∈ slotWrites s w, ∀ k ∈ slotWrites s w, i.phase = k.phase → i.off = k.off → i = k)
    (hp : ∀ i ∈ slotWrites s w, 1 ≤ i.phase ∧ i.phase ≤ 3)
    (hin : ∀ i ∈ slotWrites s w, s.inSfb (slotBase s.geo u.toNat + i.off) = true)
    (hinv : WriteInv m0 (slotBase s.geo u.toNat) (slotWrites s w) w s.sfb)
    (hn : (leftOver (slotWrites s w) w).length < ns.length) :
    ∃ (m : Memory) (w' : Wip),
      WriteInv m0 (slotBase s.geo u.toNat) (slotWrites s w) w' m ∧
      (∀ i ∈ slotWrites s w, w'.did i) ∧
      writeBytes u pl ns s =
        .next (((State.setWip { s with sfb := m } u.toNat (some w'))).finishWrite u.toNat) := by
  induction ns generalizing s w with
  | nil => simp at hn
  | cons n ns ih =>
    simp only [writeBytes, hw]
    cases hpk : pick (nextWrites s w) n with
    | none =>
      refine ⟨s.sfb, w, hinv, nextWrites_nil hp (pick_eq_none.mp hpk), ?_⟩
      have : State.setWip { s with sfb := s.sfb } u.toNat (some w) = s := by
        unfold State.setWip State.modGrab
        have : s.grb.modify u.toNat (fun g => { g with wip := some w }) = s.grb := by
          apply List.ext_getElem?
          intro k
          simp only [List.getElem?_modify]
          by_cases hk : u.toNat = k
          · subst hk
            have hg : s.grb[u.toNat]? = some (s.grab u.toNat) := by
              simp [State.grab, List.getD_eq_getElem?_getD, List.getElem?_eq_getElem hu]
            rw [hg]
            simp only [if_true, Option.map_eq_map]
            rw [← hw]
            rfl
          · simp [hk]
        rw [this]
      rw [this]
    | some it =>
      obtain ⟨h1, h2, h3⟩ := mem_nextWrites hp (pick_mem hpk)
      have hin' := hin it h1
      have hm : s.memWrite (slotBase s.geo u.toNat + it.off) it.byte =
          some { s with sfb := Memory.write s.sfb (slotBase s.geo u.toNat + it.off) it.byte } := by
        unfold State.memWrite
        rw [if_pos hin']
      simp only [hm]
      set s' : State := State.setWip
        { s with sfb := Memory.write s.sfb (slotBase s.geo u.toNat + it.off) it.byte } u.toNat
        (some (w.after it)) with hs'
      have hwip : (s'.grab u.toNat).wip = some (w.after it) := by
        have : s'.grab u.toNat = _ := grab_modGrab _ _ _ _
        rw [this, if_pos ⟨rfl, hu⟩]
      obtain ⟨m, w', hi', hd', he'⟩ := ih s' (w.after it) hwip (by simpa [hs'] using hu) huniq hp hin
        (hinv.after huniq h1 h2 h3) (by
          have hlt : (leftOver (slotWrites s w) (w.after it)).length <
              (leftOver (slotWrites s w) w).length := by
            have e : leftOver (slotWrites s w) (w.after it) =
                (leftOver (slotWrites s w) w).filter
                  (fun i => !decide (i.phase = it.phase ∧ i.off = it.off)) := by
              simp only [leftOver, List.filter_filter]
              apply List.filter_congr
              intro i _
              by_cases hc : i.phase = it.phase ∧ i.off = it.off
              · simp [Wip.after, hc]
              · simp [Wip.after, hc]
            rw [e]
            exact List.length_filter_lt_length_iff_exists.mpr
              ⟨it, mem_leftOver.mpr ⟨h1, h2⟩, by simp⟩
          have e2 : slotWrites s' (w.after it) = slotWrites s w := rfl
          rw [e2]
          simp only [List.length_cons] at hn
          omega)
      refine ⟨m, w', hi', hd', he'.trans ?_⟩
      have : State.setWip { s' with sfb := m } u.toNat (some w') =
          State.setWip { s with sfb := m } u.toNat (some w') := by
        simp only [hs', State.setWip, State.modGrab, modify_modify_self]
        rfl
      rw [this]

/-! ## Which writes there are -/

/-- Byte `k` of the tickstamp block, in slot 0. -/
theorem metaAddr_tick (g : Geo) {k : Nat} (h : k < 9) :
    metaAddr g 0 k = blkAddr g 0 (tickCol g) k := by
  simp [metaAddr, blockBytes, h]

/-- Byte `k` of the index block, in slot 0. -/
theorem metaAddr_index (g : Geo) (k : Nat) :
    metaAddr g 0 (9 + k) = blkAddr g 0 (indexCol g) k := by
  simp [metaAddr, blockBytes]

/-- The byte writes of a WRSLOT: image, swatch, the two blocks (40_buffer_codec.md R124). -/
theorem mem_slotWrites {s : State} {w : Wip} {it : WrItem} :
    it ∈ slotWrites s w ↔
      (∃ o < imgBytes s.geo, it = ⟨1, o, imgSample w.img o⟩) ∨
      (∃ e ∈ s.cfg.swatch, it = ⟨2, imgBytes s.geo + e.1, e.2⟩) ∨
      (∃ k < 9, it = ⟨3, metaAddr s.geo 0 k, (enc9 w.tick).getD k 0⟩) ∨
      (∃ k < 9, it = ⟨3, metaAddr s.geo 0 (9 + k), (enc9 w.idx).getD k 0⟩) := by
  simp only [slotWrites, List.mem_append, imageWrites, swatchWrites, blockWrites, List.mem_map,
    List.mem_range, blockBytes, or_assoc]
  constructor
  · rintro (⟨o, h, rfl⟩ | ⟨o, h, rfl⟩ | ⟨o, h, rfl⟩ | ⟨o, h, rfl⟩)
    · exact .inl ⟨o, h, rfl⟩
    · exact .inr (.inl ⟨o, h, rfl⟩)
    · exact .inr (.inr (.inl ⟨o, h, by rw [metaAddr_tick _ h]⟩))
    · exact .inr (.inr (.inr ⟨o, h, by rw [metaAddr_index]⟩))
  · rintro (⟨o, h, rfl⟩ | ⟨o, h, rfl⟩ | ⟨o, h, rfl⟩ | ⟨o, h, rfl⟩)
    · exact .inl ⟨o, h, rfl⟩
    · exact .inr (.inl ⟨o, h, rfl⟩)
    · exact .inr (.inr (.inl ⟨o, h, by rw [metaAddr_tick _ h]⟩))
    · exact .inr (.inr (.inr ⟨o, h, by rw [metaAddr_index]⟩))

end Sys2Proof.Machine
end

