-- ==== Sys2Proof/Laws/Step.lean ====
section
/-! SUPPORT. What one step can do, said once: which operation, read or Tracker computation it is, in
which state it runs, and on which port. Proofs about `step` cite `step_next` and unfold nothing. -/

namespace Sys2Proof.Machine

/-- `r` is `s` but for the event taken: the script, the clock and the step's inputs. -/
def Moved (s r : State) : Prop :=
  ∃ sc ck ip, r = { s with script := sc, clock := ck, inp := ip }

theorem Moved.trans {s r q : State} (h : Moved s r) (k : Moved r q) : Moved s q := by
  obtain ⟨a, b, c, rfl⟩ := h
  obtain ⟨d, e, f, rfl⟩ := k
  exact ⟨d, e, f, rfl⟩

/-- The port of the event that `s` takes next. -/
def State.nextPort (s : State) : Port :=
  match s.takeEvent.1 with
  | .issue p _ _ _ => p
  | .advance p _ => p
  | .viewRead p _ _ => p

/-- The operation `i` is issued on a port with none outstanding, or is the one outstanding. -/
def State.mayRun (s : State) (i : Instr) : Prop :=
  s.outstanding = none ∨ ∃ o, s.outstanding = some o ∧ o.instr = i

/-- The Tracker's state after it took response `r` of the operation its cycle issued
(43_tracker_consumer.md R231). -/
def Tracker.took (c : Cfg) (inLock : Bool) (r : Response) (k : Tracker) : Tracker :=
  { k with
    filtTrail := trailAfter c.trailN k.cyc.ph r k.filtTrail
    cyc := cycleAfter inLock r k.cyc }

/-- A Tracker's cycle step that issues an operation: the operation goes on, and the Tracker has taken
its response if it has one. -/
theorem takeResponse_next {j : Nat} {o : Out} {t : State} (h : takeResponse j o = .next t) :
    ∃ r, o = .next r ∧ (t = r ∨ ∃ e, r.outstandingOf (.trk j) = none ∧ r.resp.getLast? = some e ∧
      t = r.modTracker j (Tracker.took r.cfg r.inp.draws.imgInLock e.2)) := by
  cases o with
  | next r =>
    refine ⟨r, rfl, ?_⟩
    simp only [takeResponse] at h
    split at h
    · rename_i e h1 h2
      exact .inr ⟨e, h1, h2, (Host.Outcome.next.inj h).symm⟩
    · exact .inl (Host.Outcome.next.inj h).symm
  | fault f => cases h
  | refused r => cases h

/-- A run of image reads is a change of the Tracker's own state, kept by whatever every single one
keeps. -/
theorem readImage_next {Inv : State → Prop} {j : Nat} {ns : List Nat} {s t : State}
    (hread : ∀ r o b, Inv r → Inv (r.modTracker j fun k =>
      { k with cyc := { k.cyc with got := (o, b) :: k.cyc.got } }))
    (hdone : ∀ r, Inv r → Inv (r.modTracker j fun k =>
      { k with cyc := { k.cyc with ph := if k.cyc.inLock then .decode else .lock } }))
    (hs : Inv s) (h : readImage j ns s = .next t) : Inv t := by
  induction ns generalizing s with
  | nil => exact Host.Outcome.next.inj h ▸ hs
  | cons n ns ih =>
    simp only [readImage] at h
    split at h
    · exact Host.Outcome.next.inj h ▸ hdone s hs
    · split at h
      · cases h
      · exact ih (hread _ _ _ hs) h

/-- What a step can do, in the state `r` with the event taken. -/
inductive StepKind (r t : State) : Prop where
  /-- no agent had an enabled step -/
  | idle (h : t = r)
  /-- an illegal command word, or an offset outside a View -/
  | raised (c : Cause) (i : Info) (h : t = r.raise c i)
  /-- a byte read through a View the port obtained -/
  | viewByte (v : View) (o : Nat) (b : Byte) (hv : r.holdsView v = true)
      (h : t = r.respond (.byte b))
  /-- an operation of the port, issued or gone on with -/
  | op (i : Instr) (hr : r.mayRun i) (h : exec i r = .next t)
  /-- an operation of a Tracker's cycle, issued or gone on with -/
  | cycleOp (j : Nat) (i : Instr) (q : State) (hp : r.inp.port = .trk j)
      (ho : r.outstanding = none ∧ Machine.cycleOp (BitVec.ofNat 8 j) (r.tracker j).cyc.ph = some i ∨
        ∃ o, r.outstanding = some o ∧ o.instr = i)
      (hq : exec i r = .next q)
      (h : t = q ∨ ∃ e, q.outstandingOf (.trk j) = none ∧ q.resp.getLast? = some e ∧
        t = q.modTracker j (Tracker.took q.cfg q.inp.draws.imgInLock e.2))
  /-- image bytes read by a Tracker's cycle -/
  | image (j : Nat) (hp : r.inp.port = .trk j) (ho : r.outstanding = none)
      (hi : (r.tracker j).cyc.ph = .image) (h : readImage j r.inp.draws.picks r = .next t)
  /-- the Tracker's detection -/
  | detect (j : Nat) (hp : r.inp.port = .trk j) (ho : r.outstanding = none)
      (hi : (r.tracker j).cyc.ph = .detect)
      (h : t = r.modTracker j (detectStep r.cfg r.geo r.inp.draws))
  /-- the Tracker's output -/
  | output (j : Nat) (hp : r.inp.port = .trk j) (ho : r.outstanding = none)
      (hi : (r.tracker j).cyc.ph = .output) (h : t = r.outputStep j)

theorem cycleStep_next {j : Nat} {s t : State} (hp : s.inp.port = .trk j)
    (ho : s.outstanding = none) (h : cycleStep j s = .next t) :
    ∃ r, Moved s r ∧ r.inp.port = s.inp.port ∧ StepKind r t := by
  unfold cycleStep at h
  split at h
  · rename_i i hi
    obtain ⟨q, hq, ht⟩ := takeResponse_next h
    exact ⟨{ s with inp := { s.inp with
        payload := cyclePayload (s.tracker j).cyc.det s.inp.payload } },
      ⟨s.script, s.clock, _, rfl⟩, rfl, .cycleOp j i q hp (.inl ⟨ho, hi⟩) hq ht⟩
  · rename_i hi
    refine ⟨s, ⟨s.script, s.clock, s.inp, rfl⟩, rfl, ?_⟩
    split at h
    · rename_i hph
      exact .image j hp ho hph h
    · rename_i hph
      exact .detect j hp ho hph (Host.Outcome.next.inj h).symm
    · rename_i h1 h2
      refine .output j hp ho ?_ (Host.Outcome.next.inj h).symm
      cases hph : (s.tracker j).cyc.ph <;> simp_all [Machine.cycleOp]

theorem resume_next {o : Pending} {s t : State} (ho : s.outstanding = some o)
    (h : resume o s = .next t) :
    ∃ r, Moved s r ∧ r.inp.port = s.inp.port ∧ StepKind r t := by
  refine ⟨{ s with inp := { s.inp with payload := o.payload } }, ⟨s.script, s.clock, _, rfl⟩, rfl, ?_⟩
  have hr : (State.mayRun { s with inp := { s.inp with payload := o.payload } } o.instr) :=
    .inr ⟨o, ho, rfl⟩
  unfold resume at h
  split at h
  · rename_i j hj
    split at h
    · obtain ⟨q, hq, ht⟩ := takeResponse_next h
      exact .cycleOp j o.instr q hj (.inr ⟨o, ho, rfl⟩) hq ht
    · exact .op o.instr hr h
  · exact .op o.instr hr h

theorem advance_next {s t : State} (h : advance s = .next t) :
    ∃ r, Moved s r ∧ r.inp.port = s.inp.port ∧ StepKind r t := by
  unfold advance at h
  split at h
  · rename_i o ho
    exact resume_next ho h
  · rename_i ho
    have same : Moved s s := ⟨s.script, s.clock, s.inp, rfl⟩
    split at h
    · rename_i i hi
      unfold loopStep at h
      split at h
      · rename_i op hop
        exact ⟨s, same, rfl, .op op (.inl ho) h⟩
      · exact ⟨s, same, rfl, .idle (Host.Outcome.next.inj h).symm⟩
    · rename_i j hj
      exact cycleStep_next hj ho h
    · exact ⟨s, same, rfl, .idle (Host.Outcome.next.inj h).symm⟩
    · exact ⟨s, same, rfl, .idle (Host.Outcome.next.inj h).symm⟩

/-- One step: the event is taken, and in the state with the event's inputs it is one of the kinds. -/
theorem step_next {s t : State} (h : step s = .next t) :
    ∃ r, Moved s r ∧ (t = r ∨ r.inp.port = s.nextPort ∧ StepKind r t) := by
  have hm : Moved s s.takeEvent.2 := by
    unfold State.takeEvent
    split
    · exact ⟨_, s.clock, s.inp, rfl⟩
    · exact ⟨s.script, _, s.inp, rfl⟩
  unfold step at h
  generalize hq : s.takeEvent.2 = q at h hm
  unfold State.nextPort
  generalize s.takeEvent.1 = e at h
  cases e with
  | issue p cw payload draws =>
    simp only [runEvent] at h
    split at h
    · rename_i hf
      refine ⟨{ q with inp := ⟨p, payload, draws⟩ }, hm.trans ⟨q.script, q.clock, _, rfl⟩,
        .inr ⟨rfl, ?_⟩⟩
      unfold runCommand at h
      split at h
      · exact .raised _ _ (Host.Outcome.next.inj h).symm
      · refine .op _ (.inl ?_) h
        simp only [State.portFree, State.portIdle, Bool.and_eq_true, Option.isNone_iff_eq_none] at hf
        exact hf.1.2
    · exact ⟨q, hm, .inl (Host.Outcome.next.inj h).symm⟩
  | advance p draws =>
    simp only [runEvent] at h
    split at h
    · obtain ⟨r, hr, hp, hk⟩ := advance_next h
      exact ⟨r, hm.trans (Moved.trans ⟨q.script, q.clock, _, rfl⟩ hr), .inr ⟨hp, hk⟩⟩
    · exact ⟨q, hm, .inl (Host.Outcome.next.inj h).symm⟩
  | viewRead p v o =>
    simp only [runEvent] at h
    split at h
    · rename_i hf
      refine ⟨{ q with inp := ⟨p, q.inp.payload, q.inp.draws⟩ },
        hm.trans ⟨q.script, q.clock, _, rfl⟩, .inr ⟨rfl, ?_⟩⟩
      simp only [Bool.and_eq_true] at hf
      unfold readThroughView at h
      split at h
      · exact .raised _ _ (Host.Outcome.next.inj h).symm
      · split at h
        · cases h
        · exact .viewByte v o _ hf.2 (Host.Outcome.next.inj h).symm
    · exact ⟨q, hm, .inl (Host.Outcome.next.inj h).symm⟩

end Sys2Proof.Machine
end

