-- ==== Sys2Proof/Laws/Closed.lean ====
section
/-! SUPPORT. One case analysis of all twenty operations and of the step, packaged: what a relation
between states must survive so that it holds across every step. -/

namespace Sys2Proof.Machine

/-- A relation on states that is a preorder and holds across each single change an operation or a step can
make. Then it holds across `exec` and across `step` (`Closed.exec`, `Closed.step`): an invariant is proved
by checking these changes one by one. -/
structure Closed (R : State → State → Prop) : Prop where
  refl : ∀ s, R s s
  trans : ∀ s r t, R s r → R r t → R s t
  answer : ∀ s r, R s (s.answer r)
  raise : ∀ s c i, R s (s.raise c i)
  keepOpen : ∀ s i p g, R s (s.keepOpen i p g)
  alloc : ∀ s, s.allocated = false → R s (s.allocate s.cfg.geo)
  setLock : ∀ s u h, R s (s.setLock u h)
  mem : ∀ (s : State) a v, s.inSfb a = true → R s { s with sfb := Memory.write s.sfb a v }
  setWip : ∀ s u w, R s (s.setWip u w)
  phase : ∀ (s : State) (u : Nat) p, (s.grab u).gph ≠ .idle → p ≠ .idle → R s (s.setPhase u p)
  gstart : ∀ (s : State) (u : Nat), (s.grab u).gstate = .created → R s (s.modGrab u fun g =>
        { g with gstate := .running, gph := .opn, seq := 0, fpscnt := 0 })
  stop : ∀ (s : State) (u : Nat), (s.grab u).gph ≠ .idle → R s (s.stopGrabber u)
  stopd : ∀ (s : State) (u : Nat), (s.grab u).gph ≠ .idle → R s (s.stopGrabberAndDrop u)
  gread : ∀ (s : State) (u : Nat) img, (s.grab u).gph ≠ .idle → R s (s.modGrab u fun g => { g with img := some img, gph := .wrap })
  gwrap : ∀ (s : State) (u : Nat) (x : U64) f, (s.grab u).gph ≠ .idle → s.tick.toNat ≤ x.toNat → R s (State.modGrab { s with tick := x } u fun g =>
            { g with frm := some f, seq := g.seq + 1, img := none, gph := .enq })
  enq : ∀ (s : State) f, s.dq.length < s.cfg.qcap → R s { s with dq := s.dq ++ [f] }
  log : ∀ (s : State) e, R s (s.logEvent e)
  gstat : ∀ (s : State) (u : Nat) (l : List LogEvent) n, s.log <+: l → (s.grab u).gph ≠ .idle → R s (State.modGrab { s with log := l } u fun g =>
            { g with frm := none, fpscnt := n, gph := .pace })
  deq : ∀ (s : State) f fs, s.dq = f :: fs → R s { s with dq := fs }
  cancel : ∀ s : State, R s { s with cancel := true }
  filt : ∀ s j k, R s (s.setFilter j k)
  moved : ∀ s r, Moved s r → R s r
  took : ∀ (s : State) j c l r, c = s.cfg → R s (s.modTracker j (Tracker.took c l r))
  got : ∀ (s : State) j o b, R s (s.modTracker j fun k =>
      { k with cyc := { k.cyc with got := (o, b) :: k.cyc.got } })
  gotd : ∀ (s : State) j, R s (s.modTracker j fun k =>
      { k with cyc := { k.cyc with ph := if k.cyc.inLock then .decode else .lock } })
  detect : ∀ (s : State) j, R s (s.modTracker j (detectStep s.cfg s.geo s.inp.draws))
  output : ∀ (s : State) j, R s (s.outputStep j)

/-- A closed relation holds across every operation. -/
theorem Closed.exec {R : State → State → Prop} (C : Closed R) {i : Instr} {s t : State} (h : exec i s = .next t) : R s t := by
  have ans : ∀ s' r, R s s' → R s (s'.answer r) := fun s' r h => C.trans _ _ _ h (C.answer _ _)
  have ra : ∀ s' c i, R s s' → R s (s'.raise c i) := fun s' c i h => C.trans _ _ _ h (C.raise _ _ _)
  cases i with
  | alloc u =>
    rcases execAlloc_next h with ⟨c, i, rfl⟩ | ⟨_, h1, _, _, rfl⟩
    · exact C.raise _ _ _
    · exact ans _ _ (C.alloc _ h1)
  | lock u =>
    rcases execLock_next h with ⟨c, i, rfl⟩ | ⟨_, h1, _, ⟨_, rfl⟩ | rfl⟩
    · exact C.raise _ _ _
    · exact ans _ _ (C.setLock _ _ _)
    · exact C.keepOpen _ _ _ _
  | unlock u =>
    rcases execUnlock_next h with ⟨c, i, rfl⟩ | ⟨_, h1, _, _, rfl⟩
    · exact C.raise _ _ _
    · exact ans _ _ (C.setLock _ _ _)
  | wrslot u =>
    have wb : ∀ pl ns r t, R s r → writeBytes u pl ns r = .next t → R s t := by
      intro pl ns r t hr ht
      obtain ⟨q, hq, rfl | ⟨w, hw, hn, rfl⟩⟩ := writeBytes_next (Inv := R s) (fun r w it hi _ _ hin => C.trans _ _ _ (C.trans _ _ _ hi (C.mem _ _ _ hin)) (C.setWip _ _ _)) hr ht
      · exact C.trans _ _ _ hq (C.keepOpen _ _ _ _)
      · refine C.trans _ _ _ hq ?_
        rcases finishWrite_cases q u.toNat with ⟨_, e⟩ | ⟨_, e⟩ <;> rw [e]
        · refine C.trans _ _ _ ?_ (C.answer _ _)
          have h1 : R q ((q.setWip u.toNat none).setLock u.toNat none) := C.trans _ _ _ (C.setWip _ _ _) (C.setLock _ _ _)
          split
          · rename_i hg
            refine C.trans _ _ _ h1 (C.phase _ _ _ ?_ (by simp))
            have hg' : (((q.setWip u.toNat none).setLock u.toNat none).grab u.toNat).gph = (q.grab u.toNat).gph := by
              show ((q.setWip u.toNat none).grab u.toNat).gph = _
              rw [show (q.setWip u.toNat none).grab u.toNat = _ from grab_modGrab _ _ _ _]
              split <;> rfl
            rw [hg', hg]; simp
          · exact h1
        · exact C.trans _ _ _ (C.setWip _ _ _) (C.raise _ _ _)
    have aw : ∀ pl t, s.acquireAndWrite u pl = .next t → R s t := by
      intro pl t ht
      rcases acquireAndWrite_next ht with ⟨_, hb⟩ | ⟨_, rfl⟩ | ⟨_, rfl⟩
      · exact wb _ _ _ _ (C.trans _ _ _ (C.setLock _ _ _) (C.setWip _ _ _)) hb
      · exact C.keepOpen _ _ _ _
      · exact C.raise _ _ _
    change execWrslot u s = _ at h
    unfold execWrslot at h
    split at h
    · rcases startWrite_next h with ⟨c, i, rfl⟩ | ⟨_, hg, c, i, _, rfl⟩ | ⟨_, _, _, pl, _, _, hb⟩
      · exact C.raise _ _ _
      · exact ra _ _ _ (C.stopd _ _ (by rw [hg]; simp))
      · exact aw _ _ hb
    · unfold State.continueWrite at h
      split at h
      · exact wb _ _ _ _ (C.refl _) h
      · exact aw _ _ h
  | rdslot u =>
    rcases execRdslot_next h with ⟨c, i, rfl⟩ | ⟨_, h1, _, rfl⟩
    · exact C.raise _ _ _
    · exact C.answer _ _
  | encmd u =>
    rcases execEncmd_next h with ⟨c, i, rfl⟩ | rfl
    · exact C.raise _ _ _
    · exact C.answer _ _
  | decmd u =>
    rcases execDecmd_next h with ⟨c, i, rfl⟩ | ⟨_, _, _, ⟨g, rfl⟩ | ⟨g, rfl⟩⟩
    · exact C.raise _ _ _
    · exact C.keepOpen _ _ _ _
    · exact C.answer _ _
  | gstart u =>
    rcases execGstart_next h with ⟨c, i, rfl⟩ | ⟨_, _, hg, rfl⟩
    · exact C.raise _ _ _
    · exact ans _ _ (C.gstart _ _ hg)
  | gopen u =>
    rcases execGopen_next h with ⟨c, i, rfl⟩ | ⟨_, _, hg, rfl | rfl⟩
    · exact C.raise _ _ _
    · exact ans _ _ (C.phase _ _ _ (by rw [hg]; simp) (by simp))
    · exact ra _ _ _ (C.stop _ _ (by rw [hg]; simp))
  | gchk u =>
    rcases execGchk_next h with ⟨c, i, rfl⟩ | ⟨_, _, hg, rfl | rfl⟩
    · exact C.raise _ _ _
    · exact ans _ _ (C.stop _ _ (by rw [hg]; simp))
    · exact ans _ _ (C.phase _ _ _ (by rw [hg]; simp) (by simp))
  | gread u =>
    rcases execGread_next h with ⟨c, i, rfl⟩ | ⟨_, _, hg, rfl | rfl | ⟨img, rfl⟩⟩
    · exact C.raise _ _ _
    · exact C.keepOpen _ _ _ _
    · exact ans _ _ (C.phase _ _ _ (by rw [hg]; simp) (by simp))
    · exact ans _ _ (C.gread _ _ _ (by rw [hg]; simp))
  | gwrap u =>
    rcases execGwrap_next h with ⟨c, i, rfl⟩ | ⟨_, _, hg, x, f, hx, rfl⟩
    · exact C.raise _ _ _
    · exact ans _ _ (C.gwrap _ _ _ _ (by rw [hg]; simp) hx)
  | enq u =>
    rcases execEnq_next h with ⟨c, i, rfl⟩ | ⟨_, _, hg, f, _, ⟨hl, rfl⟩ | ⟨_, rfl⟩ | rfl⟩
    · exact C.raise _ _ _
    · exact ans _ _ (C.trans _ _ _ (C.enq _ _ hl) (C.phase _ _ _ (by show (s.grab u.toNat).gph ≠ _; rw [hg]; simp) (by simp)))
    · exact ans _ _ (C.trans _ _ _ (C.log _ _) (C.phase _ _ _ (by show (s.grab u.toNat).gph ≠ _; rw [hg]; simp) (by simp)))
    · exact C.keepOpen _ _ _ _
  | gstat u =>
    rcases execGstat_next h with ⟨c, i, rfl⟩ | ⟨_, _, hg, l, n, hl, rfl⟩
    · exact C.raise _ _ _
    · exact ans _ _ (C.gstat _ _ _ _ hl (by rw [hg]; simp))
  | gpace u =>
    rcases execGpace_next h with ⟨c, i, rfl⟩ | ⟨_, _, hg, rfl⟩
    · exact C.raise _ _ _
    · exact ans _ _ (C.phase _ _ _ (by rw [hg]; simp) (by simp))
  | deq u =>
    rcases execDeq_next h with ⟨c, i, rfl⟩ | rfl | ⟨f, fs, hd, rfl⟩
    · exact C.raise _ _ _
    · exact C.keepOpen _ _ _ _
    · exact ans _ _ (C.deq _ _ _ hd)
  | cancel u =>
    rcases execCancel_next h with ⟨c, i, rfl⟩ | rfl
    · exact C.raise _ _ _
    · exact ans _ _ (C.cancel _)
  | kfinit u =>
    rcases execKfinit_next h with ⟨c, i, rfl⟩ | ⟨_, _, rfl⟩
    · exact C.raise _ _ _
    · exact ans _ _ (C.filt _ _ _)
  | kfpred u =>
    rcases execKfpred_next h with ⟨c, i, rfl⟩ | ⟨_, _, k, rfl⟩
    · exact C.raise _ _ _
    · exact ans _ _ (C.filt _ _ _)
  | kfcorr u =>
    rcases execKfcorr_next h with ⟨c, i, rfl⟩ | ⟨_, _, k, rfl⟩
    · exact C.raise _ _ _
    · exact ans _ _ (C.filt _ _ _)

/-- A closed relation holds across every step. -/
theorem Closed.step {R : State → State → Prop} (C : Closed R) {s t : State} (h : step s = .next t) : R s t := by
  obtain ⟨r, hm, rfl | ⟨_, k⟩⟩ := step_next h
  · exact C.moved _ _ hm
  · refine C.trans _ _ _ (C.moved _ _ hm) ?_
    cases k with
    | idle h => exact h ▸ C.refl _
    | raised c i h => exact h ▸ C.raise _ _ _
    | viewByte v o b hv h => exact h ▸ C.answer _ _
    | op i hr h => exact C.exec h
    | cycleOp j i q hp ho hq h =>
      rcases h with rfl | ⟨e, _, _, rfl⟩
      · exact C.exec hq
      · exact C.trans _ _ _ (C.exec hq) (C.took _ _ _ _ _ rfl)
    | image j hp ho hi h =>
      exact readImage_next (Inv := R r) (fun q o b hq => C.trans _ _ _ hq (C.got _ _ _ _)) (fun q hq => C.trans _ _ _ hq (C.gotd _ _)) (C.refl _) h
    | detect j hp ho hi h => exact h ▸ C.detect _ _
    | output j hp ho hi h => exact h ▸ C.output _ _

end Sys2Proof.Machine
end

