-- ==== Sys2Proof/Laws/Codec.lean ====
section
/-! SUPPORT. The laws of the block codec and of the command word's fields: what `enc9`, `dec9` and
`byteOf` compute, in numbers (30_encoding.md R93 to R99). -/

namespace Sys2Proof

/-- Byte `n` of a value as a number. -/
theorem byteOf_toNat (v : U64) (n : Nat) : (byteOf v n).toNat = v.toNat / 2 ^ (8 * n) % 256 := by
  simp [byteOf, BitVec.extractLsb'_toNat, Nat.shiftRight_eq_div_pow]

/-- The nine bytes of `enc9`, written out. -/
theorem enc9_eq (v : U64) :
    enc9 v = [0, byteOf v 0, byteOf v 1, byteOf v 2, byteOf v 3, byteOf v 4, byteOf v 5, byteOf v 6,
      byteOf v 7] := rfl

/-- A sum over 0 .. 7, written out. -/
theorem sum_range_eight (f : Nat → Nat) :
    ((List.range 8).map f).sum = f 0 + f 1 + f 2 + f 3 + f 4 + f 5 + f 6 + f 7 := by
  simp only [List.range, List.range.loop, List.map_cons, List.map_nil, List.sum_cons, List.sum_nil]
  omega

/-- `dec9` of nine bytes, its sum written out. -/
theorem dec9_eq (b0 b1 b2 b3 b4 b5 b6 b7 b8 : Byte) :
    dec9 [b0, b1, b2, b3, b4, b5, b6, b7, b8] =
      BitVec.ofNat 64 (b1.toNat * 2 ^ (8 * 0) + b2.toNat * 2 ^ (8 * 1) + b3.toNat * 2 ^ (8 * 2) +
        b4.toNat * 2 ^ (8 * 3) + b5.toNat * 2 ^ (8 * 4) + b6.toNat * 2 ^ (8 * 5) +
        b7.toNat * 2 ^ (8 * 6) + b8.toNat * 2 ^ (8 * 7)) := by
  unfold dec9
  rw [sum_range_eight]
  simp only [List.getD_cons_zero, List.getD_cons_succ, Nat.add_comm 1]

/-- Eight value bytes make a value below 2^64. -/
theorem eight_bytes_lt (b1 b2 b3 b4 b5 b6 b7 b8 : Nat) (h1 : b1 < 256) (h2 : b2 < 256)
    (h3 : b3 < 256) (h4 : b4 < 256) (h5 : b5 < 256) (h6 : b6 < 256) (h7 : b7 < 256)
    (h8 : b8 < 256) :
    b1 + b2 * 2 ^ 8 + b3 * 2 ^ 16 + b4 * 2 ^ 24 + b5 * 2 ^ 32 + b6 * 2 ^ 40 + b7 * 2 ^ 48 +
      b8 * 2 ^ 56 < 2 ^ 64 := by
  norm_num
  linarith

/-- A command word is its three fields put together (30_encoding.md R98). -/
theorem cw_fields (cw : Word) : cw = cwOpc cw ++ cwUnit cw ++ cwZero cw := by
  unfold cwOpc cwUnit cwZero
  apply BitVec.eq_of_getLsbD_eq
  intro i hi
  simp only [BitVec.getLsbD_append, BitVec.getLsbD_extractLsb']
  by_cases h1 : i < 16
  · simp [h1]
  · by_cases h2 : i < 24
    · have e2 : 16 + (i - 16) = i := by omega
      have : i - 16 < 8 := by omega
      simp [h1, this, e2]
    · have e3 : 24 + (i - 16 - 8) = i := by omega
      have : ¬ i - 16 < 8 := by omega
      have h4 : i - 16 - 8 < 8 := by omega
      simp [h1, this, h4, e3]

end Sys2Proof
end

