-- ==== Sys2Proof/Laws/Kalman.lean ====
section
/-! SUPPORT. Over the rationals the matrix operations of the filter unit are Mathlib's: one lemma per
operation (42_kalman.md R201). -/

namespace Sys2Proof.Machine

/-- A 4×2 matrix as a Mathlib matrix. -/
def mat42 (a : M42) : Matrix (Fin 4) (Fin 2) ℚ :=
  Matrix.of ![vec2 a.e0, vec2 a.e1, vec2 a.e2, vec2 a.e3]

theorem dot4_rational (a b : V4 Kf) : dot4 .rational a b = ∑ i, vec4 a i * vec4 b i := by
  simp only [dot4, kfAdd, kfMul, Fin.sum_univ_four]
  rfl

theorem dot2_rational (a b : V2 Kf) : dot2 .rational a b = ∑ i, vec2 a i * vec2 b i := by
  simp only [dot2, kfAdd, kfMul, Fin.sum_univ_two]
  rfl

theorem mat44_transpose (a : M44) : mat44 (trans44 a) = (mat44 a).transpose := by
  ext i j
  fin_cases i <;> fin_cases j <;> rfl

theorem mat42_transpose (a : M24) : mat42 (trans24 a) = (mat24 a).transpose := by
  ext i j
  fin_cases i <;> fin_cases j <;> rfl

theorem vec4_mulVec44 (a : M44) (x : V4 Kf) :
    vec4 (mulVec44 .rational a x) = (mat44 a).mulVec (vec4 x) := by
  ext i
  fin_cases i <;> exact dot4_rational _ _

theorem vec2_mulVec24 (a : M24) (x : V4 Kf) :
    vec2 (mulVec24 .rational a x) = (mat24 a).mulVec (vec4 x) := by
  ext i
  fin_cases i <;> exact dot4_rational _ _

theorem vec4_mulVec42 (a : M42) (x : V2 Kf) :
    vec4 (mulVec42 .rational a x) = (mat42 a).mulVec (vec2 x) := by
  ext i
  fin_cases i <;> exact dot2_rational _ _

theorem mat44_mul (a b : M44) : mat44 (mul44 .rational a b) = mat44 a * mat44 b := by
  ext i j
  fin_cases i <;> fin_cases j <;>
    exact (dot4_rational _ _).trans (by simp only [Matrix.mul_apply, Fin.sum_univ_four]; rfl)

theorem mat24_mul (a : M24) (b : M44) : mat24 (mul24x44 .rational a b) = mat24 a * mat44 b := by
  ext i j
  fin_cases i <;> fin_cases j <;>
    exact (dot4_rational _ _).trans (by simp only [Matrix.mul_apply, Fin.sum_univ_four]; rfl)

theorem mat22_mul (a : M24) (b : M42) : mat22 (mul24x42 .rational a b) = mat24 a * mat42 b := by
  ext i j
  fin_cases i <;> fin_cases j <;>
    exact (dot4_rational _ _).trans (by simp only [Matrix.mul_apply, Fin.sum_univ_four]; rfl)

theorem mat42_mul (a : M44) (b : M42) : mat42 (mul44x42 .rational a b) = mat44 a * mat42 b := by
  ext i j
  fin_cases i <;> fin_cases j <;>
    exact (dot4_rational _ _).trans (by simp only [Matrix.mul_apply, Fin.sum_univ_four]; rfl)

theorem mat42_mul22 (a : M42) (b : M22) : mat42 (mul42x22 .rational a b) = mat42 a * mat22 b := by
  ext i j
  fin_cases i <;> fin_cases j <;>
    exact (dot2_rational _ _).trans (by simp only [Matrix.mul_apply, Fin.sum_univ_two]; rfl)

theorem mat44_mul24 (a : M42) (b : M24) : mat44 (mul42x24 .rational a b) = mat42 a * mat24 b := by
  ext i j
  fin_cases i <;> fin_cases j <;>
    exact (dot2_rational _ _).trans (by simp only [Matrix.mul_apply, Fin.sum_univ_two]; rfl)

theorem mat44_add (a b : M44) : mat44 (add44 .rational a b) = mat44 a + mat44 b := by
  ext i j
  fin_cases i <;> fin_cases j <;> rfl

theorem mat44_sub (a b : M44) : mat44 (sub44 .rational a b) = mat44 a - mat44 b := by
  ext i j
  fin_cases i <;> fin_cases j <;> rfl

theorem mat22_add (a b : M22) : mat22 (add22 .rational a b) = mat22 a + mat22 b := by
  ext i j
  fin_cases i <;> fin_cases j <;> rfl

theorem vec4_add (a b : V4 Kf) : vec4 (addV4 .rational a b) = vec4 a + vec4 b := by
  ext i
  fin_cases i <;> rfl

theorem vec2_sub (a b : V2 Kf) : vec2 (subV2 .rational a b) = vec2 a - vec2 b := by
  ext i
  fin_cases i <;> rfl

theorem mat44_identity : mat44 (identity44 .rational) = 1 := by
  ext i j
  fin_cases i <;> fin_cases j <;> rfl

/-- The determinant of the unit is the determinant. -/
theorem det22_rational (m : M22) : det22 .rational m = (mat22 m).det := by
  rw [Matrix.det_fin_two]
  rfl

/-- The inverse of the unit is the inverse, where there is one (42_kalman.md R207). -/
theorem inverse22_rational (m : M22) (h : (mat22 m).det ≠ 0) :
    mat22 (inverse22 .rational m (det22 .rational m)) * mat22 m = 1 := by
  rw [← det22_rational] at h
  have e : det22 .rational m = m.e0.e0 * m.e1.e1 - m.e0.e1 * m.e1.e0 := rfl
  rw [e] at h
  ext i j
  fin_cases i <;> fin_cases j <;>
    simp [Matrix.mul_apply, mat22, vec2, inverse22, kfDiv, kfOne, kfMul, kfNeg, e] <;>
    field_simp <;> ring

/-- The innovation covariance of the unit is the matrix `Hm P Hm^T + R` (42_kalman.md R207). -/
theorem mat22_innovationCov {c : Cfg} (h : c.kfSys = .rational) (k : Kfu) :
    mat22 (innovationCov c k) = innovationMatrix c k := by
  simp only [innovationCov, h, mat22_add, mat22_mul, mat24_mul, mat42_transpose, innovationMatrix]

end Sys2Proof.Machine
end

