-- ==== Sys2Proof/Laws/PerInstr.lean ====
section
/-! SUPPORT. Facts said of every operation as a term, one lemma per constructor. -/

namespace Sys2Proof.Laws

open Sys2Proof

/-- The three fields of a command word are those of any OPC and UNIT it is put together from
(30_encoding.md R98). -/
theorem fields_of_append (o u : BitVec 8) (z : BitVec 16) :
    cwOpc (o ++ u ++ z) = o ∧ cwUnit (o ++ u ++ z) = u ∧ cwZero (o ++ u ++ z) = z := by
  have ho := o.isLt
  have hu := u.isLt
  have hz := z.isLt
  have h : (o ++ u ++ z : BitVec 32).toNat = (o.toNat * 2 ^ 8 + u.toNat) * 2 ^ 16 + z.toNat := by
    rw [BitVec.toNat_append, ← Nat.shiftLeft_add_eq_or_of_lt z.isLt, Nat.shiftLeft_eq,
      BitVec.toNat_append, ← Nat.shiftLeft_add_eq_or_of_lt u.isLt, Nat.shiftLeft_eq]
  refine ⟨?_, ?_, ?_⟩ <;> apply BitVec.eq_of_toNat_eq <;>
    simp only [cwOpc, cwUnit, cwZero, BitVec.extractLsb'_toNat, Nat.shiftRight_eq_div_pow, h] <;>
    omega

/-- The word of an operation has its opcode, its UNIT and a zero field (30_encoding.md R98, R101). -/
def EncodeFields.Statement (i : Instr) : Prop :=
  cwOpc (encode i) = i.opcode ∧ cwUnit (encode i) = i.unit ∧ cwZero (encode i) = 0

theorem EncodeFields.alloc (u : UnitNo) : EncodeFields.Statement (.alloc u) := fields_of_append _ _ _

theorem EncodeFields.lock (u : UnitNo) : EncodeFields.Statement (.lock u) := fields_of_append _ _ _

theorem EncodeFields.unlock (u : UnitNo) : EncodeFields.Statement (.unlock u) := fields_of_append _ _ _

theorem EncodeFields.wrslot (u : UnitNo) : EncodeFields.Statement (.wrslot u) := fields_of_append _ _ _

theorem EncodeFields.rdslot (u : UnitNo) : EncodeFields.Statement (.rdslot u) := fields_of_append _ _ _

theorem EncodeFields.encmd (u : UnitNo) : EncodeFields.Statement (.encmd u) := fields_of_append _ _ _

theorem EncodeFields.decmd (u : UnitNo) : EncodeFields.Statement (.decmd u) := fields_of_append _ _ _

theorem EncodeFields.gstart (u : UnitNo) : EncodeFields.Statement (.gstart u) := fields_of_append _ _ _

theorem EncodeFields.gopen (u : UnitNo) : EncodeFields.Statement (.gopen u) := fields_of_append _ _ _

theorem EncodeFields.gchk (u : UnitNo) : EncodeFields.Statement (.gchk u) := fields_of_append _ _ _

theorem EncodeFields.gread (u : UnitNo) : EncodeFields.Statement (.gread u) := fields_of_append _ _ _

theorem EncodeFields.gwrap (u : UnitNo) : EncodeFields.Statement (.gwrap u) := fields_of_append _ _ _

theorem EncodeFields.enq (u : UnitNo) : EncodeFields.Statement (.enq u) := fields_of_append _ _ _

theorem EncodeFields.gstat (u : UnitNo) : EncodeFields.Statement (.gstat u) := fields_of_append _ _ _

theorem EncodeFields.gpace (u : UnitNo) : EncodeFields.Statement (.gpace u) := fields_of_append _ _ _

theorem EncodeFields.deq (u : UnitNo) : EncodeFields.Statement (.deq u) := fields_of_append _ _ _

theorem EncodeFields.cancel (u : UnitNo) : EncodeFields.Statement (.cancel u) := fields_of_append _ _ _

theorem EncodeFields.kfinit (u : UnitNo) : EncodeFields.Statement (.kfinit u) := fields_of_append _ _ _

theorem EncodeFields.kfpred (u : UnitNo) : EncodeFields.Statement (.kfpred u) := fields_of_append _ _ _

theorem EncodeFields.kfcorr (u : UnitNo) : EncodeFields.Statement (.kfcorr u) := fields_of_append _ _ _

end Sys2Proof.Laws
end

