-- ==== Sys2Proof/Laws/Runs.lean ====
section
/-! SUPPORT. Runs of the machine: what a given event leads to, which steps are no step of an agent, and how
what every step keeps holds along a run. -/

namespace Sys2Proof.Machine

@[simp] theorem given_script (s : State) (e : Event) : (s.given e).script = [e] := rfl

/-- A given event is the one the next step takes. -/
theorem step_given (s : State) (e : Event) :
    step (s.given e) = runEvent e { s with script := [] } := rfl

theorem idleBetween_refl (s : State) : idleBetween s s := ⟨fun _ => rfl, rfl⟩

/-- Two states that differ in the event only: no agent took a step. -/
theorem idleBetween_event (s : State) (es : List Event) (n : Nat) (ip : Input) :
    idleBetween s { s with script := es, clock := n, inp := ip } := ⟨fun _ => rfl, rfl⟩

/-- An operation that is kept open as it was is no step (20_memory.md R72). -/
theorem idleBetween_keepOpen {s : State} {es : List Event} {n : Nat} {ip : Input} {i : Instr}
    {pl : Payload} {g : List (Nat × Byte)} (h : s.outstandingOf ip.port = some ⟨i, pl, g⟩) :
    idleBetween s
      (({ s with script := es, clock := n, inp := ip } : State).keepOpen i pl g) := by
  refine ⟨fun q => ?_, rfl⟩
  rw [outstandingOf_keepOpen]
  split
  · rename_i hq
    rw [hq]
    exact h.symm
  · rfl

/-- Where no agent took a step, every port has the operation outstanding that it had. -/
theorem idleBetween_outstanding {s t : State} (h : idleBetween s t) (q : Port) :
    t.outstandingOf q = s.outstandingOf q := h.1 q

/-- What every step keeps, and what does not depend on the schedule, holds along a run from the moment it
holds (30_encoding.md R106 and the invariants of Safety). -/
theorem Run.keeps {Inv : State → Prop} (r : Run)
    (hstep : ∀ s t, Inv s → step s = .next t → Inv t) (hgiven : ∀ s e, Inv s → Inv (s.given e))
    {n : Nat} (hn : Inv (r.state n)) : ∀ m, n ≤ m → Inv (r.state m) := by
  intro m hm
  induction m, hm using Nat.le_induction with
  | base => exact hn
  | succ k _ ih => exact hstep _ _ (hgiven _ _ ih) (r.steps k)

end Sys2Proof.Machine
end

