-- ==== Sys2Proof/Machine/Listing.lean ====
section
/-! DEFINITION. The listing line of an operation (30_encoding.md R104): port, mnemonic, unit, payload,
result. A way of writing operations down; no rule of the machine reads it. -/

namespace Sys2Proof.Machine

/-- The mnemonic of an operation (30_encoding.md R101). -/
def mnemonic : Instr → String
  | .alloc _ => "ALLOC"
  | .lock _ => "LOCK"
  | .unlock _ => "UNLOCK"
  | .wrslot _ => "WRSLOT"
  | .rdslot _ => "RDSLOT"
  | .encmd _ => "ENCMD"
  | .decmd _ => "DECMD"
  | .gstart _ => "GSTART"
  | .gopen _ => "GOPEN"
  | .gchk _ => "GCHK"
  | .gread _ => "GREAD"
  | .gwrap _ => "GWRAP"
  | .enq _ => "ENQ"
  | .gstat _ => "GSTAT"
  | .gpace _ => "GPACE"
  | .deq _ => "DEQ"
  | .cancel _ => "CANCEL"
  | .kfinit _ => "KFINIT"
  | .kfpred _ => "KFPRED"
  | .kfcorr _ => "KFCORR"

/-- The name of a port (60_exceptions.md R270). -/
def portName : Port → String
  | .mgr => "MGR"
  | .grb i => "GRB[" ++ Nat.repr i ++ "]"
  | .wtr => "WTR"
  | .trk j => "TRK[" ++ Nat.repr j ++ "]"

/-- The unit of a listing line; nothing for the operations that take no unit, whose UNIT is 0. -/
def unitText (i : Instr) : String :=
  match i with
  | .alloc _ => ""
  | .encmd _ => ""
  | .deq _ => ""
  | .cancel _ => ""
  | j => " " ++ Nat.repr j.unit.toNat

/-- Text after a mark, where there is any. -/
def marked (mark : String) : Option String → String
  | none => ""
  | some t => mark ++ t

/-- A listing line: `port: MNEMONIC unit, payload -> result` (30_encoding.md R104). -/
def listing (p : Port) (i : Instr) (payload result : Option String) : String :=
  portName p ++ ": " ++ mnemonic i ++ unitText i ++
    marked (if unitText i = "" then " " else ", ") payload ++ marked " -> " result

/-- One hexadecimal digit. -/
def hexDigit (n : Nat) : Char :=
  (['0', '1', '2', '3', '4', '5', '6', '7', '8', '9', 'A', 'B', 'C', 'D', 'E', 'F'] : List Char).getD n '0'

/-- A byte as two hexadecimal digits. -/
def hexByte (b : Byte) : String := String.ofList [hexDigit (b.toNat / 16), hexDigit (b.toNat % 16)]

/-- A byte sequence, lowest address first, separated by spaces (30_encoding.md R104). -/
def hexBytes (bs : List Byte) : String := " ".intercalate (bs.map hexByte)

end Sys2Proof.Machine
end

