-- ==== Sys2Proof/Tests/Slice0.lean ====
section
/-! SUPPORT. Tests on small states. Each expected value is copied or worked out by hand from the spec file
named beside it; `witness_…` theorems (second half) show that the hypotheses of the statements of
Certificates/Slice0/Obligations.lean can be met, clause by clause, with a value at the end of its range. -/

namespace Sys2Proof.Tests

set_option Elab.async false

open Sys2Proof Sys2Proof.Machine

/-! ## Helpers -/

/-- The state an outcome goes on to; the reset state where it stops. -/
def nextOf : Out → State
  | .next t => t
  | .fault _ => State.reset
  | .refused _ => State.reset

/-- The machine goes on. -/
def goesOn : Out → Bool
  | .next _ => true
  | .fault _ => false
  | .refused _ => false

theorem next_nextOf {o : Out} (h : goesOn o = true) : o = .next (nextOf o) := by
  cases o with
  | next t => rfl
  | fault f => simp [goesOn] at h
  | refused r => simp [goesOn] at h

/-- The response an operation gives; none where it gives none. -/
def answerOf (s : State) (i : Instr) : Option Response :=
  match exec i s with
  | .next t => if t.resp = s.resp then none else t.resp.getLast?.map Prod.snd
  | _ => none

/-- Configuration A of 40_buffer_codec.md R120. -/
def cfgA : Cfg :=
  { Config.reference with
    geo := ⟨1, 32, 2, 3, 1⟩, handles := [.int 0], labels := ["cam0"], t := 1, nodes := [[]],
    ledXY := [(0, 0)] }

/-- Configuration B, with a queue of two and an fps window of three. -/
def cfgB : Cfg := { Config.reference with qcap := 2, fpsWindow := 3 }

/-- The smallest geometry of table 2.2, one source. -/
def cfgS : Cfg := { cfgA with geo := ⟨1, 22, 1, 1, 3⟩ }

/-- The operands of a step: port, payload, draws. -/
def on (p : Port) (s : State) : State := { s with inp := ⟨p, default, default⟩ }

/-- After ALLOC in configuration `c`. -/
def made (c : Cfg) : State := { State.resetWith c with allocated := true, geo := c.geo }

/-- The image of B17: `img[o] = o + 1`. -/
def imgB : Image := ⟨2, 24, 1, (List.range 48).map fun o => BitVec.ofNat 8 (o + 1)⟩

/-- An image of the smallest geometry. -/
def imgS : Image := ⟨1, 22, 1, (List.range 22).map fun o => BitVec.ofNat 8 (o + 1)⟩

/-- A Frame with index `k`. -/
def frame (k : U64) (img : Image) : Frame := ⟨k, 1000, none, img, "cam1"⟩

/-- Configuration B allocated, both Grabbers in phase `p` with an image and a frame of index 9, Grabber 1's
port to move. -/
def inPhase (p : Phase) : State :=
  on (.grb 1) { made cfgB with
    grb := List.replicate 2 ⟨p, .running, 5, some imgB, some (frame 9 imgB), none, 2⟩ }

/-- `s` with other draws. -/
def drawing (d : Draws) (s : State) : State := { s with inp := { s.inp with draws := d } }

/-- `s` with another payload. -/
def paying (p : Payload) (s : State) : State := { s with inp := { s.inp with payload := p } }

/-- Grabber 1 after an operation. -/
def grab1 (s : State) (i : Instr) : Grabber := (nextOf (exec i s)).grab 1

/-! ## Well-formedness: each check refuses an ill-formed term (30_encoding.md R98; 00_scope.md R8, R9) -/

theorem test_wf_unit_of_unitless :
    (Instr.alloc 1).wf = false ∧ (Instr.encmd 1).wf = false ∧ (Instr.deq 5).wf = false ∧
      (Instr.cancel 1).wf = false := by decide

theorem test_wf_accepts :
    (Instr.alloc 0).wf = true ∧ (Instr.deq 0).wf = true ∧ (Instr.wrslot 255).wf = true := by decide

theorem test_geo_bounds :
    Geo.legal ⟨0, 22, 1, 1, 3⟩ = false ∧ Geo.legal ⟨257, 22, 1, 1, 3⟩ = false ∧
      Geo.legal ⟨1, 21, 1, 1, 3⟩ = false ∧ Geo.legal ⟨1, 22, 0, 1, 3⟩ = false ∧
      Geo.legal ⟨1, 22, 1, 3, 3⟩ = false ∧ Geo.legal ⟨1, 22, 1, 0, 3⟩ = false ∧
      Geo.legal ⟨1, 22, 1, 3, 0⟩ = false ∧ Geo.legal ⟨256, 22, 1, 3, 1⟩ = true := by decide

theorem test_cfg_checks :
    cfgB.legal = true ∧ cfgA.legal = true ∧ cfgS.legal = true ∧
      ({ cfgA with qcap := 0 } : Cfg).legal = false ∧
      ({ cfgA with swatch := [(96, 1)] } : Cfg).legal = false ∧
      ({ cfgA with swatch := [(5, 1), (5, 2)] } : Cfg).legal = false ∧
      ({ cfgA with labels := [] } : Cfg).legal = false ∧
      ({ cfgA with t := 257 } : Cfg).legal = false := by decide +kernel

/-! ## Decoding: words written out from 30_encoding.md R98 and R101 (table 2.4) -/

theorem test_decode_buffer_words :
    decode 0x01000000 = .ok (.alloc 0) ∧ decode 0x02010000 = .ok (.lock 1) ∧
      decode 0x03010000 = .ok (.unlock 1) ∧ decode 0x04010000 = .ok (.wrslot 1) ∧
      decode 0x05010000 = .ok (.rdslot 1) ∧ decode 0x06000000 = .ok (.encmd 0) ∧
      decode 0x07010000 = .ok (.decmd 1) := by decide

theorem test_decode_relay_words :
    decode 0x10000000 = .ok (.gstart 0) ∧ decode 0x11FF0000 = .ok (.gopen 255) ∧
      decode 0x12000000 = .ok (.gchk 0) ∧ decode 0x13000000 = .ok (.gread 0) ∧
      decode 0x14000000 = .ok (.gwrap 0) ∧ decode 0x15010000 = .ok (.enq 1) ∧
      decode 0x16000000 = .ok (.gstat 0) ∧ decode 0x17000000 = .ok (.gpace 0) ∧
      decode 0x18000000 = .ok (.deq 0) ∧ decode 0x19000000 = .ok (.cancel 0) := by decide

theorem test_decode_filter_words :
    decode 0x20000000 = .ok (.kfinit 0) ∧ decode 0x21030000 = .ok (.kfpred 3) ∧
      decode 0x22800000 = .ok (.kfcorr 128) := by decide

theorem test_decode_illegal_words :
    decode 0x00000000 = .error .unassignedOpcode ∧ decode 0x08000000 = .error .unassignedOpcode ∧
      decode 0x1A000000 = .error .unassignedOpcode ∧ decode 0x23000000 = .error .unassignedOpcode ∧
      decode 0xFF000000 = .error .unassignedOpcode ∧
      decode 0x04000001 = .error .zeroFieldNotZero ∧
      decode 0x02018000 = .error .zeroFieldNotZero := by decide

theorem test_encode_words :
    encode (.kfpred 3) = 0x21030000 ∧ encode (.enq 1) = 0x15010000 ∧
      decodeTableWord 32 0x04010000 = some (.wrslot 1) := by decide

/-! ## The codec: table 2.1 -/

theorem test_enc9 :
    enc9 1000 = [0x00, 0xE8, 0x03, 0, 0, 0, 0, 0, 0] ∧
      enc9 0x0102030405060708 = [0x00, 8, 7, 6, 5, 4, 3, 2, 1] ∧
      enc9 1234567890123 = [0x00, 0xCB, 0x04, 0xFB, 0x71, 0x1F, 0x01, 0, 0] := by decide

theorem test_dec9_ignores_byte_zero :
    dec9 [0x5A, 1, 0, 0, 0, 0, 0, 0, 0] = 1 ∧
      dec9 [0xFF, 0xFF, 0xFF, 0xFF, 0xFF, 0xFF, 0xFF, 0xFF, 0xFF] = BitVec.ofNat 64 (2 ^ 64 - 1) ∧
      enc9 (dec9 [0x5A, 1, 0, 0, 0, 0, 0, 0, 0]) = [0, 1, 0, 0, 0, 0, 0, 0, 0] := by decide

/-! ## Addresses: table 2.2 -/

theorem test_sizes :
    slotBytes cfgA.geo = 288 ∧ imgBytes cfgA.geo = 192 ∧ sfbBytes cfgB.geo = 240 ∧
      slotBase cfgB.geo 1 = 120 ∧ addr cfgA.geo 0 1 5 2 = 113 ∧ addr cfgB.geo 1 4 23 0 = 239 := by
  decide +kernel

theorem test_block_addresses :
    (List.range 18).map (metaAddr cfgA.geo 0) =
        [222, 223, 224, 225, 226, 227, 228, 229, 230, 231, 232, 233, 234, 235, 236, 237, 238, 239] ∧
      (List.range 18).map (metaAddr cfgB.geo 1) =
        [170, 171, 172, 194, 195, 196, 218, 219, 220, 173, 174, 175, 197, 198, 199, 221, 222, 223] ∧
      (List.range 18).map (metaAddr cfgS.geo 0) =
        [22, 23, 24, 44, 45, 46, 66, 67, 68, 25, 26, 27, 47, 48, 49, 69, 70, 71] := by
  decide +kernel

/-! ## Source handles: G21 -/

theorem test_classify :
    [Handle.str "0", .str "12", .int 7, .str "-1", .str "", .str "cam0", .str "video.mp4"].map
        classify =
      [.device 0, .device 12, .device 7, .path "-1", .path "", .path "cam0", .path "video.mp4"] := by
  decide +kernel

/-! ## Listing lines: the examples of R104, P1, and table 2.1 -/

theorem test_listing :
    listing (.grb 0) (.wrslot 0) (some "(img, 1000, 7)") none = "GRB[0]: WRSLOT 0, (img, 1000, 7)" ∧
      listing (.trk 0) (.decmd 0) none (some "(1000, 7)") = "TRK[0]: DECMD 0 -> (1000, 7)" ∧
      listing .mgr (.alloc 0) (some "(2, 24, 2, 1, 3)") none = "MGR: ALLOC (2, 24, 2, 1, 3)" ∧
      hexBytes [0, 0xE8, 3] = "00 E8 03" := by decide +kernel

/-! ## Buffer operations: table 2.3 -/

/-- B1. -/
theorem test_alloc :
    let s := paying { (default : Payload) with geo := cfgB.geo } (on .mgr (State.resetWith cfgB))
    answerOf s (.alloc 0) = some (.ok .none) ∧ (nextOf (exec (.alloc 0) s)).allocated = true ∧
      (nextOf (exec (.alloc 0) s)).memRead 239 = some 0 ∧
      (nextOf (exec (.alloc 0) s)).memRead 240 = none := by decide +kernel

/-- B2, B6, B7. -/
theorem test_alloc_faults :
    answerOf (on .mgr (made cfgB)) (.alloc 0) = some (.fault 0x13 .none) ∧
      answerOf (paying { (default : Payload) with geo := ⟨2, 24, 4, 1, 3⟩ }
        (on .mgr (State.resetWith cfgB))) (.alloc 0) = some (.fault 0x17 (.config ⟨2, 24, 4, 1, 3⟩)) ∧
      answerOf (on (.trk 0) (State.resetWith cfgB)) (.alloc 0) =
        some (.fault 0x11 (.word 0x01000000)) := by decide +kernel

/-- B15 under both scopes. -/
theorem test_lock_scopes :
    let after (c : Cfg) : State := on (.trk 0) (nextOf (exec (.lock 0) (on (.trk 0) (made c))))
    answerOf (after cfgB) (.lock 1) = some (.fault 0x19 (.port (.trk 0))) ∧
      answerOf (after { cfgB with scope := .slot }) (.lock 1) = some (.ok .none) := by decide +kernel

/-- B16: a wait, then granted once the holder has released. -/
theorem test_lock_waits :
    let held : State := { made cfgB with locks := [some (.trk 0)] }
    answerOf (on (.trk 1) held) (.lock 1) = none ∧
      answerOf (on (.trk 1) (nextOf (exec (.unlock 1) (on (.trk 0) held)))) (.lock 1) =
        some (.ok .none) := by decide +kernel

/-- B14. -/
theorem test_unlock_misuse :
    answerOf (on (.trk 0) (made cfgB)) (.unlock 0) = some (.fault 0x19 (.port (.trk 0))) := by
  decide +kernel

/-- The direct form in the smallest geometry: block bytes of row 1 and row 3, image bytes, the lock free
again; 40 writes and the end, in an order that is not the order of addresses. -/
theorem test_wrslot_direct :
    let s := drawing { (default : Draws) with picks := List.replicate 41 7 }
      (paying ⟨cfgS.geo, imgS, 0x0102030405060708, 0x1122334455667788, 0, 0, 0⟩
        (on (.grb 0) (made cfgS)))
    let t := nextOf (exec (.wrslot 0) s)
    answerOf s (.wrslot 0) = some (.ok .none) ∧
      [0, 21, 22, 23, 24, 27, 44, 68, 71].map (Memory.read t.sfb) =
        [0x01, 0x16, 0x00, 0x08, 0x07, 0x77, 0x06, 0x01, 0x11] ∧
      t.locks = [none] ∧ (t.grab 0).wip = none ∧ (t.grab 0).gph = .idle := by decide +kernel

/-- B12, B13, and the wait of P4 step 7. -/
theorem test_wrslot_refusals :
    answerOf (on (.grb 0) (made cfgB)) (.wrslot 1) = some (.fault 0x15 (.unit 1)) ∧
      answerOf (paying { (default : Payload) with image := ⟨2, 32, 1, List.replicate 64 0⟩ }
        (on (.grb 1) (made cfgB))) (.wrslot 1) = some (.fault 0x18 (.shape 2 32 1)) ∧
      answerOf { inPhase .wr with locks := [some (.trk 0)] } (.wrslot 1) = none := by decide +kernel

/-- B10, B11, B8. -/
theorem test_rdslot :
    answerOf (on (.trk 1) (made cfgB)) (.rdslot 1) = some (.ok (.view ⟨120, 120⟩)) ∧
      answerOf (on (.trk 0) (made cfgB)) (.rdslot 2) = some (.fault 0x14 (.unit 2)) ∧
      answerOf (on (.trk 0) (State.resetWith cfgB)) (.rdslot 0) = some (.fault 0x12 .none) := by
  decide +kernel

/-- B21. -/
theorem test_view_reads :
    (nextOf (readThroughView ⟨120, 120⟩ 120 (on (.trk 0) (made cfgB)))).resp =
        [(.trk 0, .fault 0x1A (.offset 120))] ∧
      (nextOf (readThroughView ⟨120, 120⟩ 119
        (on (.trk 0) { made cfgB with sfb := [(239, 7)] }))).resp = [(.trk 0, .ok (.byte 7))] := by
  decide +kernel

/-- Table 2.1 by operation, on the Writer's port; ENCMD with UNIT 1 (table 2.4). -/
theorem test_encmd :
    answerOf (paying { (default : Payload) with value := 256 } (on .wtr (State.resetWith cfgB)))
        (.encmd 0) = some (.ok (.bytes [0, 0, 1, 0, 0, 0, 0, 0, 0])) ∧
      answerOf (on .wtr (State.resetWith cfgB)) (.encmd 1) = some (.fault 0x14 (.unit 1)) := by
  decide +kernel

/-- B9, and a block of slot 1 whose bytes 1 and 2 are E8 03. -/
theorem test_decmd :
    let s := drawing { (default : Draws) with picks := List.replicate 19 5 } (on (.trk 0) (made cfgB))
    answerOf s (.decmd 1) = some (.ok (.pair 0 0)) ∧
      answerOf { s with sfb := [(171, 0xE8), (172, 3), (174, 9)] } (.decmd 1) =
        some (.ok (.pair 1000 9)) := by decide +kernel

/-- A torn read (P5): the first 9 choices see the old memory, the rest the new one. -/
theorem test_decmd_torn :
    let s := on (.trk 0) { made cfgA with sfb := [(223, 0x88), (224, 0x13), (232, 0xFF)] }
    let half := nextOf (exec (.decmd 0)
      (drawing { (default : Draws) with picks := List.replicate 11 0 } s))
    let rest := drawing { (default : Draws) with picks := List.replicate 8 0 }
      { half with sfb := [(223, 0xA9), (224, 0x13), (233, 1)] }
    answerOf s (.decmd 0) = none ∧ half.resp = [] ∧
      answerOf rest (.decmd 0) = some (.ok (.pair 5000 511)) := by decide +kernel

/-! ## Grabber, relay, queue: table 2.5 -/

/-- G1, G2. -/
theorem test_gstart :
    let s := on .mgr (State.resetWith cfgB)
    (nextOf (exec (.gstart 0) s)).grab 0 = ⟨.opn, .running, 0, none, none, none, 0⟩ ∧
      answerOf (nextOf (exec (.gstart 0) s)) (.gstart 0) = some (.fault 0x16 (.gstate .running)) := by
  decide +kernel

/-- G3, G4. -/
theorem test_gopen :
    (nextOf (exec (.gopen 1) (inPhase .opn))).faults = [⟨.grb 1, 0x01, .number 1⟩] ∧
      (grab1 (inPhase .opn) (.gopen 1)).gstate = .stopped ∧
      (grab1 (drawing { (default : Draws) with openOk := true } (inPhase .opn)) (.gopen 1)).gph =
        .chk := by decide +kernel

/-- G5, G6. -/
theorem test_gchk :
    (grab1 (inPhase .chk) (.gchk 1)).gph = .read ∧
      (grab1 { inPhase .chk with cancel := true } (.gchk 1)).gph = .idle ∧
      (grab1 { inPhase .chk with cancel := true } (.gchk 1)).gstate = .stopped := by decide +kernel

/-- G7, G8, G17. -/
theorem test_gread :
    grab1 (drawing { (default : Draws) with read := .fail } (inPhase .read)) (.gread 1) =
        { (inPhase .read).grab 1 with gph := .pace } ∧
      grab1 (drawing { (default : Draws) with read := .ok imgS } (inPhase .read)) (.gread 1) =
        { (inPhase .read).grab 1 with img := some imgS, gph := .wrap } ∧
      answerOf (inPhase .chk) (.gread 1) = some (.fault 0x16 (.phase .chk)) := by decide +kernel

/-- G9. -/
theorem test_gwrap :
    grab1 (drawing { (default : Draws) with tick := 1000, wall := some 4 } (inPhase .wrap))
        (.gwrap 1) =
      ⟨.enq, .running, 6, none, some ⟨5, 1000, some 4, imgB, "cam1"⟩, none, 2⟩ := by decide +kernel

/-- G10: the index wraps; the tick never goes back (10_state.md R26). -/
theorem test_gwrap_wraps :
    let s := inPhase .wrap
    let s := { s.modGrab 1 (fun g => { g with seq := BitVec.ofNat 64 (2 ^ 64 - 1) }) with tick := 50 }
    (grab1 s (.gwrap 1)).seq = 0 ∧
      ((grab1 s (.gwrap 1)).frm.map Frame.index) = some (BitVec.ofNat 64 (2 ^ 64 - 1)) ∧
      (nextOf (exec (.gwrap 1) s)).tick = 50 := by decide +kernel

/-- G11, and the wait of G13. -/
theorem test_enq_delivers :
    let s : State := { inPhase .enq with dq := [frame 1 imgB] }
    answerOf s (.enq 1) = some (.ok .delivered) ∧
      (nextOf (exec (.enq 1) s)).dq = [frame 1 imgB, frame 9 imgB] ∧
      answerOf { s with dq := [frame 1 imgB, frame 2 imgB] } (.enq 1) = none := by decide +kernel

/-- G12. -/
theorem test_enq_drops :
    let s := drawing { (default : Draws) with drop := true }
      { inPhase .enq with dq := [frame 1 imgB, frame 2 imgB] }
    let t := nextOf (exec (.enq 1) s)
    answerOf s (.enq 1) = some (.ok .dropped) ∧ t.dq = s.dq ∧ t.log = [.dropFull 1 9] ∧
      (t.grab 1).gph = .wr ∧ t.faults = [] := by decide +kernel

/-- G14. -/
theorem test_wrslot_loop_not_allocated :
    let s : State := { inPhase .wr with allocated := false }
    answerOf s (.wrslot 1) = some (.fault 0x12 .none) ∧
      grab1 s (.wrslot 1) =
        { s.grab 1 with gph := .idle, gstate := .stopped, frm := none } := by decide +kernel

/-- G15. -/
theorem test_gstat :
    let t := nextOf (exec (.gstat 1) (drawing { (default : Draws) with fps := 30 } (inPhase .stat)))
    t.log = [.fps 1 30] ∧ (t.grab 1).fpscnt = 0 ∧ (t.grab 1).frm = none ∧ (t.grab 1).gph = .pace := by
  decide +kernel

/-- G16. -/
theorem test_gpace : (grab1 (inPhase .pace) (.gpace 1)).gph = .chk := by decide +kernel

/-- G18, G19; DEQ with UNIT 5 (table 2.4). -/
theorem test_deq :
    let s := on .wtr { made cfgB with dq := [frame 0 imgB, frame 1 imgB] }
    answerOf s (.deq 0) = some (.ok (.frame (frame 0 imgB))) ∧
      (nextOf (exec (.deq 0) s)).dq = [frame 1 imgB] ∧
      answerOf { s with dq := [] } (.deq 0) = none ∧
      answerOf s (.deq 5) = some (.fault 0x14 (.unit 5)) := by decide +kernel

/-- G20. -/
theorem test_cancel :
    let t := nextOf (exec (.cancel 0) (on .mgr (State.resetWith cfgB)))
    t.cancel = true ∧ (nextOf (exec (.cancel 0) t)).cancel = true ∧ t.faults = [] := by
  decide +kernel

/-! ## The filter: table 2.6 -/

/-- `KX` and `KP` of filter 0 set. -/
def filtered (x : V4 Kf) (p : M44) : State :=
  on (.trk 0) ((State.resetWith cfgB).setFilter 0 ⟨x, p⟩)

/-- K1. -/
theorem test_kfcorr :
    (nextOf (exec (.kfcorr 0) (paying { (default : Payload) with zx := 10, zy := 20 }
        (on (.trk 0) (State.resetWith cfgB))))).filter 0 =
      ⟨⟨5, 10, 0, 0⟩, ⟨⟨1 / 2, 0, 0, 0⟩, ⟨0, 1 / 2, 0, 0⟩, ⟨0, 0, 1, 0⟩, ⟨0, 0, 0, 1⟩⟩⟩ := by
  decide +kernel

/-- K4. -/
theorem test_kfcorr_coupled :
    (nextOf (exec (.kfcorr 0) (paying { (default : Payload) with zx := 12, zy := 21 }
        (filtered ⟨5, 10, 0, 0⟩ ⟨⟨453 / 100, 0, 201 / 100, 0⟩, ⟨0, 453 / 100, 0, 201 / 100⟩,
          ⟨201 / 100, 0, 51 / 50, 0⟩, ⟨0, 201 / 100, 0, 51 / 50⟩⟩)))).filter 0 =
      ⟨⟨848 / 79, 10513 / 553, 201 / 79, 2211 / 553⟩,
        ⟨⟨453 / 553, 0, 201 / 553, 0⟩, ⟨0, 453 / 553, 0, 201 / 553⟩,
          ⟨201 / 553, 0, 3201 / 11060, 0⟩, ⟨0, 201 / 553, 0, 3201 / 11060⟩⟩⟩ := by
  decide +kernel

/-- PP1. -/
theorem test_kfpred :
    answerOf (filtered ⟨1, 2, 3, -1⟩ Config.refIdentity) (.kfpred 0) = some (.ok (.position 4 1)) ∧
      (nextOf (exec (.kfpred 0) (filtered ⟨1, 2, 3, -1⟩ Config.refIdentity))).filter 0 =
        ⟨⟨4, 1, 3, -1⟩, ⟨⟨201 / 100, 0, 1, 0⟩, ⟨0, 201 / 100, 0, 1⟩, ⟨1, 0, 101 / 100, 0⟩,
          ⟨0, 1, 0, 101 / 100⟩⟩⟩ := by decide +kernel

/-- KC6, KC7, KC8. -/
theorem test_kfpred_faults :
    answerOf (on (.trk 1) (State.resetWith cfgB)) (.kfpred 0) = some (.fault 0x15 (.unit 0)) ∧
      answerOf (on .mgr (State.resetWith cfgB)) (.kfpred 0) =
        some (.fault 0x11 (.word 0x21000000)) ∧
      answerOf (on (.trk 0) (State.resetWith cfgB)) (.kfpred 2) = some (.fault 0x14 (.unit 2)) := by
  decide +kernel

/-- KC9 from another state, by the Manager. -/
theorem test_kfinit :
    (nextOf (exec (.kfinit 0) (on .mgr (filtered ⟨1, 2, 3, -1⟩ cfgB.kfQ)))).filter 0 =
      ⟨⟨0, 0, 0, 0⟩, Config.refIdentity⟩ := by decide +kernel

/-! ## The Tracker's functions: table 2.7 and S4, S6, S7 -/

theorem test_match_node :
    let m := fun x => matchNode .rational (some (x, 100)) [⟨0, 100, 100⟩, ⟨1, 200, 100⟩] 30
    [m 110, m 100, m 150, m 130, m 129, m 171] = [some 0, some 0, none, none, some 0, some 1] := by
  decide +kernel

theorem test_match_node_tie :
    matchNode .rational (some (110, 100)) [⟨0, 100, 100⟩, ⟨1, 120, 100⟩] 30 = some 0 ∧
      matchNode .rational (some (110, 100)) [⟨1, 120, 100⟩, ⟨0, 100, 100⟩] 30 = some 1 ∧
      matchNode .rational none [⟨0, 100, 100⟩] 30 = none := by decide +kernel

theorem test_transition :
    transition none (some 0) = (some 0, true, some 0) ∧
      transition (some 0) (some 0) = (some 0, false, none) ∧
      transition (some 1) none = (none, true, none) := by decide

theorem test_trail :
    ([some 1, none, some 3, some 4].foldl (pushTrail 3) ([] : List (Option Nat))) =
      [none, some 3, some 4] := by decide

theorem test_largest_contour :
    (largestContour [⟨40, 0, 0, 0⟩, ⟨55, 1, 0, 0⟩, ⟨55, 2, 0, 0⟩, ⟨12, 0, 0, 0⟩]).map Contour.m00 =
      some 1 := by decide +kernel

theorem test_centroid :
    centroid .rational ⟨50, 50, 5000, 2500⟩ = some (100, 50) ∧
      centroid .rational ⟨0, 0, 5000, 2500⟩ = none := by decide +kernel

theorem test_mask_built_once :
    ([0, 0, 9120, 15, 0].foldl (fun (m : Option Image × Nat) sum =>
        (maskAfter m.1 sum ⟨m.2, 0, 0, []⟩, m.2 + 1)) (none, 1)).1 = some ⟨3, 0, 0, []⟩ := by
  decide

/-- Columns and rows are not swapped: P3's pixel (3, 1) is byte 27 in configuration B. -/
theorem test_led :
    let d := fun v : Byte => (List.replicate 27 0) ++ [v] ++ List.replicate 20 0
    [d 200, d 128, d 129].map (ledState cfgB.geo (3, 1) 128) = [true, false, true] := by
  decide +kernel

/-! ## Witnesses: encodings, addresses, checks -/

theorem witness_EncodeOfDecodeIsTheWord :
    decode 0x21030000 = .ok (.kfpred 3) ∧ decode 0x01FF0000 = .ok (.alloc 255) := by decide

theorem witness_CodecRoundTrip :
    ([0x5A, 1, 0, 0, 0, 0, 0, 0, 0] : List Byte).length = 9 ∧
      ([0, 1, 0, 0, 0, 0, 0, 0, 0x80] : List Byte).length = 9 := by decide

theorem witness_BlockLayoutAndValue :
    (7 < 8) ∧ ((enc9 0x0102030405060708).getD (1 + 7) 0).toNat = 1 := by decide

/-- The first and last byte of both slots. -/
theorem witness_SlotsPartitionTheBuffer :
    (∀ a ∈ [0, 119, 120, 239], a < sfbBytes cfgB.geo) ∧ slotBase cfgB.geo 1 ≤ 120 ∧
      239 < slotBase cfgB.geo 1 + slotBytes cfgB.geo := by decide +kernel

theorem witness_BlocksLieInTheStrip :
    cfgB.geo.legal = true ∧ cfgS.geo.legal = true ∧ (17 < 18) ∧ (8 < 9) := by decide +kernel

/-- An unassigned opcode, a nonzero ZERO field, and a word its port may not issue. -/
theorem witness_IllegalAndForbiddenCommands :
    (on (.trk 0) (made cfgB)).outstanding = none ∧
      ¬ (0x23000000 / 2 ^ 24 ∈ [0x01, 0x02, 0x03, 0x04, 0x05, 0x06, 0x07, 0x10, 0x11, 0x12, 0x13,
        0x14, 0x15, 0x16, 0x17, 0x18, 0x19, 0x20, 0x21, 0x22]) ∧
      ¬ (0x04000001 % 2 ^ 16 = 0) ∧
      permitted (.wrslot 0) (on (.trk 0) (made cfgB)).inp.port = false := by decide +kernel

/-- A second ALLOC; RDSLOT and both forms of WRSLOT before ALLOC. -/
theorem witness_AllocationCheck :
    (permitted (.alloc 0) .mgr = true ∧ allocationPasses (on .mgr (made cfgB)) (.alloc 0) = false) ∧
      (permitted (.rdslot 1) (.trk 1) = true ∧
        allocationPasses (on (.trk 1) (State.resetWith cfgB)) (.rdslot 1) = false) ∧
      (permitted (.wrslot 1) (.grb 1) = true ∧
        allocationPasses { inPhase .wr with allocated := false } (.wrslot 1) = false ∧
        ({ inPhase .wr with allocated := false } : State).outstanding = none ∧
        ((inPhase .wr).grab 1).gph = .wr) ∧
      ((State.resetWith cfgB).grab 1).gph ≠ .wr := by decide +kernel

/-- One past the last slot, one past the last filter, a unit where there is none. -/
theorem witness_UnitRangeCheck :
    (on (.trk 0) (made cfgB)).outstanding = none ∧ permitted (.rdslot 2) (.trk 0) = true ∧
      allocationPasses (on (.trk 0) (made cfgB)) (.rdslot 2) = true ∧
      unitInRange cfgB (.rdslot 2) = false ∧ unitInRange cfgB (.kfpred 2) = false ∧
      unitInRange cfgB (.deq 1) = false ∧ unitInRange cfgB (.rdslot 1) = true := by decide +kernel

theorem witness_OwnershipCheck :
    (on (.grb 0) (made cfgB)).outstanding = none ∧ permitted (.wrslot 1) (.grb 0) = true ∧
      allocationPasses (on (.grb 0) (made cfgB)) (.wrslot 1) = true ∧
      unitInRange cfgB (.wrslot 1) = true ∧ ownedOp (.wrslot 1) = true ∧
      (0 ≠ (Instr.wrslot 1).unit.toNat) ∧ (on (.grb 0) (made cfgB)).inp.port = .grb 0 ∧
      ownedOp (.kfpred 0) = true ∧ permitted (.kfpred 0) (.trk 1) = true := by decide +kernel

theorem witness_PhaseCheck :
    ((inPhase .chk).inp.port = .grb (1 : UnitNo).toNat ∧
        (1 : UnitNo).toNat < (inPhase .chk).cfg.geo.n ∧
        ∀ p ∈ [Phase.opn, .read, .wrap, .enq, .stat, .pace], ((inPhase .chk).grab 1).gph ≠ p) ∧
      ((inPhase .pace).grab 1).gph ≠ .chk ∧
      ((inPhase .stat).outstanding = none ∧ (inPhase .stat).inp.port = .grb (1 : UnitNo).toNat ∧
        (inPhase .stat).allocated = true ∧ ((inPhase .stat).grab 1).gph ≠ .idle ∧
        ((inPhase .stat).grab 1).gph ≠ .wr) ∧
      ((on .mgr (inPhase .pace)).grab 1).gstate ≠ .created := by decide +kernel

/-! ## Witnesses: the step -/

/-- `s` with one event scheduled. -/
def scheduled (e : Event) (s : State) : State := { s with script := [e] }

/-- A word that decodes, a word that does not (G17's neighbour 23), and a port that is not free. -/
theorem witness_StepRunsTheDecodedCommand :
    ((scheduled (.issue (.trk 1) 0x05010000 default default) (made cfgB)).script =
        [.issue (.trk 1) 0x05010000 default default] ∧
      (made cfgB).portFree (.trk 1) = true ∧ decode 0x05010000 = .ok (.rdslot 1)) ∧
    (∀ i, decode 0x23000000 ≠ .ok i) ∧ (made cfgB).portFree (.trk 2) = false := by
  refine ⟨by decide +kernel, ?_, by decide +kernel⟩
  intro i h
  rw [show decode 0x23000000 = .error .unassignedOpcode by decide] at h
  cases h

/-- The largest word that decodes, over the reset state. -/
theorem witness_PlacedWordRunsNext :
    1 ≤ State.reset.cfg.geo.n ∧ 1 ≤ State.reset.cfg.t ∧ 0x22FF0000 < 2 ^ 32 ∧
      decode (BitVec.ofNat 32 0x22FF0000) = .ok (.kfcorr 255) := by decide +kernel

theorem witness_SequencerRunsThePhasesOperation :
    (scheduled (.advance (.grb 1) default) (inPhase .stat)).script =
        [.advance (.grb (1 : UnitNo).toNat) default] ∧
      (1 : UnitNo).toNat < (inPhase .stat).cfg.geo.n ∧
      (inPhase .stat).outstandingOf (.grb (1 : UnitNo).toNat) = none := by decide +kernel

/-- Tracker 1 in phase `p` of its cycle, with a detection. -/
def cycling (p : TrkPhase) : State :=
  scheduled (.advance (.trk 1) default)
    { made cfgB with
      trk := List.replicate 2
        ⟨some imgB, [none, none], [(1, 1), (2, 2)], none, false, ⟨p, ⟨120, 120⟩, false, [], none,
          some (10, 20)⟩⟩ }

theorem witness_SequencerRunsThePhasesOperation_tracker :
    ((cycling .correct).script = [.advance (.trk 1) default] ∧ 1 < (cycling .correct).cfg.t ∧
      (cycling .correct).outstandingOf (.trk 1) = none ∧
      ((cycling .correct).tracker 1).cyc.ph = .correct ∧
      ((cycling .correct).tracker 1).cyc.det = some (10, 20) ∧
      BitVec.ofNat 8 1 = (1 : UnitNo)) ∧
    (let s : State := { cycling .lock with pend := [(.trk 1, ⟨.lock 1, default, []⟩)] }
    s.outstandingOf (.trk 1) = some ⟨.lock 1, default, []⟩ ∧ s.inCycle (.trk 1) = true) := by
  decide +kernel

/-- Tracker 1 in phase `p`, its operation answered with `r`. -/
def answered (p : TrkPhase) (r : Response) : State :=
  { cycling p with resp := [(.mgr, .ok .none), (.trk 1, r)] }

/-- What `takeResponse` makes of Tracker 1 in phase `p` and response `r`. -/
def taken (p : TrkPhase) (r : Response) : Tracker :=
  (nextOf (takeResponse 1 (.next (answered p r)))).tracker 1

/-- The hypotheses on the state, and the one clause on an operation still outstanding. -/
theorem witness_SequencerRunsThePhasesOperation_response :
    let s : State := { cycling .lock with pend := [(.trk 1, ⟨.lock 1, default, []⟩)] }
    let q := answered .predict (.ok (.position 3 4))
    s.outstandingOf (.trk 1) ≠ none ∧ 1 < q.trk.length ∧ q.outstandingOf (.trk 1) = none ∧
      q.resp = [(.mgr, .ok .none)] ++ [(.trk 1, .ok (.position 3 4))] ∧
      (q.tracker 1).cyc.ph = .predict := by decide +kernel

/-- Each phase with its response: R231 in its order; the trail is full, so its oldest entry goes. -/
theorem witness_SequencerRunsThePhasesOperation_phases :
    ((taken .rest (.ok (.view ⟨120, 120⟩))).cyc = ⟨.image, ⟨120, 120⟩, false, [], none, none⟩ ∧
      (taken .lock (.ok .none)).cyc.ph = .decode ∧
      (taken .decode (.ok (.pair 7 8))).cyc.ph = .unlock ∧
      (taken .decode (.ok (.pair 7 8))).cyc.traced = some (7, 8) ∧
      (taken .unlock (.ok .none)).cyc.ph = .detect) ∧
    ((taken .correct (.fault 0x20 (.number 1))).cyc.ph = .predict ∧
      (taken .correct (.ok .none)).filtTrail = [(1, 1), (2, 2)] ∧
      (taken .predict (.ok (.position 3 4))).cyc.ph = .output ∧
      (taken .predict (.ok (.position 3 4))).filtTrail = [(2, 2), (3, 4)] ∧
      (taken .lock (.fault 0x19 (.port (.trk 1)))).cyc = Cycle.rest) := by decide +kernel

/-- Grabber 1 waits in ENQ. -/
def enqWaits : State := { inPhase .enq with pend := [(.grb 1, ⟨.enq 1, default, []⟩)] }

theorem witness_BusyPortGoesOnWithItsOperation :
    enqWaits.outstandingOf (.grb 1) = some ⟨.enq 1, default, []⟩ ∧
      (scheduled (.issue (.grb 1) 0x15010000 default default) enqWaits).script =
        [.issue (.grb 1) 0x15010000 default default] ∧
      (scheduled (.advance (.grb 1) default) enqWaits).script = [.advance (.grb 1) default] ∧
      portExists enqWaits.cfg (.grb 1) = true ∧ enqWaits.inCycle (.grb 1) = false := by
  decide +kernel

/-! ## Witnesses: the buffer's operations -/

/-- The smallest legal operands; a width one below the bound; operands that differ from `CFG`. -/
theorem witness_AllocCreatesTheZeroBuffer :
    let s := fun g : Geo => paying { (default : Payload) with geo := g } (on .mgr (State.resetWith cfgS))
    ((s cfgS.geo).inp.port = .mgr ∧ (s cfgS.geo).allocated = false ∧
        (s cfgS.geo).inp.payload.geo = cfgS.geo ∧ cfgS.geo.w = 22 ∧ cfgS.geo.m * cfgS.geo.c = 3) ∧
      ¬ (22 ≤ (s ⟨1, 21, 1, 1, 3⟩).inp.payload.geo.w) ∧
      (s ⟨1, 22, 2, 1, 3⟩).inp.payload.geo ≠ (s ⟨1, 22, 2, 1, 3⟩).cfg.geo := by decide +kernel

/-- The last slot, its lock free, held by another port, held by the issuer. -/
theorem witness_LockAcquiresOrWaits :
    let s := on (.trk 1) (made cfgB)
    (s.inp.port = .trk 1 ∧ s.allocated = true ∧ (1 : UnitNo).toNat < s.cfg.geo.n) ∧
      (s.lockOf 1 = none ∧ s.locks.length = lockCount s.cfg) ∧
      ({ s with locks := [some (.trk 0)] } : State).lockOf 1 = some (.trk 0) ∧
      ({ s with locks := [some (.trk 1)] } : State).lockOf 1 = some s.inp.port := by decide +kernel

theorem witness_UnlockReleases :
    let s : State := { on .mgr (made { cfgB with scope := .slot }) with locks := [none, some .mgr] }
    (s.inp.port = .mgr ∧ s.allocated = true ∧ (1 : UnitNo).toNat < s.cfg.geo.n) ∧
      (s.lockOf 1 = some s.inp.port ∧ s.locks.length = lockCount s.cfg) ∧
      s.lockOf 0 ≠ some s.inp.port := by decide +kernel

/-- The direct form in the smallest geometry, with a swatch over a byte beside the blocks. -/
def writing : State :=
  drawing { (default : Draws) with picks := List.replicate 42 7 }
    (paying ⟨cfgS.geo, imgS, 1000, 9, 0, 0, 0⟩
      (on (.grb 0) (made { cfgS with swatch := [(21, 0xAA)] })))

/-- The loop form. -/
def writingLoop : State :=
  { writing with grb := [⟨.wr, .running, 1, none, some (frame 9 imgS), none, 0⟩] }

theorem witness_WrslotWritesTheSlot :
    (writing.outstanding = none ∧ writing.inp.port = .grb (0 : UnitNo).toNat ∧
        writing.allocated = true ∧ writing.cfg.geo.legal = true ∧ writing.cfg.swatchLegal = true ∧
        writing.geo = writing.cfg.geo ∧ (0 : UnitNo).toNat < writing.cfg.geo.n ∧
        writing.grb.length = writing.cfg.geo.n ∧ writing.locks.length = lockCount writing.cfg ∧
        Memory.wf writing.sfb = true ∧ (writing.grab 0).gph = .idle ∧
        imgHasShape writing.inp.payload.image writing.geo = true ∧ writing.lockOf 0 = none ∧
        imgBytes writing.geo + writing.cfg.swatch.length + 18 < writing.inp.draws.picks.length) ∧
      ((writingLoop.grab 0).gph = .wr ∧ (writingLoop.grab 0).frm = some (frame 9 imgS) ∧
        imgHasShape imgS writingLoop.geo = true) := by decide +kernel

/-- The clauses about the swatch and about the bytes that stay: strip offsets 21 and 20. -/
theorem witness_WrslotWritesTheSlot_swatch :
    ((21, (0xAA : Byte)) ∈ writing.cfg.swatch ∧
        ∀ k < 18, imgBytes writing.geo + 21 ≠ metaAddr writing.geo 0 k) ∧
      (imgBytes writing.geo ≤ 42 ∧ 42 < slotBytes writing.geo ∧
        (∀ e ∈ writing.cfg.swatch, 42 ≠ imgBytes writing.geo + e.1) ∧
        ∀ k < 18, 42 ≠ metaAddr writing.geo 0 k) := by decide +kernel

/-- The refused images have another shape than the slot's, and the bytes of their own shape. -/
theorem witness_WrslotWaitsOrRefuses :
    let held : State := { writing with locks := [some .mgr] }
    let bad := paying { (default : Payload) with image := ⟨1, 23, 1, List.replicate 23 0⟩ } writing
    (held.outstanding = none ∧ held.inp.port = .grb (0 : UnitNo).toNat ∧ held.allocated = true ∧
        (0 : UnitNo).toNat < held.cfg.geo.n ∧ (held.grab 0).gph = .idle ∧
        imgHasShape held.inp.payload.image held.geo = true ∧ held.lockOf 0 = some .mgr ∧
        Port.mgr ≠ held.inp.port) ∧
      (({ writingLoop with locks := [some .mgr] } : State).grab 0).frm = some (frame 9 imgS) ∧
      ((bad.grab 0).gph = .idle ∧ imgHasShape bad.inp.payload.image bad.geo = false) ∧
      imgHasShape imgB writingLoop.geo = false := by decide +kernel

/-- Grabber 0's write in flight with one byte of each phase left to do at its turn: image offset 21, then
the last block byte. -/
def inFlight (done : List (Nat × Nat)) : State :=
  drawing { (default : Draws) with picks := [3] }
    { writing with
      locks := [some (.grb 0)]
      grb := [⟨.idle, .created, 0, none, none, some ⟨imgS, 1000, 9, 1, done⟩, 0⟩]
      pend := [(.grb 0, ⟨.wrslot 0, default, []⟩)] }

theorem witness_WrslotWritesOneByteAStep :
    let done := (List.range 21).map fun o => (1, o)
    let s := inFlight done
    s.outstanding = some ⟨.wrslot 0, default, []⟩ ∧
      (s.grab 0).wip = some ⟨imgS, 1000, 9, 1, done⟩ ∧ s.inp.draws.picks = [3] ∧
      s.cfg.geo.legal = true ∧ s.cfg.swatchLegal = true ∧ s.geo = s.cfg.geo ∧ s.allocated = true ∧
      (0 : UnitNo).toNat < s.cfg.geo.n ∧
      (writesLeft s ⟨imgS, 1000, 9, 1, done⟩ 1).length = 1 := by decide +kernel

/-- The same write before it has the lock: free, and held by another port. -/
theorem witness_WrslotWritesOneByteAStep_waited :
    let s : State := drawing default
      { inFlight [] with locks := [none], grb := [⟨.idle, .created, 0, none, none, none, 0⟩] }
    (s.outstanding = some ⟨.wrslot 0, default, []⟩ ∧ (s.grab 0).wip = none ∧
      (0 : UnitNo).toNat < s.cfg.geo.n ∧ s.locks.length = lockCount s.cfg) ∧
    (s.lockOf 0 = none ∧ s.inp.draws.picks = []) ∧
    ({ s with locks := [some (.trk 0)] } : State).lockOf 0 = some (.trk 0) ∧
    Port.trk 0 ≠ s.inp.port := by decide +kernel

/-- The same write with every byte of every phase written. -/
theorem witness_WrslotWritesOneByteAStep_ends :
    let done := ((List.range 22).map fun o => (1, o)) ++ [(2, 43)] ++
      (List.range 18).map fun k => (3, metaAddr cfgS.geo 0 k)
    let s := inFlight done
    (s.outstanding = some ⟨.wrslot 0, default, []⟩ ∧
      (s.grab 0).wip = some ⟨imgS, 1000, 9, 1, done⟩ ∧ s.inp.draws.picks = 3 :: [] ∧
      (0 : UnitNo).toNat < s.cfg.geo.n ∧ s.locks.length = lockCount s.cfg ∧
      s.lockOf 0 = some s.inp.port) ∧
    ∀ q < 4, 1 ≤ q → writesLeft s ⟨imgS, 1000, 9, 1, done⟩ q = [] := by decide +kernel

/-- The last byte of the last View, and the first offset outside it. -/
theorem witness_RdslotAndViewReads :
    let s := on (.trk 1) (made cfgB)
    (s.inp.port = .trk 1 ∧ s.allocated = true ∧ (1 : UnitNo).toNat < s.cfg.geo.n) ∧
      (120 ≤ (⟨120, 120⟩ : View).length) ∧ (⟨120, 119⟩ : View).length ≤ 119 ∧
      (119 < (⟨120, 120⟩ : View).length ∧ 120 + 120 ≤ sfbBytes s.geo) := by decide +kernel

/-- A View the port obtained, read inside its TRKCYCLE (R127); one it did not obtain, a port that does
not exist, one with an operation outstanding. -/
theorem witness_RdslotAndViewReads_step :
    let s : State := scheduled (.viewRead (.trk 1) ⟨120, 120⟩ 119)
      { cycling .decode with resp := [(.trk 1, .ok (.view ⟨120, 120⟩))] }
    (s.script = [.viewRead (.trk 1) ⟨120, 120⟩ 119] ∧ portExists s.cfg (.trk 1) = true ∧
      s.outstandingOf (.trk 1) = none ∧ s.inCycle (.trk 1) = true ∧
      (Port.trk 1, Response.ok (.view ⟨120, 120⟩)) ∈ s.resp) ∧
    (Port.trk 0, Response.ok (.view ⟨120, 120⟩)) ∉ s.resp ∧ portExists s.cfg (.trk 2) = false ∧
      ({ s with pend := [(.trk 1, ⟨.decmd 1, default, []⟩)] } : State).outstandingOf (.trk 1) ≠
        none := by
  decide +kernel

/-- The read inside a TRKCYCLE answers the byte, and leaves the cycle where it stands (R127). -/
theorem test_view_read_in_cycle :
    let s : State := scheduled (.viewRead (.trk 1) ⟨120, 120⟩ 119)
      { cycling .decode with resp := [(.trk 1, .ok (.view ⟨120, 120⟩))], sfb := [(239, 9)] }
    (nextOf (step s)).resp.getLast? = some (.trk 1, .ok (.byte 9)) ∧
      (nextOf (step s)).trk = s.trk := by decide +kernel

theorem witness_DecmdAnswersTheBlocks :
    let s := drawing { (default : Draws) with picks := List.replicate 19 5 } (on (.trk 0) (made cfgB))
    s.outstanding = none ∧ s.inp.port = .trk 0 ∧ s.allocated = true ∧ s.cfg.geo.legal = true ∧
      s.geo = s.cfg.geo ∧ (1 : UnitNo).toNat < s.cfg.geo.n ∧ 18 < s.inp.draws.picks.length := by
  decide +kernel

/-- One choice: nothing read yet, the last byte left, and all 18 read. -/
theorem witness_DecmdAnswersTheBlocks_bytewise :
    let reads := fun n => (List.range n).map fun k => (k, (0 : Byte))
    let s := fun n => drawing { (default : Draws) with picks := [5] }
      (on (.trk 0) { made cfgB with pend := [(.trk 0, ⟨.decmd 1, default, reads n⟩)] })
    ((drawing { (default : Draws) with picks := [5] } (on (.trk 0) (made cfgB))).outstanding = none ∧
      (s 17).inp.draws.picks = [5]) ∧
    ((s 17).outstanding = some ⟨.decmd 1, default, reads 17⟩ ∧ 17 ∉ (reads 17).map Prod.fst) ∧
    ((s 18).outstanding = some ⟨.decmd 1, default, reads 18⟩ ∧
      ∀ k < 18, k ∈ (reads 18).map Prod.fst) := by decide +kernel

/-- A Tracker's turn to read, in state `t`. -/
def reading (t : State) : State :=
  drawing { (default : Draws) with picks := List.replicate 19 5 } (on (.trk 0) t)

/-- Any state `t` after the write, then a Tracker's turn. -/
theorem witness_SlotRoundTrip_reader (t : State) :
    (reading t).sfb = t.sfb ∧ (reading t).geo = t.geo ∧ (reading t).cfg = t.cfg ∧
      (reading t).allocated = t.allocated ∧ (reading t).inp.port = .trk 0 ∧
      18 < (reading t).inp.draws.picks.length := ⟨rfl, rfl, rfl, rfl, rfl, by simp [reading, drawing]⟩

/-- The write of `writing`, which meets the writer's hypotheses (`witness_WrslotWritesTheSlot`), goes on,
and the reader's port has nothing outstanding after it. -/
theorem witness_SlotRoundTrip :
    exec (.wrslot 0) writing = .next (nextOf (exec (.wrslot 0) writing)) ∧
      (reading (nextOf (exec (.wrslot 0) writing))).outstanding = none :=
  ⟨next_nextOf (by decide +kernel), by decide +kernel⟩

/-- The same for the loop form, whose operands are those of `FRM[0]`. -/
theorem witness_SlotRoundTrip_loop :
    ((writingLoop.grab 0).gph = .wr ∧ (writingLoop.grab 0).frm = some (frame 9 imgS) ∧
      imgHasShape imgS writingLoop.geo = true ∧ writingLoop.lockOf 0 = none ∧
      writingLoop.outstanding = none) ∧
    exec (.wrslot 0) writingLoop = .next (nextOf (exec (.wrslot 0) writingLoop)) ∧
      (reading (nextOf (exec (.wrslot 0) writingLoop))).outstanding = none :=
  ⟨by decide +kernel, next_nextOf (by decide +kernel), by decide +kernel⟩

/-! ## Witnesses: Grabber, relay, queue -/

/-- GSTART of a Created Grabber; GOPEN with either answer. -/
theorem witness_GstartAndGopen :
    (let s := on .mgr (State.resetWith cfgB)
    s.inp.port = .mgr ∧ (1 : UnitNo).toNat < s.cfg.geo.n ∧ (s.grab 1).gstate = .created) ∧
    (inPhase .opn).inp.port = .grb (1 : UnitNo).toNat ∧
      (1 : UnitNo).toNat < (inPhase .opn).cfg.geo.n ∧ ((inPhase .opn).grab 1).gph = .opn ∧
      (inPhase .opn).inp.draws.openOk = false ∧
      (drawing { (default : Draws) with openOk := true } (inPhase .opn)).inp.draws.openOk = true := by
  decide +kernel

theorem witness_GchkAndGpace :
    ((inPhase .chk).inp.port = .grb (1 : UnitNo).toNat ∧ ((inPhase .chk).grab 1).gph = .chk ∧
        (inPhase .chk).cancel = false) ∧
      ({ inPhase .chk with cancel := true } : State).cancel = true ∧
      ((inPhase .pace).grab 1).gph = .pace := by decide +kernel

theorem witness_GreadTakesTheAnswer :
    let s := fun r => drawing { (default : Draws) with read := r } (inPhase .read)
    (s .fail).inp.port = .grb (1 : UnitNo).toNat ∧ ((s .fail).grab 1).gph = .read ∧
      (s .fail).inp.draws.read = .fail ∧ (s .noAnswer).inp.draws.read = .noAnswer ∧
      (s (.ok imgS)).inp.draws.read = .ok imgS := by decide +kernel

theorem witness_GwrapBuildsTheFrame :
    (inPhase .wrap).inp.port = .grb (1 : UnitNo).toNat ∧ ((inPhase .wrap).grab 1).gph = .wrap ∧
      ((inPhase .wrap).grab 1).img = some imgB ∧
      (inPhase .wrap).tick.toNat ≤ (inPhase .wrap).inp.draws.tick.toNat := by decide +kernel

/-- One place left, none left with either draw. -/
theorem witness_EnqDeliversDropsOrWaits :
    let s := fun q : List Frame => ({ inPhase .enq with dq := q } : State)
    let f := frame 1 imgB
    ((s []).inp.port = .grb (1 : UnitNo).toNat ∧ ((s []).grab 1).gph = .enq ∧
        ((s []).grab 1).frm = some (frame 9 imgB)) ∧
      (s [f]).dq.length < (s [f]).cfg.qcap ∧
      (s [f, f]).dq.length = (s [f, f]).cfg.qcap ∧ (s [f, f]).inp.draws.drop = false ∧
      (drawing { (default : Draws) with drop := true } (s [f, f])).inp.draws.drop = true := by
  decide +kernel

theorem witness_GstatCountsTheFrame :
    let s := inPhase .stat
    (s.inp.port = .grb (1 : UnitNo).toNat ∧ (s.grab 1).gph = .stat ∧
        (s.grab 1).fpscnt + 1 = s.cfg.fpsWindow) ∧
      ((s.modGrab 1 fun g => { g with fpscnt := 1 }).grab 1).fpscnt + 1 ≠ s.cfg.fpsWindow := by
  decide +kernel

/-- A queue of two, an empty queue, and the Manager's port. -/
theorem witness_DeqAndCancel :
    let s := on .wtr { made cfgB with dq := [frame 0 imgB, frame 1 imgB] }
    (s.inp.port = .wtr ∧ s.dq = frame 0 imgB :: [frame 1 imgB]) ∧
      ((on .wtr (made cfgB)).inp.port = .wtr ∧ (on .wtr (made cfgB)).dq = []) ∧
      (on .mgr (State.resetWith cfgB)).inp.port = .mgr := by decide +kernel

/-! ## Witnesses: the filter and the Tracker's functions -/

theorem witness_KfinitLoadsTheStart :
    (on (.trk 1) (made cfgB)).inp.port = .trk (1 : UnitNo).toNat ∧
      (on .mgr (made cfgB)).inp.port = .mgr ∧ (1 : UnitNo).toNat < (made cfgB).cfg.t := by
  decide +kernel

theorem witness_KfpredIsTheTimeUpdate :
    let s := filtered ⟨1, 2, 3, -1⟩ Config.refIdentity
    s.inp.port = .trk (0 : UnitNo).toNat ∧ (0 : UnitNo).toNat < s.cfg.t ∧
      s.cfg.kfSys = .rational := by decide +kernel

/-- `KF_R = 0` and `P = 0` (KC5). -/
def singularFilter : State :=
  on (.trk 0) (State.resetWith
    { cfgB with
      kfR := ⟨⟨0, 0⟩, ⟨0, 0⟩⟩
      kfP0 := ⟨⟨0, 0, 0, 0⟩, ⟨0, 0, 0, 0⟩, ⟨0, 0, 0, 0⟩, ⟨0, 0, 0, 0⟩⟩ })

/-- The reference filter is not singular; KC5's is. -/
theorem witness_KfcorrIsTheMeasurementUpdate :
    ((filtered ⟨1, 2, 3, -1⟩ Config.refIdentity).cfg.kfSys = .rational ∧
      (innovationMatrix cfgB ((filtered ⟨1, 2, 3, -1⟩ Config.refIdentity).filter 0)).det ≠ 0) ∧
    (singularFilter.inp.port = .trk (0 : UnitNo).toNat ∧ (0 : UnitNo).toNat < singularFilter.cfg.t ∧
      singularFilter.cfg.kfSys = .rational ∧
      (innovationMatrix singularFilter.cfg (singularFilter.filter 0)).det = 0) ∧
    singular cfgB ((filtered ⟨1, 2, 3, -1⟩ Config.refIdentity).filter 0) = false ∧
    singular singularFilter.cfg (singularFilter.filter 0) = true := by
  decide +kernel

theorem witness_PredictExtrapolatesAlongALine :
    let s := filtered ⟨1, 2, 3, -1⟩ Config.refIdentity
    s.inp.port = .trk (0 : UnitNo).toNat ∧ (0 : UnitNo).toNat < s.cfg.t ∧
      (0 : UnitNo).toNat < s.kfu.length ∧ s.cfg.kfSys = .rational ∧
      s.cfg.kfF = ⟨⟨1, 0, 1, 0⟩, ⟨0, 1, 0, 1⟩, ⟨0, 0, 1, 0⟩, ⟨0, 0, 0, 1⟩⟩ := by decide +kernel

/-- A match between two nodes of the same distance, and none at exactly the radius. -/
theorem witness_MatchNodeIsTheFirstNearest :
    matchNode .rational (some (110, 100)) [⟨0, 100, 100⟩, ⟨1, 120, 100⟩] 30 = some 0 ∧
      matchNode .rational (some (130, 100)) [⟨0, 100, 100⟩] 30 = none := by decide +kernel

theorem witness_LargestContourIsTheFirstLargest :
    largestContour [⟨40, 0, 0, 0⟩, ⟨55, 1, 0, 0⟩, ⟨55, 2, 0, 0⟩] = some ⟨55, 1, 0, 0⟩ := by
  decide +kernel

/-! ## Witnesses: whole-machine rules and invariants -/

/-- Every entry of the register file has the property, so every register has, if a reset Grabber has. -/
theorem grab_all {s : State} {P : Grabber → Prop} (h : ∀ g ∈ s.grb, P g) (h0 : P Grabber.reset) (i : Nat) :
    P (s.grab i) := by
  unfold State.grab
  rw [List.getD_eq_getElem?_getD]
  cases hg : s.grb[i]? with
  | none => exact h0
  | some g => exact h g (List.mem_of_getElem? hg)

/-- A state with nothing in flight and every lock free is in order. -/
theorem lockOk_quiet {s : State} (h1 : s.grb.length = s.cfg.geo.n)
    (h2 : s.locks.length = lockCount s.cfg) (h3 : ∀ g ∈ s.grb, g.wip = none)
    (h4 : ∀ l ∈ s.locks, l = none) (h5 : s.pend = []) : s.LockOk := by
  have hw : ∀ k, (s.grab k).wip = none := grab_all (P := fun g => g.wip = none) h3 rfl
  have hl : ∀ k, s.lockOf k = none := by
    intro k
    unfold State.lockOf
    rw [List.getD_eq_getElem?_getD]
    cases hg : s.locks[lockIndex s.cfg k]? with
    | none => rfl
    | some g => exact h4 g (List.mem_of_getElem? hg)
  refine ⟨h1, h2, ?_, ?_, ?_, ?_⟩
  · intro k h; rw [hw k] at h; exact absurd h (by simp)
  · intro i k h; rw [hl i] at h; exact absurd h (by simp)
  · intro e h; rw [h5] at h; exact absurd h (by simp)
  · intro k h; rw [hw k] at h; exact absurd h (by simp)

/-- Soundness from checks on the lists. -/
theorem sound_checked {s : State} (h1 : s.cfg.legal = true) (h2 : s.allocated = true)
    (h3 : s.geo = s.cfg.geo) (h4 : s.grb.length = s.cfg.geo.n)
    (h5 : ∀ g ∈ s.grb, phaseRegistersHeld g)
    (h6 : ∀ e ∈ s.pend, e.2.instr.unit.toNat < s.cfg.geo.n) (h7 : s.resp = [])
    (h8 : ∀ k ∈ s.trk, k.cyc.ph = .rest) : s.Sound := by
  refine ⟨h1, fun _ => h3, h4, grab_all h5 (by simp [phaseRegistersHeld, Grabber.reset]),
    ?_, ?_, ?_⟩
  · intro e he u hu
    have := h6 e he
    rcases hu with hu | hu <;> rw [hu] at this <;> exact ⟨h2, this⟩
  · intro p v h
    rw [h7] at h
    exact absurd h (by simp)
  · intro j hj
    exfalso
    apply hj
    unfold State.tracker
    rw [List.getD_eq_getElem?_getD]
    cases hg : s.trk[j]? with
    | none => rfl
    | some k => exact h8 k (List.mem_of_getElem? hg)

/-- Grabber 0's write in flight, all bytes left, and its next byte scheduled. -/
def writingNext : State :=
  scheduled (.advance (.grb 0) { (default : Draws) with picks := [3] }) (inFlight [])

theorem writingNext_lockOk : writingNext.LockOk := by
  have hg : ∀ k, (writingNext.grab k).wip.isSome = true → k = 0 := by
    intro k hk
    cases k with
    | zero => rfl
    | succ k => exact absurd hk (by simp [State.grab, writingNext, scheduled, inFlight, drawing,
        Grabber.reset])
  have hs : writingNext.cfg.scope = .buffer := rfl
  have hi : ∀ i, lockIndex writingNext.cfg i = 0 := by intro i; simp [lockIndex, hs]
  refine ⟨rfl, rfl, ?_, ?_, ?_, fun _ _ => rfl⟩
  · intro k hk
    rw [hg k hk]
    rfl
  · intro i k h
    have : writingNext.lockOf i = some (.grb 0) := by unfold State.lockOf; rw [hi i]; rfl
    rw [this] at h
    simp only [Option.some.injEq, Port.grb.injEq] at h
    rw [← h]
    exact ⟨rfl, by rw [hi, hi]⟩
  · intro e he u hu
    simp only [writingNext, scheduled, inFlight, drawing, List.mem_singleton] at he
    subst he
    simp only [Instr.wrslot.injEq] at hu
    subst hu
    exact ⟨rfl, by decide +kernel, rfl⟩

theorem writingNext_sound : writingNext.Sound :=
  sound_checked (by decide +kernel) rfl rfl rfl
    (by simp [writingNext, scheduled, inFlight, drawing, phaseRegistersHeld]) (by decide +kernel) rfl
    (by decide +kernel)

/-- Grabber 0's next byte changes byte 3. -/
theorem witness_BytesChangeOnlyByTheirOwner :
    writingNext.Sound ∧ writingNext.LockOk ∧ writingNext.memoryOk ∧ writingNext.allocated = true ∧
      step writingNext = .next (nextOf (step writingNext)) ∧
      Memory.read (nextOf (step writingNext)).sfb 3 ≠ Memory.read writingNext.sfb 3 :=
  ⟨writingNext_sound, writingNext_lockOk, by simp [State.memoryOk, writingNext, scheduled, inFlight,
    drawing, writing, paying, on, made, State.resetWith, Memory.wf], rfl,
    next_nextOf (by decide +kernel), by decide +kernel⟩

/-- A GCHK of Grabber 1 beside Grabber 0 and both filters; the ends of the range of numbers. -/
theorem witness_RegistersChangeOnlyByTheirOwner :
    exec (.gchk 1) (inPhase .chk) = .next (nextOf (exec (.gchk 1) (inPhase .chk))) ∧ 255 < 256 ∧
      (inPhase .chk).inp.port ≠ .grb 0 ∧ (inPhase .chk).inp.port ≠ .grb 255 ∧
      Instr.gchk 1 ≠ .gstart (BitVec.ofNat 8 0) ∧ (inPhase .chk).outstanding = none ∧
      (inPhase .chk).inp.port ≠ .trk 0 ∧ (inPhase .chk).inp.port ≠ .mgr :=
  ⟨next_nextOf (by decide +kernel), by decide, by decide +kernel, by decide +kernel, by decide,
    by decide +kernel, by decide +kernel, by decide +kernel⟩

theorem quiet_lockOk (p : Phase) : (inPhase p).LockOk :=
  lockOk_quiet rfl rfl (by simp [inPhase, on])
    (by simp [inPhase, on, made, State.resetWith]) rfl

/-- One operation for each of the three outcomes: a raise, GOPEN's stop, the loop form's stop. -/
theorem witness_FaultsArePrecise :
    ((inPhase .chk).LockOk ∧ (inPhase .chk).outstanding = none ∧
        goesOn (exec (.gread 1) (inPhase .chk)) = true ∧
        (nextOf (exec (.gread 1) (inPhase .chk))).faults ≠ (inPhase .chk).faults) ∧
      ((inPhase .opn).LockOk ∧ goesOn (exec (.gopen 1) (inPhase .opn)) = true ∧
        (nextOf (exec (.gopen 1) (inPhase .opn))).faults ≠ (inPhase .opn).faults) ∧
      (let s : State := { inPhase .wr with geo := ⟨2, 24, 3, 1, 3⟩ }
      s.LockOk ∧ goesOn (exec (.wrslot 1) s) = true ∧
        (nextOf (exec (.wrslot 1) s)).faults = [⟨.grb 1, 0x18, .shape 2 24 1⟩]) :=
  ⟨⟨quiet_lockOk _, rfl, by decide +kernel, by decide +kernel⟩,
    ⟨quiet_lockOk _, by decide +kernel, by decide +kernel⟩,
    lockOk_quiet rfl rfl (by simp [inPhase, on]) (by decide +kernel) rfl, by decide +kernel,
    by decide +kernel⟩

/-- An operation that responds and one that waits; Grabber 1's port and another. -/
theorem witness_OneResponsePerOperation :
    goesOn (exec (.gchk 1) (inPhase .chk)) = true ∧
      goesOn (exec (.gread 1) (inPhase .read)) = true ∧ Port.grb 0 ≠ (inPhase .chk).inp.port := by
  decide +kernel

/-- A state with records in every list, `CANCEL` and `ALLOCATED` set, and an illegal word next. -/
theorem witness_StickyStateStays :
    let s : State := scheduled (.issue .mgr 0 default default)
      { inPhase .chk with
        cancel := true, faults := [⟨.mgr, 0x10, .word 0⟩], log := [.dropFull 0 3], tick := 7 }
    step s = .next (nextOf (step s)) ∧ s.cancel = true ∧ s.allocated = true :=
  ⟨next_nextOf (by decide +kernel), rfl, rfl⟩

/-- A byte written, and the rewrite of a byte to what an unlisted address reads as. -/
theorem witness_StepKeepsTheMemoryCanonical :
    let s : State := { writingNext with sfb := [(3, 9), (87, 1)] }
    s.memoryOk ∧ step s = .next (nextOf (step s)) ∧ (State.resetWith cfgB).memoryOk :=
  ⟨⟨by decide, by decide +kernel, fun h => absurd h (by decide +kernel)⟩,
    next_nextOf (by decide +kernel), by decide, by decide, fun _ => rfl⟩

/-- A Grabber that GCHK stops, beside one that is running. -/
theorem witness_StepKeepsTheLifecycle :
    let s := scheduled (.advance (.grb 1) default) { inPhase .chk with cancel := true }
    step s = .next (nextOf (step s)) ∧ (∀ i, runningIffNotIdle (s.grab i)) ∧
      ((nextOf (step s)).grab 1).gstate = .stopped :=
  ⟨next_nextOf (by decide +kernel),
    grab_all (by simp [scheduled, inPhase, on, runningIffNotIdle])
      (by simp [runningIffNotIdle, Grabber.reset]), by decide +kernel⟩

/-- An ENQ that fills the queue. -/
theorem witness_StepKeepsTheBounds :
    let s := scheduled (.advance (.grb 1) default)
      { inPhase .enq with dq := [frame 0 imgB], pend := [(.wtr, ⟨.deq 0, default, []⟩)] }
    step s = .next (nextOf (step s)) ∧ s.dq.length ≤ s.cfg.qcap ∧ s.oneOutstanding ∧ s.FilesOk ∧
      (nextOf (step s)).dq.length = s.cfg.qcap :=
  ⟨next_nextOf (by decide +kernel), by decide +kernel, by simp [State.oneOutstanding, scheduled],
    ⟨rfl, rfl, rfl, rfl⟩,
    by decide +kernel⟩

theorem witness_StepKeepsTheLockWithTheWriter :
    writingNext.LockOk ∧ step writingNext = .next (nextOf (step writingNext)) :=
  ⟨writingNext_lockOk, next_nextOf (by decide +kernel)⟩

/-- Tracker 1 about to detect, with its mask built, one contour, and full trails. -/
def detecting : State :=
  scheduled (.advance (.trk 1) { (default : Draws) with contours := [⟨4, 2, 20, 40⟩] })
    { made cfgB with
      trk := List.replicate 2
        ⟨some imgB, [none, none], [(1, 1), (2, 2)], none, false, ⟨.detect, ⟨120, 120⟩, true, [], none,
          none⟩⟩ }

theorem witness_MaskAndTrails :
    step detecting = .next (nextOf (step detecting)) ∧ (detecting.tracker 1).mask = some imgB ∧
      (detecting.tracker 1).rawTrail.length ≤ detecting.cfg.trailN ∧
      (detecting.tracker 1).filtTrail.length ≤ detecting.cfg.trailN ∧
      ((nextOf (step detecting)).tracker 1).rawTrail = [none, some (10, 20)] :=
  ⟨next_nextOf (by decide +kernel), by decide +kernel, by decide +kernel, by decide +kernel,
    by decide +kernel⟩

/-- A detection that builds the mask, one with a tie between two contours, an output that changes the
matched node and the indicator, and the end of the lock step. -/
def outputting : State :=
  scheduled (.advance (.trk 0) default)
    { made cfgB with
      trk := List.replicate 2
        ⟨some imgB, [none], [(1, 1)], none, false, ⟨.output, ⟨0, 120⟩, false, [(27, 129)], none,
          some (10, 20)⟩⟩ }

theorem witness_MaskAndTrails_changes :
    (step outputting = .next (nextOf (step outputting)) ∧
      (nextOf (step outputting)).tout = [⟨0, true, some 0, true⟩] ∧
      ((nextOf (step outputting)).tracker 0).lastNode = some 0 ∧
      ((nextOf (step outputting)).tracker 0).led = true) ∧
    (let s : State := { detecting with
      trk := detecting.trk.map fun k => { k with mask := none, cyc := { k.cyc with got := [(5, 1)] } } }
    step s = .next (nextOf (step s)) ∧ ((nextOf (step s)).tracker 1).mask ≠ (s.tracker 1).mask ∧
      ((nextOf (step s)).tracker 1).cyc.ph = .correct) ∧
    (step (cycling .lock) = .next (nextOf (step (cycling .lock))) ∧
      ((nextOf (step (cycling .lock))).tracker 1).cyc.ph = .decode) ∧
    (step (cycling .predict) = .next (nextOf (step (cycling .predict))) ∧
      ((nextOf (step (cycling .predict))).tracker 1).filtTrail ≠ [(1, 1), (2, 2)]) :=
  ⟨⟨next_nextOf (by decide +kernel), by decide +kernel, by decide +kernel, by decide +kernel⟩,
    ⟨next_nextOf (by decide +kernel), by decide +kernel, by decide +kernel⟩,
    ⟨next_nextOf (by decide +kernel), by decide +kernel⟩,
    ⟨next_nextOf (by decide +kernel), by decide +kernel⟩⟩

/-- A detection with its mask and a tie, one with no contour; an output over a pixel inside the image. -/
theorem witness_TrackerDetectsAndOutputs :
    (detecting.script = [.advance (.trk 1) { (default : Draws) with contours := [⟨4, 2, 20, 40⟩] }] ∧
      1 < detecting.cfg.t ∧ 1 < detecting.trk.length ∧ detecting.outstandingOf (.trk 1) = none ∧
      (detecting.tracker 1).cyc.ph = .detect ∧ (detecting.tracker 1).mask ≠ none ∧
      ([⟨4, 2, 20, 40⟩, ⟨4, 1, 1, 1⟩] : List Contour) = [] ++ ⟨4, 2, 20, 40⟩ :: [⟨4, 1, 1, 1⟩] ∧
      (4 : Rat) ≤ 4 ∧ ({ (default : Draws) with contours := [] } : Draws).contours = []) ∧
    (outputting.script = [.advance (.trk 0) default] ∧ (outputting.tracker 0).cyc.ph = .output ∧
      outputting.geo.c = 1 ∧ (outputting.cfg.ledXY.getD 0 (0, 0)).1 < outputting.geo.w ∧
      (outputting.cfg.ledXY.getD 0 (0, 0)).2 < outputting.geo.h) := by decide +kernel

/-- Tracker 1 reads its image, one byte a choice: the last byte left, and none left. -/
def imaging (n : Nat) : State :=
  scheduled (.advance (.trk 1) { (default : Draws) with picks := [5] })
    { made cfgB with
      sfb := [(167, 9)]
      trk := List.replicate 2
        ⟨none, [], [], none, false, ⟨.image, ⟨120, 120⟩, true, (List.range n).map fun o => (o, 0),
          none, none⟩⟩ }

theorem witness_TrackerDetectsAndOutputs_image :
    ((imaging 47).script = [.advance (.trk 1) { (default : Draws) with picks := [5] }] ∧
      1 < (imaging 47).cfg.t ∧ 1 < (imaging 47).trk.length ∧
      (imaging 47).outstandingOf (.trk 1) = none ∧
      ((imaging 47).tracker 1).cyc.ph = .image ∧ (imaging 47).allocated = true ∧
      ((imaging 47).tracker 1).cyc.view.base + imgBytes (imaging 47).geo ≤
        sfbBytes (imaging 47).geo) ∧
    (47 < imgBytes (imaging 47).geo ∧ 47 ∉ ((imaging 47).tracker 1).cyc.got.map Prod.fst ∧
      ((nextOf (step (imaging 47))).tracker 1).cyc.got.head? = some (47, 9)) ∧
    ((∀ o < imgBytes (imaging 48).geo, o ∈ ((imaging 48).tracker 1).cyc.got.map Prod.fst) ∧
      ((nextOf (step (imaging 48))).tracker 1).cyc.ph = .decode) := by decide +kernel

/-- Tracker 1 goes on with the DECMD it has outstanding. -/
theorem witness_TrackerStepWritesOnlyItsFilter :
    let s := scheduled (.advance (.trk 1) { (default : Draws) with picks := [3] })
      { made cfgB with pend := [(.trk 1, ⟨.decmd 1, default, []⟩)] }
    s.script = [.advance (.trk 1) { (default : Draws) with picks := [3] }] ∧
      s.outstandingOf (.trk 1) = some ⟨.decmd 1, default, []⟩ ∧
      step s = .next (nextOf (step s)) :=
  ⟨rfl, by decide +kernel, next_nextOf (by decide +kernel)⟩

/-- Tracker 1 takes the lock, and a cycle before ALLOC records its fault. -/
theorem witness_TrackerStepWritesOnlyItsFilter_lock :
    (step (cycling .lock) = .next (nextOf (step (cycling .lock))) ∧
      (cycling .lock).outstandingOf (.trk 1) = none ∧
      (nextOf (step (cycling .lock))).lockOf 1 ≠ (cycling .lock).lockOf 1) ∧
    (let s := scheduled (.advance (.trk 1) default) (State.resetWith cfgB)
    step s = .next (nextOf (step s)) ∧ (nextOf (step s)).faults = [⟨.trk 1, 0x12, .none⟩]) :=
  ⟨⟨next_nextOf (by decide +kernel), by decide +kernel, by decide +kernel⟩,
    next_nextOf (by decide +kernel), by decide +kernel⟩

theorem witness_StepKeepsSound :
    writingNext.Sound ∧ step writingNext = .next (nextOf (step writingNext)) :=
  ⟨writingNext_sound, next_nextOf (by decide +kernel)⟩

theorem witness_SoundStatesNeverStop : writingNext.Sound := writingNext_sound

/-! ## Witnesses: a run -/

/-- Where nothing is under way, no agent is enabled. -/
theorem quiet_not_enabled {s : State} (h1 : s.pend = []) (h2 : ∀ g ∈ s.grb, g.gph = .idle)
    (h3 : ∀ k ∈ s.trk, k.cyc.ph = .rest) (p : Port) : ¬ s.enabled p := by
  rintro ⟨h, -⟩
  have ho : s.outstandingOf p = none := by unfold State.outstandingOf; rw [h1]; rfl
  have hg := grab_all (P := fun g => g.gph = .idle) h2 rfl
  have ht : ∀ j, (s.tracker j).cyc.ph = .rest := by
    intro j
    unfold State.tracker
    rw [List.getD_eq_getElem?_getD]
    cases hk : s.trk[j]? with
    | none => rfl
    | some k => exact h3 k (List.mem_of_getElem? hk)
  cases p <;> simp [State.underWay, State.inCycle, ho, hg, ht] at h

/-- Before ALLOC Grabber 1 has an ENQ outstanding. -/
def relay0 : State :=
  { State.resetWith cfgB with
    grb := [Grabber.reset, ⟨.enq, .running, 1, none, some (frame 9 imgB), none, 0⟩]
    pend := [(.grb 1, ⟨.enq 1, default, []⟩)] }

/-- Grabber 1's turn. -/
def turn : Event := .advance (.grb 1) default

/-- The ENQ has delivered. -/
def relay1 : State := nextOf (step (relay0.given turn))

/-- The WRSLOT has stopped the Grabber (R170). -/
def relay2 : State := nextOf (step (relay1.given turn))

/-- ENQ, the WRSLOT that stops the Grabber, and nothing more. -/
def relayRun : Run where
  state
    | 0 => relay0
    | 1 => relay1
    | _ => relay2
  event _ := turn
  steps
    | 0 => next_nextOf (by decide +kernel)
    | 1 => next_nextOf (by decide +kernel)
    | _ + 2 =>
      (next_nextOf (by decide +kernel : goesOn (step (relay2.given turn)) = true)).trans
        (congrArg Host.Outcome.next (by decide +kernel : nextOf (step (relay2.given turn)) = relay2))
  fair p n h :=
    absurd (h (n + 2) (by omega))
      (quiet_not_enabled (s := relay2) (by decide +kernel) (by decide +kernel) (by decide +kernel) p)

/-- Soundness before ALLOC, from checks on the lists. -/
theorem sound_before_alloc {s : State} (h1 : s.cfg.legal = true) (h2 : s.allocated = false)
    (h3 : s.grb.length = s.cfg.geo.n) (h4 : ∀ g ∈ s.grb, phaseRegistersHeld g)
    (h5 : ∀ e ∈ s.pend, e.2.instr = .enq 1)
    (h6 : ∀ e ∈ s.resp, e.2 = .ok .delivered ∨ e.2 = .fault 0x12 .none)
    (h7 : ∀ k ∈ s.trk, k.cyc.ph = .rest) : s.Sound := by
  refine ⟨h1, fun h => absurd h (by simp [h2]), h3,
    grab_all h4 (by simp [phaseRegistersHeld, Grabber.reset]), ?_, ?_, ?_⟩
  · intro e he u hu
    rw [h5 e he] at hu
    rcases hu with hu | hu <;> cases hu
  · intro p v h
    rcases h6 _ h with h | h <;> cases h
  · intro j hj
    exfalso
    apply hj
    unfold State.tracker
    rw [List.getD_eq_getElem?_getD]
    cases hk : s.trk[j]? with
    | none => rfl
    | some k => exact h7 k (List.mem_of_getElem? hk)

theorem relay_sound : relay0.Sound ∧ relay1.Sound ∧ relay2.Sound := by
  refine ⟨sound_before_alloc ?_ ?_ ?_ ?_ ?_ ?_ ?_, sound_before_alloc ?_ ?_ ?_ ?_ ?_ ?_ ?_,
    sound_before_alloc ?_ ?_ ?_ ?_ ?_ ?_ ?_⟩ <;>
    (try unfold phaseRegistersHeld) <;> decide +kernel

/-- The run meets the hypotheses, and the ENQ ends. -/
theorem witness_EnqAlwaysEnds :
    (∀ m, (relayRun.state m).Sound ∧ (relayRun.state m).dq.length ≤ (relayRun.state m).cfg.qcap) ∧
      (1 : UnitNo).toNat < (relayRun.state 0).cfg.geo.n ∧
      (relayRun.state 0).outstandingOf (.grb (1 : UnitNo).toNat) = some ⟨.enq 1, default, []⟩ := by
  refine ⟨?_, by decide +kernel, by decide +kernel⟩
  intro m
  match m with
  | 0 => exact ⟨relay_sound.1, by decide +kernel⟩
  | 1 => exact ⟨relay_sound.2.1, by decide +kernel⟩
  | _ + 2 => exact ⟨relay_sound.2.2, (by decide +kernel : relay2.dq.length ≤ relay2.cfg.qcap)⟩

/-- Both ends of the range of numbers of a reset state's registers. -/
theorem witness_ResetValues :
    (State.resetWith cfgB).grab 1 = Grabber.reset ∧
      (State.resetWith cfgB).filter 1 = ⟨cfgB.kfX0, cfgB.kfP0⟩ := by decide +kernel

theorem witness_ResetMeetsTheInvariants :
    cfgA.legal = true ∧ cfgB.legal = true ∧ Config.reference.legal = true := by decide +kernel

end Sys2Proof.Tests
end

section
/-! PROOFS. The state (10_state.md): what is never undone, the lifecycle of a Grabber, and the state after
reset. -/

namespace Sys2Proof.Machine

/-! ## Sticky and append-only state (10_state.md R21, R22, R26, R27, R37, R38) -/

/-- From `s` to `t` nothing sticky is undone: lists only grow, bits stay set, `GEO` stays latched, the tick
read does not go back. -/
structure Sticky (s t : State) : Prop where
  faults : s.faults <+: t.faults
  log : s.log <+: t.log
  resp : s.resp <+: t.resp
  tout : s.tout <+: t.tout
  cancel : s.cancel = true → t.cancel = true
  latched : s.allocated = true → t.allocated = true ∧ t.geo = s.geo
  cfg : t.cfg = s.cfg
  tick : s.tick.toNat ≤ t.tick.toNat

theorem Sticky.refl (s : State) : Sticky s s where
  faults := List.prefix_rfl
  log := List.prefix_rfl
  resp := List.prefix_rfl
  tout := List.prefix_rfl
  cancel := id
  latched h := ⟨h, rfl⟩
  cfg := rfl
  tick := le_rfl

theorem Sticky.trans {s r t : State} (h : Sticky s r) (k : Sticky r t) : Sticky s t where
  faults := h.faults.trans k.faults
  log := h.log.trans k.log
  resp := h.resp.trans k.resp
  tout := h.tout.trans k.tout
  cancel := k.cancel ∘ h.cancel
  latched hs :=
    have ⟨hr, hrg⟩ := h.latched hs
    have ⟨ht, htg⟩ := k.latched hr
    ⟨ht, htg.trans hrg⟩
  cfg := k.cfg.trans h.cfg
  tick := h.tick.trans k.tick

/-- No single change of an operation or a step undoes sticky state: those that touch it append to a list,
set a bit, latch `GEO` for the first time or read a later tick. -/
theorem sticky_closed : Closed Sticky where
  refl := .refl
  trans _ _ _ := .trans
  answer s _ := { Sticky.refl s with resp := List.prefix_append _ _ }
  raise s _ _ :=
    { Sticky.refl s with resp := List.prefix_append _ _, faults := List.prefix_append _ _ }
  alloc s h := { Sticky.refl s with latched := fun ha => absurd ha (by simp [h]) }
  gwrap s _ _ _ _ hx := { Sticky.refl s with tick := hx }
  log s _ := { Sticky.refl s with log := List.prefix_append _ _ }
  gstat s _ _ _ hl _ := { Sticky.refl s with log := hl }
  cancel s := { Sticky.refl s with cancel := fun _ => rfl }
  output s _ := { Sticky.refl s with tout := List.prefix_append _ _ }
  moved s r h := by
    obtain ⟨_, _, _, rfl⟩ := h
    exact { Sticky.refl s with }
  keepOpen s _ _ _ := { Sticky.refl s with }
  setLock s _ _ := { Sticky.refl s with }
  mem s _ _ _ := { Sticky.refl s with }
  setWip s _ _ := { Sticky.refl s with }
  phase s _ _ _ _ := { Sticky.refl s with }
  gstart s _ _ := { Sticky.refl s with }
  stop s _ _ := { Sticky.refl s with }
  stopd s _ _ := { Sticky.refl s with }
  gread s _ _ _ := { Sticky.refl s with }
  enq s _ _ := { Sticky.refl s with }
  deq s _ _ _ := { Sticky.refl s with }
  filt s _ _ := { Sticky.refl s with }
  took s _ _ _ _ _ := { Sticky.refl s with }
  got s _ _ _ := { Sticky.refl s with }
  gotd s _ := { Sticky.refl s with }
  detect s _ := { Sticky.refl s with }

/-- Settles O48: `Sticky` holds across each single change, hence across every step. -/
theorem stickyStateStays : Obligations.StickyStateStays := by
  intro s t h
  obtain ⟨faults, log, resp, tout, cancel, latched, cfg, tick⟩ := sticky_closed.step h
  exact ⟨faults, log, resp, tout, cancel, latched, cfg, tick⟩

/-! ## The lifecycle of a Grabber (10_state.md R29) -/

/-- What a change of a Grabber's registers keeps of its lifecycle. -/
structure Grabber.Lifecycle (g g' : Grabber) : Prop where
  running : runningIffNotIdle g → runningIffNotIdle g'
  stopped : g.gstate = .stopped → g'.gstate = .stopped
  created : g'.gstate = .created → g.gstate = .created

theorem Grabber.Lifecycle.refl (g : Grabber) : g.Lifecycle g := ⟨id, id, id⟩

theorem Grabber.Lifecycle.trans {g k l : Grabber} (h : g.Lifecycle k) (h' : k.Lifecycle l) :
    g.Lifecycle l :=
  ⟨h'.running ∘ h.running, h'.stopped ∘ h.stopped, h.created ∘ h'.created⟩

/-- A Grabber in its loop that changes phase inside the loop. -/
theorem Grabber.Lifecycle.of_inLoop {g g' : Grabber} (hs : g'.gstate = g.gstate) (hg : g.gph ≠ .idle)
    (hg' : g'.gph ≠ .idle) : g.Lifecycle g' where
  running h := by simpa [runningIffNotIdle, hs, hg'] using h.mpr hg
  stopped h := hs.trans h
  created h := hs.symm.trans h

/-- A Grabber in its loop that is stopped. -/
theorem Grabber.Lifecycle.of_stop {g g' : Grabber} (hs : g'.gstate = .stopped) (hp : g'.gph = .idle) :
    g.Lifecycle g' where
  running _ := by simp [runningIffNotIdle, hs, hp]
  stopped _ := hs
  created h := by simp [hs] at h

/-- A Grabber that is started. -/
theorem Grabber.Lifecycle.of_start {g g' : Grabber} (hg : g.gstate = .created)
    (hs : g'.gstate = .running) (hp : g'.gph = .opn) : g.Lifecycle g' where
  running _ := by simp [runningIffNotIdle, hs, hp]
  stopped h := by simp [hg] at h
  created h := by simp [hs] at h

/-- Every Grabber's lifecycle is kept where that of the one changed is. -/
theorem lifecycle_modGrab (s : State) (u : Nat) (f : Grabber → Grabber)
    (h : (s.grab u).Lifecycle (f (s.grab u))) (i : Nat) :
    (s.grab i).Lifecycle ((s.modGrab u f).grab i) := by
  rw [grab_modGrab]
  split_ifs with hi
  · exact hi.1 ▸ h
  · exact .refl _

/-- Every single change keeps the lifecycle of every Grabber. -/
theorem lifecycle_closed : Closed fun s t => ∀ i, (s.grab i).Lifecycle (t.grab i) where
  refl _ _ := .refl _
  trans _ _ _ h k i := (h i).trans (k i)
  setWip s u w := lifecycle_modGrab s u _ ⟨id, id, id⟩
  phase s u p hg hp := lifecycle_modGrab s u _ (.of_inLoop rfl hg hp)
  gstart s u hg := lifecycle_modGrab s u _ (.of_start hg rfl rfl)
  stop s u _ := lifecycle_modGrab s u _ (.of_stop rfl rfl)
  stopd s u _ := lifecycle_modGrab s u _ (.of_stop rfl rfl)
  gread s u _ hg := lifecycle_modGrab s u _ (.of_inLoop rfl hg (by simp))
  gwrap s u x _ hg _ := lifecycle_modGrab { s with tick := x } u _ (.of_inLoop rfl hg (by simp))
  gstat s u l _ _ hg := lifecycle_modGrab { s with log := l } u _ (.of_inLoop rfl hg (by simp))
  moved _ _ h i := by
    obtain ⟨_, _, _, rfl⟩ := h
    exact .refl _
  answer _ _ _ := .refl _
  raise _ _ _ _ := .refl _
  keepOpen _ _ _ _ _ := .refl _
  alloc _ _ _ := .refl _
  setLock _ _ _ _ := .refl _
  mem _ _ _ _ _ := .refl _
  enq _ _ _ _ := .refl _
  log _ _ _ := .refl _
  deq _ _ _ _ _ := .refl _
  cancel _ _ := .refl _
  filt _ _ _ _ := .refl _
  took _ _ _ _ _ _ _ := .refl _
  got _ _ _ _ _ := .refl _
  gotd _ _ _ := .refl _
  detect _ _ _ := .refl _
  output _ _ _ := .refl _

/-- Settles O50: each single change keeps the lifecycle of every Grabber, hence every step does. -/
theorem stepKeepsTheLifecycle : Obligations.StepKeepsTheLifecycle := by
  intro s t h
  have hl := lifecycle_closed.step h
  exact ⟨fun hr i => (hl i).running (hr i), fun i => (hl i).stopped, fun i => (hl i).created⟩

/-! ## The state after reset (10_state.md R45) -/

section
variable (c : Cfg)

@[simp] theorem resetWith_grab (k : Nat) : (State.resetWith c).grab k = Grabber.reset :=
  List.getElem?_getD_replicate_default_eq _ _ _

@[simp] theorem resetWith_filter (k : Nat) : (State.resetWith c).filter k = ⟨c.kfX0, c.kfP0⟩ :=
  List.getElem?_getD_replicate_default_eq _ _ _

@[simp] theorem resetWith_tracker (k : Nat) : (State.resetWith c).tracker k = Tracker.reset :=
  List.getElem?_getD_replicate_default_eq _ _ _

@[simp] theorem resetWith_lockOf (k : Nat) : (State.resetWith c).lockOf k = none :=
  List.getElem?_getD_replicate_default_eq _ _ _

/-- The register files have one entry a unit after reset. -/
theorem resetWith_filesOk : (State.resetWith c).FilesOk where
  grb := List.length_replicate
  kfu := List.length_replicate
  trk := List.length_replicate
  locks := List.length_replicate

/-- After reset no write is in flight, no lock is held and nothing is outstanding. -/
theorem resetWith_lockOk : (State.resetWith c).LockOk where
  grbLength := List.length_replicate
  locksLength := List.length_replicate
  wipHolds k h := by simp [Grabber.reset] at h
  holderWrites i k h := by simp at h
  pendOwn e he := absurd he List.not_mem_nil
  wipAllocated k h := by simp [Grabber.reset] at h

/-- After reset every Grabber is idle, every Tracker at rest, and nothing is allocated or outstanding. -/
theorem resetWith_sound (h : c.legal = true) : (State.resetWith c).Sound where
  cfgLegal := h
  geoLatched ha := Bool.noConfusion ha
  grbLength := List.length_replicate
  regsHeld i := by simp [phaseRegistersHeld, Grabber.reset]
  pendInside e he := absurd he List.not_mem_nil
  viewsInside p v hv := absurd hv List.not_mem_nil
  cyclesInside j hj := absurd (by simp [Tracker.reset, Cycle.rest]) hj

end

/-- Settles O59: each value is the one `State.resetWith` writes down; a register file is a list of copies
of its reset value. -/
theorem resetValues : Obligations.ResetValues := by
  intro c k
  obtain ⟨grb, kfu, trk, locks⟩ := resetWith_filesOk c
  have ht := resetWith_tracker c k
  refine ⟨grb, kfu, trk, locks, rfl, rfl, rfl, resetWith_lockOf c k, rfl, rfl, resetWith_grab c k,
    resetWith_filter c k, rfl, rfl, ?_, ?_, ?_, ?_, ?_, fun _ => rfl, rfl, rfl⟩ <;> rw [ht] <;> rfl

/-- Settles O60: each invariant in turn. -/
theorem resetMeetsTheInvariants : Obligations.ResetMeetsTheInvariants := by
  intro c hc
  refine ⟨resetWith_sound c hc, resetWith_lockOk c, ?_, List.nodup_nil, resetWith_filesOk c, ?_,
    Nat.zero_le _⟩
  · exact ⟨empty_wf, fun _ h => absurd h List.not_mem_nil, fun _ => rfl⟩
  · intro i
    simp [runningIffNotIdle, Grabber.reset]

end Sys2Proof.Machine
end

section
/-! PROOFS. What an operation does, in two parts: what it changes of the block, and how it ends. The
statements about locks, soundness and registers take the two parts apart. -/

namespace Sys2Proof.Machine

/-! ## What an operation changes, and how it ends -/

/-- What operation `i` other than a WRSLOT in its byte writes has changed of the block when it ends. -/
inductive OpEffect (i : Instr) (s : State) : State → Prop
  /-- the queue and the cancellation at most -/
  | free (q : List Frame) (b : Bool) : OpEffect i s { s with dq := q, cancel := b }
  /-- ALLOC -/
  | alloc (h : s.allocated = false) : OpEffect i s (s.allocate s.cfg.geo)
  /-- LOCK and UNLOCK: no Grabber held the lock and none holds it now -/
  | lock (u : Nat) (h : Option Port) (hs : ∀ k, s.lockOf u ≠ some (.grb k))
      (hh : ∀ k, h ≠ some (.grb k)) : OpEffect i s (s.setLock u h)
  /-- the registers of one Grabber, but for its write in flight -/
  | grab (u : UnitNo) (x : U64) (q : List Frame) (l : List LogEvent) (f : Grabber → Grabber)
      (hp : s.inp.port = .grb u.toNat ∨ i = .gstart u) (hw : ∀ g, (f g).wip = g.wip)
      (hr : phaseRegistersHeld (f (s.grab u.toNat))) :
      OpEffect i s (State.modGrab { s with tick := x, dq := q, log := l } u.toNat f)
  /-- the registers of one filter -/
  | filter (u : UnitNo) (k : Kfu) (hp : s.inp.port = .trk u.toNat ∨ s.inp.port = .mgr ∧ i = .kfinit u) :
      OpEffect i s (s.setFilter u.toNat k)

/-- An operation that changes nothing. -/
theorem OpEffect.same (i : Instr) (s : State) : OpEffect i s s := .free s.dq s.cancel

/-- A Grabber's own operation that changes its registers and nothing else. -/
theorem OpEffect.own {i : Instr} {s : State} (u : UnitNo) (f : Grabber → Grabber)
    (hp : s.inp.port = .grb u.toNat) (hw : ∀ g, (f g).wip = g.wip)
    (hr : phaseRegistersHeld (f (s.grab u.toNat))) : OpEffect i s (s.modGrab u.toNat f) :=
  .grab u s.tick s.dq s.log f (.inl hp) hw hr

/-- How operation `i` ends once the block is in state `r`: with a fault, with an answer, or not yet. -/
inductive Ended (i : Instr) (r t : State) : Prop
  | raised (c : Cause) (info : Info) (h : t = r.raise c info)
  | answered (x : Result) (h : t = r.respond x)
      (hv : ∀ v, x = .view v → r.allocated = true ∧ ∃ u < r.cfg.geo.n, v = slotView r.geo u)
  | left (pl : Payload) (g : List (Nat × Byte)) (h : t = r.keepOpen i pl g)
      (hw : ∀ u, i ≠ .wrslot u)
      (hd : ∀ u, i = .decmd u → r.allocated = true ∧ u.toNat < r.cfg.geo.n)

/-- What a run of byte writes of a WRSLOT of Grabber `u` has changed: the lock may just have been taken,
the memory and the record of the write in flight are others. -/
inductive WriteRun (u : Nat) (s : State) : State → Prop
  /-- the operation waits for the lock -/
  | same : WriteRun u s s
  /-- the lock was free and is taken -/
  | begun (m : Memory) (w : Wip) (hl : s.lockOf u = none) :
      WriteRun u s (State.setWip { s.setLock u (some s.inp.port) with sfb := m } u (some w))
  /-- a write in flight goes on -/
  | went (m : Memory) (w : Wip) (hw : (s.grab u).wip.isSome = true) :
      WriteRun u s (State.setWip { s with sfb := m } u (some w))

/-- How a WRSLOT that has passed its checks ends: it is left open, or no byte is left and the write is
finished. -/
inductive WriteEnded (u : UnitNo) (q t : State) : Prop
  | left (pl : Payload) (h : t = q.keepOpen (.wrslot u) pl [])
  | finished (hw : (q.grab u.toNat).wip.isSome = true) (h : t = q.finishWrite u.toNat)

/-! ## WRSLOT -/

theorem setWip_setWip (s : State) (m m' : Memory) (u : Nat) (w w' : Option Wip) :
    State.setWip { State.setWip { s with sfb := m } u w with sfb := m' } u w' =
      State.setWip { s with sfb := m' } u w' := by
  simp only [State.setWip, State.modGrab, modify_modify_self]
  rfl

/-- The registers of Grabber `u` after its write in flight is set, where it has registers. -/
theorem grab_setWip (s : State) (u k : Nat) (w : Option Wip) :
    (s.setWip u w).grab k =
      if k = u ∧ u < s.grb.length then { s.grab k with wip := w } else s.grab k :=
  grab_modGrab _ _ _ _

/-- A property kept by every change of the memory and of the write in flight holds where a run of byte
writes ends. -/
theorem writeBytes_run {u : UnitNo} {pl : Payload} {ns : List Nat} {s t : State}
    {P : State → Prop} (hs : P s)
    (hP : ∀ r m w, P r → (r.grab u.toNat).wip.isSome = true →
      P (State.setWip { r with sfb := m } u.toNat (some w)))
    (h : writeBytes u pl ns s = .next t) : ∃ q, P q ∧ WriteEnded u q t := by
  obtain ⟨q, hq, rfl | ⟨w, hw, -, rfl⟩⟩ :=
    writeBytes_next (Inv := P) (fun r w it hr hw _ _ => hP r _ _ hr (by simp [hw])) hs h
  · exact ⟨q, hq, .left pl rfl⟩
  · exact ⟨q, hq, .finished (by simp [hw]) rfl⟩

/-- One more byte write extends a run of byte writes. -/
theorem WriteRun.write {u : Nat} {s r : State} (h : WriteRun u s r) (m : Memory) (w : Wip)
    (hw : (r.grab u).wip.isSome = true) :
    WriteRun u s (State.setWip { r with sfb := m } u (some w)) := by
  cases h with
  | same => exact .went m w hw
  | begun m' w' hl =>
    rw [setWip_setWip]
    exact .begun m w hl
  | went m' w' hs =>
    rw [setWip_setWip]
    exact .went m w hs

theorem acquireAndWrite_run {u : UnitNo} {pl : Payload} {s t : State}
    (h : s.acquireAndWrite u pl = .next t) :
    (∃ c info, t = s.raise c info) ∨ ∃ q, WriteRun u.toNat s q ∧ WriteEnded u q t := by
  rcases acquireAndWrite_next h with ⟨hl, hb⟩ | ⟨-, rfl⟩ | ⟨-, rfl⟩
  · exact .inr (writeBytes_run (.begun s.sfb _ hl) (fun _ m w hr => hr.write m w) hb)
  · exact .inr ⟨s, .same, .left pl rfl⟩
  · exact .inl ⟨_, _, rfl⟩

/-- A Grabber that is stopped needs no register. -/
theorem phaseRegistersHeld_idle {g : Grabber} (h : g.gph = .idle) : phaseRegistersHeld g := by
  simp [phaseRegistersHeld, h]

/-- What a WRSLOT can do: raise, with its Grabber stopped or not, or run byte writes, on the Grabber's own
port and after its checks where it is issued. -/
theorem execWrslot_run {u : UnitNo} {s t : State} (h : execWrslot u s = .next t) :
    (∃ r, Ended (.wrslot u) r t ∧ OpEffect (.wrslot u) s r) ∨
      (s.outstanding = none →
          s.inp.port = .grb u.toNat ∧ u.toNat < s.cfg.geo.n ∧ s.allocated = true) ∧
        ∃ q, WriteRun u.toNat s q ∧ WriteEnded u q t := by
  have raised : (∃ c info, t = s.raise c info) →
      ∃ r, Ended (.wrslot u) r t ∧ OpEffect (.wrslot u) s r :=
    fun ⟨c, info, ht⟩ => ⟨s, .raised c info ht, .same _ _⟩
  unfold execWrslot at h
  split at h
  · rcases startWrite_next h with hr | ⟨hp, -, c, info, -, ht⟩ | ⟨hp, ha, hu, pl, -, -, hb⟩
    · exact .inl (raised hr)
    · exact .inl ⟨_, .raised c info ht, .own u _ hp (fun _ => rfl) (phaseRegistersHeld_idle rfl)⟩
    · exact (acquireAndWrite_run hb).imp raised fun hq => ⟨fun _ => ⟨hp, hu, ha⟩, hq⟩
  · rename_i o ho
    have issued : s.outstanding = none →
        s.inp.port = .grb u.toNat ∧ u.toNat < s.cfg.geo.n ∧ s.allocated = true :=
      fun hn => by simp [hn] at ho
    unfold State.continueWrite at h
    split at h
    · exact .inr ⟨issued, writeBytes_run .same (fun _ m w hr => hr.write m w) h⟩
    · exact (acquireAndWrite_run h).imp raised fun hq => ⟨issued, hq⟩

/-! ## Every operation -/

section
variable {i : Instr} {u : UnitNo} {r t : State}

/-- An operation that answers anything but a View. -/
theorem Ended.respond (x : Result) (hx : ∀ v, x ≠ .view v) : Ended i r (r.respond x) :=
  .answered x rfl fun v h => absurd h (hx v)

/-- An operation that waits and reads no bytes. -/
theorem Ended.wait (hw : ∀ u, i ≠ .wrslot u) (hd : ∀ u, i ≠ .decmd u) : Ended i r (r.wait i) :=
  .left _ _ rfl hw fun u h => absurd h (hd u)

end

/-- The ports of LOCK and UNLOCK are no Grabber's (60_exceptions.md R271). -/
theorem inspector_not_grb {p : Port} (hp : p = .mgr ∨ ∃ j, p = .trk j) (k : Nat) :
    some p ≠ some (.grb k) := by
  rcases hp with rfl | ⟨j, rfl⟩ <;> simp

/-- What any operation can do. A WRSLOT that has passed its checks is the second case, everything else
the first. -/
theorem exec_effect {i : Instr} {s t : State} (h : exec i s = .next t) :
    (∃ r, Ended i r t ∧ OpEffect i s r) ∨
      ∃ u, i = .wrslot u ∧
        (s.outstanding = none →
          s.inp.port = .grb u.toNat ∧ u.toNat < s.cfg.geo.n ∧ s.allocated = true) ∧
        ∃ q, WriteRun u.toNat s q ∧ WriteEnded u q t := by
  have raised : ∀ c info, t = s.raise c info → ∃ r, Ended i r t ∧ OpEffect i s r :=
    fun c info ht => ⟨s, .raised c info ht, .same i s⟩
  cases i with
  | wrslot u => exact (execWrslot_run h).imp_right fun hw => ⟨u, rfl, hw⟩
  | alloc u =>
    rcases execAlloc_next h with ⟨c, info, ht⟩ | ⟨-, ha, -, -, rfl⟩
    · exact .inl (raised c info ht)
    · exact .inl ⟨_, .respond _ (by simp), .alloc ha⟩
  | lock u =>
    rcases execLock_next h with ⟨c, info, ht⟩ | ⟨hp, -, -, ⟨hl, rfl⟩ | rfl⟩
    · exact .inl (raised c info ht)
    · exact .inl ⟨_, .respond _ (by simp), .lock _ _ (by simp [hl]) (inspector_not_grb hp)⟩
    · exact .inl ⟨s, .wait (by simp) (by simp), .same _ s⟩
  | unlock u =>
    rcases execUnlock_next h with ⟨c, info, ht⟩ | ⟨hp, -, -, hl, rfl⟩
    · exact .inl (raised c info ht)
    · exact .inl ⟨_, .respond _ (by simp), .lock _ _ (hl ▸ inspector_not_grb hp) (by simp)⟩
  | rdslot u =>
    rcases execRdslot_next h with ⟨c, info, ht⟩ | ⟨-, ha, hu, rfl⟩
    · exact .inl (raised c info ht)
    · refine .inl ⟨s, .answered _ rfl fun v hv => ⟨ha, u.toNat, hu, ?_⟩, .same _ s⟩
      exact (Result.view.inj hv).symm
  | encmd u =>
    rcases execEncmd_next h with ⟨c, info, ht⟩ | rfl
    · exact .inl (raised c info ht)
    · exact .inl ⟨s, .respond _ (by simp), .same _ s⟩
  | decmd u =>
    rcases execDecmd_next h with ⟨c, info, ht⟩ | ⟨-, ha, hu, ⟨g, rfl⟩ | ⟨g, rfl⟩⟩
    · exact .inl (raised c info ht)
    · refine .inl ⟨s, .left _ g rfl (by simp) fun v hv => ⟨ha, ?_⟩, .same _ s⟩
      exact Instr.decmd.inj hv ▸ hu
    · exact .inl ⟨s, .respond _ (by simp [decodedPair]), .same _ s⟩
  | gstart u =>
    rcases execGstart_next h with ⟨c, info, ht⟩ | ⟨-, -, -, rfl⟩
    · exact .inl (raised c info ht)
    · exact .inl ⟨_, .respond _ (by simp), .grab u s.tick s.dq s.log _ (.inr rfl) (fun _ => rfl)
        (by simp [phaseRegistersHeld])⟩
  | gopen u =>
    rcases execGopen_next h with ⟨c, info, ht⟩ | ⟨hp, -, -, rfl | rfl⟩
    · exact .inl (raised c info ht)
    · exact .inl ⟨_, .respond _ (by simp), .own u _ hp (fun _ => rfl) (by simp [phaseRegistersHeld])⟩
    · exact .inl ⟨_, .raised _ _ rfl, .own u _ hp (fun _ => rfl) (phaseRegistersHeld_idle rfl)⟩
  | gchk u =>
    rcases execGchk_next h with ⟨c, info, ht⟩ | ⟨hp, -, -, rfl | rfl⟩
    · exact .inl (raised c info ht)
    · exact .inl ⟨_, .respond _ (by simp), .own u _ hp (fun _ => rfl) (phaseRegistersHeld_idle rfl)⟩
    · exact .inl ⟨_, .respond _ (by simp), .own u _ hp (fun _ => rfl) (by simp [phaseRegistersHeld])⟩
  | gread u =>
    rcases execGread_next h with ⟨c, info, ht⟩ | ⟨hp, -, -, rfl | rfl | ⟨img, rfl⟩⟩
    · exact .inl (raised c info ht)
    · exact .inl ⟨s, .wait (by simp) (by simp), .same _ s⟩
    · exact .inl ⟨_, .respond _ (by simp), .own u _ hp (fun _ => rfl) (by simp [phaseRegistersHeld])⟩
    · exact .inl ⟨_, .respond _ (by simp), .own u _ hp (fun _ => rfl) (by simp [phaseRegistersHeld])⟩
  | gwrap u =>
    rcases execGwrap_next h with ⟨c, info, ht⟩ | ⟨hp, -, -, x, f, -, rfl⟩
    · exact .inl (raised c info ht)
    · exact .inl ⟨_, .respond _ (by simp),
        .grab u x s.dq s.log _ (.inl hp) (fun _ => rfl) (by simp [phaseRegistersHeld])⟩
  | enq u =>
    rcases execEnq_next h with
      ⟨c, info, ht⟩ | ⟨hp, -, -, f, hf, ⟨-, rfl⟩ | ⟨-, rfl⟩ | rfl⟩
    · exact .inl (raised c info ht)
    · exact .inl ⟨_, .respond _ (by simp),
        .grab u s.tick (s.dq ++ [f]) s.log _ (.inl hp) (fun _ => rfl)
          (by simp [phaseRegistersHeld, hf])⟩
    · exact .inl ⟨_, .respond _ (by simp),
        .grab u s.tick s.dq (s.log ++ [.dropFull u.toNat f.index]) (fun g => { g with gph := .wr })
          (.inl hp) (fun _ => rfl) (by simp [phaseRegistersHeld, hf])⟩
    · exact .inl ⟨s, .wait (by simp) (by simp), .same _ s⟩
  | gstat u =>
    rcases execGstat_next h with ⟨c, info, ht⟩ | ⟨hp, -, -, l, n, -, rfl⟩
    · exact .inl (raised c info ht)
    · exact .inl ⟨_, .respond _ (by simp),
        .grab u s.tick s.dq l _ (.inl hp) (fun _ => rfl) (by simp [phaseRegistersHeld])⟩
  | gpace u =>
    rcases execGpace_next h with ⟨c, info, ht⟩ | ⟨hp, -, -, rfl⟩
    · exact .inl (raised c info ht)
    · exact .inl ⟨_, .respond _ (by simp), .own u _ hp (fun _ => rfl) (by simp [phaseRegistersHeld])⟩
  | deq u =>
    rcases execDeq_next h with ⟨c, info, ht⟩ | rfl | ⟨f, fs, -, rfl⟩
    · exact .inl (raised c info ht)
    · exact .inl ⟨s, .wait (by simp) (by simp), .same _ s⟩
    · exact .inl ⟨_, .respond _ (by simp), .free fs s.cancel⟩
  | cancel u =>
    rcases execCancel_next h with ⟨c, info, ht⟩ | rfl
    · exact .inl (raised c info ht)
    · exact .inl ⟨_, .respond _ (by simp), .free s.dq true⟩
  | kfinit u =>
    rcases execKfinit_next h with ⟨c, info, ht⟩ | ⟨hp, -, rfl⟩
    · exact .inl (raised c info ht)
    · exact .inl ⟨_, .respond _ (by simp), .filter u _ (hp.symm.imp_right fun hm => ⟨hm, rfl⟩)⟩
  | kfpred u =>
    rcases execKfpred_next h with ⟨c, info, ht⟩ | ⟨hp, -, k, rfl⟩
    · exact .inl (raised c info ht)
    · exact .inl ⟨_, .respond _ (by simp), .filter u k (.inl hp)⟩
  | kfcorr u =>
    rcases execKfcorr_next h with ⟨c, info, ht⟩ | ⟨hp, -, k, rfl⟩
    · exact .inl (raised c info ht)
    · exact .inl ⟨_, .respond _ (by simp), .filter u k (.inl hp)⟩

end Sys2Proof.Machine
end

section
/-! PROOFS. Whose registers an operation changes (10_state.md R30, R34; 60_exceptions.md R270). -/

namespace Sys2Proof.Machine

section
variable {i : Instr} {u : UnitNo} {s r q t : State} {k : Nat}

/-- An ending touches the fault records and the ports only. -/
theorem Ended.frame (h : Ended i r t) :
    ∃ pd rs fs, t = { r with pend := pd, resp := rs, faults := fs } := by
  cases h with
  | raised c info h => exact ⟨_, _, _, h⟩
  | answered x h => exact ⟨_, _, _, h⟩
  | left pl g h => exact ⟨_, _, _, h⟩

theorem grab_modGrab_of_ne (s : State) {u k : Nat} (f : Grabber → Grabber) (hk : u ≠ k) :
    (s.modGrab u f).grab k = s.grab k := by
  rw [grab_modGrab, if_neg fun h => hk h.1.symm]

/-- The registers of a Grabber other than the operation's own. -/
theorem OpEffect.grab_eq (h : OpEffect i s r) (hp : s.inp.port ≠ .grb k)
    (hi : ∀ u, i = .gstart u → u.toNat ≠ k) : r.grab k = s.grab k := by
  cases h with
  | free q b => rfl
  | alloc h => rfl
  | lock u h hs hh => rfl
  | filter u k hp => rfl
  | grab u x q l f hu hw hr =>
    refine grab_modGrab_of_ne _ f ?_
    rcases hu with hu | hu
    · rintro rfl
      exact hp hu
    · exact hi u hu

/-- The registers of a filter other than the operation's own. -/
theorem OpEffect.filter_eq (h : OpEffect i s r) (hp : s.inp.port ≠ .trk k)
    (hi : s.inp.port = .mgr → ∀ u, i = .kfinit u → u.toNat ≠ k) : r.filter k = s.filter k := by
  cases h with
  | free q b => rfl
  | alloc h => rfl
  | lock u h hs hh => rfl
  | grab u x q l f hu hw hr => rfl
  | filter u v hu =>
    rw [filter_setFilter, if_neg]
    rintro ⟨rfl, -⟩
    rcases hu with hu | ⟨hm, hu⟩
    · exact hp hu
    · exact hi hm u hu rfl

end

/-! ## WRSLOT -/

/-- From `s` to `r` nothing has changed but the memory, the lock registers and the registers of Grabber
`u`, of which those its phase needs are still held. -/
def WriteFrame (u : Nat) (s r : State) : Prop :=
  ∃ m lk f, (∀ g, phaseRegistersHeld g → phaseRegistersHeld (f g)) ∧
    r = State.modGrab { s with sfb := m, locks := lk } u f

section
variable {u : UnitNo} {s r q t : State} {k : Nat}

theorem WriteFrame.refl (u : Nat) (s : State) : WriteFrame u s s := by
  refine ⟨s.sfb, s.locks, id, fun _ => id, ?_⟩
  unfold State.modGrab
  rw [List.modify_id]

/-- One more change of Grabber `u`, the memory and the lock. -/
theorem WriteFrame.mod {u : Nat} (h : WriteFrame u s r) (m : Memory) (lk : List (Option Port))
    (f : Grabber → Grabber) (hf : ∀ g, phaseRegistersHeld g → phaseRegistersHeld (f g)) :
    WriteFrame u s (State.modGrab { r with sfb := m, locks := lk } u f) := by
  obtain ⟨_, _, f', hf', rfl⟩ := h
  refine ⟨m, lk, f ∘ f', fun g hg => hf _ (hf' g hg), ?_⟩
  simp only [State.modGrab, modify_modify_self]

theorem WriteRun.frame {u : Nat} (h : WriteRun u s q) : WriteFrame u s q := by
  cases h with
  | same => exact .refl u s
  | begun m w hl => exact (WriteFrame.refl u s).mod m _ _ fun _ => id
  | went m w hw => exact (WriteFrame.refl u s).mod m s.locks _ fun _ => id

/-- A WRSLOT ends like any operation: with a fault, an answer that is no View, or not yet. -/
theorem WriteEnded.frame (hq : WriteRun u.toNat s q) (h : WriteEnded u q t) :
    ∃ r, WriteFrame u.toNat s r ∧ ((∃ c info, t = r.raise c info) ∨ t = r.respond .none ∨
      ∃ pl, t = r.keepOpen (.wrslot u) pl []) := by
  have cleared (lk : List (Option Port)) :
      WriteFrame u.toNat s (State.setWip { q with locks := lk } u.toNat none) :=
    hq.frame.mod q.sfb lk _ fun _ => id
  cases h with
  | left pl h => exact ⟨q, hq.frame, .inr (.inr ⟨pl, h⟩)⟩
  | finished hw h =>
    rcases finishWrite_cases q u.toNat with ⟨-, hf⟩ | ⟨-, hf⟩ <;> rw [hf] at h
    · refine ⟨_, ?_, .inr (.inl h)⟩
      split_ifs
      · exact (cleared _).mod q.sfb _ _ fun g _ => by simp [phaseRegistersHeld]
      · exact cleared _
    · exact ⟨_, cleared q.locks, .inl ⟨_, _, h⟩⟩

/-- A WRSLOT changes the registers of no other Grabber and of no filter. -/
theorem WriteEnded.registers_eq (hq : WriteRun u.toNat s q) (h : WriteEnded u q t) :
    (∀ k, u.toNat ≠ k → t.grab k = s.grab k) ∧ ∀ k, t.filter k = s.filter k := by
  obtain ⟨r, ⟨m, lk, f, -, rfl⟩, ⟨c, info, rfl⟩ | rfl | ⟨pl, rfl⟩⟩ := h.frame hq
  · exact ⟨fun k => grab_modGrab_of_ne _ f, fun _ => rfl⟩
  · exact ⟨fun k => grab_modGrab_of_ne _ f, fun _ => rfl⟩
  · exact ⟨fun k => grab_modGrab_of_ne _ f, fun _ => rfl⟩

end

/-! ## Every operation -/

/-- A unit that is not the one written `k` has another number. -/
theorem unit_ne_of {op : UnitNo → Instr} {i : Instr} {k : Nat} (h : i ≠ op (BitVec.ofNat 8 k))
    (u : UnitNo) (hu : i = op u) : u.toNat ≠ k := by
  rintro rfl
  simp [hu] at h

/-- Settles O45: an operation's effect is on the registers of its own unit, and its port is the unit's own,
GSTART and KFINIT apart; its end is on no register. -/
theorem registersChangeOnlyByTheirOwner : Obligations.RegistersChangeOnlyByTheirOwner := by
  intro i s t k h _
  rcases exec_effect h with ⟨r, he, ho⟩ | ⟨u, rfl, issued, q, hq, he⟩
  · obtain ⟨_, _, _, rfl⟩ := he.frame
    exact ⟨fun hp hg _ => ho.grab_eq hp (unit_ne_of hg),
      fun hp hk => ho.filter_eq hp fun hm => unit_ne_of (hk hm)⟩
  · obtain ⟨hgrab, hfilter⟩ := he.registers_eq hq
    refine ⟨fun hp _ hw => hgrab k ?_, fun _ _ => hfilter k⟩
    rintro rfl
    rcases hw with hw | hw
    · exact hp (issued hw).1
    · exact unit_ne_of (op := .wrslot) hw u rfl rfl

end Sys2Proof.Machine
end

section
/-! PROOFS. The model's two invariants (log entry 13): the lock with the writer (10_state.md R32;
70_reset_and_hazards.md R303), and soundness. -/

namespace Sys2Proof.Machine

/-! ## Invariants of a step -/

/-- What an invariant must survive so that every step keeps it: the event, the operations, and the changes
a Tracker makes to its own state. -/
structure StepInvariant (Inv : State → Prop) : Prop where
  moved : ∀ s r, Moved s r → Inv s → Inv r
  raise : ∀ s c i, Inv s → Inv (s.raise c i)
  byte : ∀ (s : State) b, Inv s → Inv (s.respond (.byte b))
  exec : ∀ i s t, s.mayRun i → exec i s = .next t → Inv s → Inv t
  took : ∀ (s : State) j l e, s.resp.getLast? = some e → Inv s →
    Inv (s.modTracker j (Tracker.took s.cfg l e.2))
  image : ∀ (s t : State) j, (s.tracker j).cyc.ph = .image → readImage j s.inp.draws.picks s = .next t →
    Inv s → Inv t
  detect : ∀ (s : State) j, (s.tracker j).cyc.ph = .detect → Inv s →
    Inv (s.modTracker j (detectStep s.cfg s.geo s.inp.draws))
  output : ∀ (s : State) j, Inv s → Inv (s.outputStep j)

theorem StepInvariant.step {Inv : State → Prop} (I : StepInvariant Inv) {s t : State} (hs : Inv s)
    (h : step s = .next t) : Inv t := by
  obtain ⟨r, hm, rfl | ⟨-, k⟩⟩ := step_next h
  · exact I.moved _ _ hm hs
  · have hr := I.moved _ _ hm hs
    cases k with
    | idle h => exact h ▸ hr
    | raised c i h => exact h ▸ I.raise r c i hr
    | viewByte v o b hv h => exact h ▸ I.byte r b hr
    | op i hi h => exact I.exec i r t hi h hr
    | cycleOp j i q hp ho hq h =>
      have hi : r.mayRun i := ho.imp_left And.left
      have hq := I.exec i r q hi hq hr
      rcases h with rfl | ⟨e, -, he, rfl⟩
      · exact hq
      · exact I.took q j _ e he hq
    | image j hp ho hi h => exact I.image r t j hi h hr
    | detect j hp ho hi h => exact h ▸ I.detect r j hi hr
    | output j hp ho hi h => exact h ▸ I.output r j hr

/-- The port's outstanding operation is among those listed. -/
theorem mem_pend_of_outstanding {s : State} {o : Pending} (h : s.outstanding = some o) :
    (s.inp.port, o) ∈ s.pend := by
  unfold State.outstanding State.outstandingOf at h
  generalize s.pend = l at h
  induction l with
  | nil => simp at h
  | cons e l ih =>
    obtain ⟨p, o'⟩ := e
    by_cases hp : s.inp.port = p
    · simp_all [List.lookup]
    · have hb : (s.inp.port == p) = false := by simp [hp]
      simp only [List.lookup, hb] at h
      exact List.mem_cons_of_mem _ (ih h)

/-- What holds of an operation that may run: it holds where the operation is issued, and of every
operation outstanding. -/
theorem State.mayRun.elim {s : State} {i : Instr} {P : Prop} (h : s.mayRun i)
    (issued : s.outstanding = none → P)
    (listed : ∀ e ∈ s.pend, e.1 = s.inp.port → e.2.instr = i → P) : P := by
  rcases h with h | ⟨o, ho, hi⟩
  · exact issued h
  · exact listed _ (mem_pend_of_outstanding ho) rfl hi

/-! ## The lock with the writer -/

theorem lockOf_congr {s : State} {i k : Nat} (h : lockIndex s.cfg i = lockIndex s.cfg k) :
    s.lockOf i = s.lockOf k := by
  unfold State.lockOf
  rw [h]

/-- Every slot has a lock register. -/
theorem lockIndex_lt {c : Cfg} {u : Nat} (hu : u < c.geo.n) : lockIndex c u < lockCount c := by
  unfold lockIndex lockCount
  cases c.scope with
  | buffer => exact Nat.one_pos
  | slot => exact hu

/-- A change of a Grabber that begins and ends no write leaves every write in flight so. -/
theorem wip_modGrab {s : State} {u : Nat} {f : Grabber → Grabber}
    (hf : (f (s.grab u)).wip.isSome = (s.grab u).wip.isSome) (k : Nat) :
    ((s.modGrab u f).grab k).wip.isSome = (s.grab k).wip.isSome := by
  rw [grab_modGrab]
  split_ifs with hk
  · exact hk.1 ▸ hf
  · rfl

section
variable {i : Instr} {s r q t : State} {u : Nat}

theorem State.LockOk.raise (h : s.LockOk) (c : Cause) (info : Info) : (s.raise c info).LockOk :=
  { h with pendOwn := fun e he => h.pendOwn e (mem_dropPending.mp he).1 }

theorem State.LockOk.respond (h : s.LockOk) (x : Result) : (s.respond x).LockOk :=
  { h with pendOwn := fun e he => h.pendOwn e (mem_dropPending.mp he).1 }

theorem State.LockOk.keepOpen (h : s.LockOk) {pl : Payload} {g : List (Nat × Byte)}
    (hi : ∀ u, i = .wrslot u →
      s.inp.port = .grb u.toNat ∧ u.toNat < s.cfg.geo.n ∧ s.allocated = true) :
    (s.keepOpen i pl g).LockOk :=
  { h with
    pendOwn := fun e he => by
      rcases List.mem_cons.mp he with rfl | he
      · exact hi
      · exact h.pendOwn e (mem_dropPending.mp he).1 }

/-- A change of a Grabber that begins and ends no write. -/
theorem State.LockOk.modGrab (h : s.LockOk) {f : Grabber → Grabber}
    (hf : (f (s.grab u)).wip.isSome = (s.grab u).wip.isSome) : (s.modGrab u f).LockOk where
  grbLength := by simpa using h.grbLength
  locksLength := h.locksLength
  wipHolds k hk := h.wipHolds k (wip_modGrab hf k ▸ hk)
  holderWrites i k hi := by
    rw [wip_modGrab hf k]
    exact h.holderWrites i k hi
  pendOwn := h.pendOwn
  wipAllocated k hk := h.wipAllocated k (wip_modGrab hf k ▸ hk)

/-- A lock that no Grabber held and none holds now. -/
theorem State.LockOk.setLock (h : s.LockOk) {x : Option Port} (hs : ∀ k, s.lockOf u ≠ some (.grb k))
    (hx : ∀ k, x ≠ some (.grb k)) : (s.setLock u x).LockOk where
  grbLength := h.grbLength
  locksLength := by simpa using h.locksLength
  wipHolds k hk := by
    rw [lockOf_setLock]
    split_ifs with hi
    · exact absurd (lockOf_congr hi.1 ▸ h.wipHolds k hk) (hs k)
    · exact h.wipHolds k hk
  holderWrites i k hi := by
    rw [lockOf_setLock] at hi
    split_ifs at hi
    · exact absurd hi (hx k)
    · exact h.holderWrites i k hi
  pendOwn := h.pendOwn
  wipAllocated := h.wipAllocated

/-- ALLOC creates the locks free, and before it nothing is in flight. -/
theorem State.LockOk.allocate (h : s.LockOk) (ha : s.allocated = false) (g : Geo) : (s.allocate g).LockOk where
  grbLength := h.grbLength
  locksLength := List.length_replicate
  wipHolds k hk := absurd (h.wipAllocated k hk) (by simp [ha])
  holderWrites i k hi := by
    have hn : (s.allocate g).lockOf i = none := List.getElem?_getD_replicate_default_eq _ _ _
    simp [hn] at hi
  pendOwn e he u hu := absurd (h.pendOwn e he u hu).2.2 (by simp [ha])
  wipAllocated _ _ := rfl

/-- The lock of slot `u` passes to or from Grabber `u` as its write begins or ends, and no other Grabber
held it. -/
theorem State.LockOk.handover (h : s.LockOk) (hu : u < s.cfg.geo.n) (ha : s.allocated = true) (m : Memory)
    (w : Option Wip) (hs : ∀ k, k ≠ u → s.lockOf u ≠ some (.grb k)) :
    (State.setWip { s.setLock u (if w.isSome then some (.grb u) else none) with sfb := m } u w).LockOk := by
  set x : Option Port := if w.isSome then some (.grb u) else none with hx
  set t := State.setWip { s.setLock u x with sfb := m } u w
  have hlock (i : Nat) :
      t.lockOf i = if lockIndex s.cfg i = lockIndex s.cfg u then x else s.lockOf i := by
    have hl : lockIndex s.cfg u < s.locks.length := h.locksLength ▸ lockIndex_lt hu
    have hi : t.lockOf i = (s.setLock u x).lockOf i := rfl
    rw [hi, lockOf_setLock]
    simp only [hl, and_true]
  have hwip (k : Nat) : (t.grab k).wip = if k = u then w else (s.grab k).wip := by
    have hg : t.grab k = if k = u ∧ u < s.grb.length then { s.grab k with wip := w } else s.grab k :=
      grab_setWip _ u k w
    simp only [hg, h.grbLength, hu, and_true]
    split_ifs <;> rfl
  refine ⟨by simpa [t] using h.grbLength, by simpa [t] using h.locksLength, ?_, ?_, h.pendOwn,
    fun _ _ => ha⟩
  · intro k hk
    rw [hwip] at hk
    rw [hlock]
    by_cases hku : k = u
    · subst hku
      simp only [if_true] at hk
      simp [hx, hk]
    · rw [if_neg hku] at hk
      have hl := h.wipHolds k hk
      rw [if_neg fun hi => hs k hku (lockOf_congr hi ▸ hl)]
      exact hl
  · intro i k hi
    rw [hlock] at hi
    rw [hwip]
    split_ifs at hi with hiu
    · simp only [hx] at hi
      split_ifs at hi with hw
      obtain rfl : u = k := Port.grb.inj (Option.some.inj hi)
      exact ⟨by rwa [if_pos rfl], hiu⟩
    · obtain ⟨hk, hik⟩ := h.holderWrites i k hi
      have hku : k ≠ u := fun e => hiu (e ▸ hik)
      rw [if_neg hku]
      exact ⟨hk, hik⟩

theorem State.LockOk.effect (h : s.LockOk) (ho : OpEffect i s r) : r.LockOk := by
  cases ho with
  | free q b => exact { h with }
  | alloc ha => exact h.allocate ha _
  | lock u x hs hx => exact h.setLock hs hx
  | grab u x q l f hp hw hr =>
    have h' : State.LockOk { s with tick := x, dq := q, log := l } := { h with }
    exact h'.modGrab (congrArg Option.isSome (hw _))
  | filter u k hp => exact { h with }

theorem State.LockOk.ended (h : r.LockOk) (he : Ended i r t) : t.LockOk := by
  cases he with
  | raised c info ht => exact ht ▸ h.raise c info
  | answered x ht hv => exact ht ▸ h.respond x
  | left pl g ht hw hd => exact ht ▸ h.keepOpen fun u hu => absurd hu (hw u)

/-- Byte writes are made by the Grabber that holds the lock of its slot. -/
theorem State.LockOk.writeRun (h : s.LockOk) (hp : s.inp.port = .grb u) (hu : u < s.cfg.geo.n)
    (ha : s.allocated = true) (hq : WriteRun u s q) :
    q.LockOk ∧ q.inp.port = .grb u ∧ u < q.cfg.geo.n ∧ q.allocated = true := by
  cases hq with
  | same => exact ⟨h, hp, hu, ha⟩
  | begun m w hl => exact ⟨hp ▸ h.handover hu ha m (some w) (by simp [hl]), hp, hu, ha⟩
  | went m w hw =>
    have h' : State.LockOk { s with sfb := m } := { h with }
    exact ⟨h'.modGrab hw.symm, hp, hu, ha⟩

/-- At the end of a write the lock is given back and no write is in flight. -/
theorem State.LockOk.finishWrite (h : q.LockOk) (hp : q.inp.port = .grb u) (hu : u < q.cfg.geo.n)
    (ha : q.allocated = true) (hw : (q.grab u).wip.isSome = true) : (q.finishWrite u).LockOk := by
  have hl : q.lockOf u = some (.grb u) := h.wipHolds u hw
  have released : State.LockOk ((q.setWip u none).setLock u none) :=
    h.handover hu ha q.sfb none fun k hk => by simpa [hl] using hk.symm
  rcases finishWrite_cases q u with ⟨-, hf⟩ | ⟨hn, -⟩
  · rw [hf]
    split_ifs
    · exact (released.modGrab rfl).respond _
    · exact released.respond _
  · exact absurd (hl.trans (congrArg some hp.symm)) hn

/-- Every operation keeps the lock with the writer. -/
theorem State.LockOk.exec (h : s.LockOk) (hi : s.mayRun i) (he : exec i s = .next t) : t.LockOk := by
  rcases exec_effect he with ⟨r, he, ho⟩ | ⟨u, rfl, issued, q, hq, he⟩
  · exact (h.effect ho).ended he
  · obtain ⟨hp, hu, ha⟩ := hi.elim issued fun e hm hp hw => hp ▸ h.pendOwn e hm u hw
    obtain ⟨hq, hp, hu, ha⟩ := h.writeRun hp hu ha hq
    cases he with
    | left pl ht => exact ht ▸ hq.keepOpen fun v hv => Instr.wrslot.inj hv ▸ ⟨hp, hu, ha⟩
    | finished hw ht => exact ht ▸ hq.finishWrite hp hu ha hw

end

theorem lockOk_invariant : StepInvariant State.LockOk where
  moved s r hm h := by
    obtain ⟨_, _, _, rfl⟩ := hm
    exact { h with }
  raise _ c i h := h.raise c i
  byte _ b h := h.respond (.byte b)
  exec _ _ _ hi he h := h.exec hi he
  took _ _ _ _ _ h := { h with }
  image _ _ _ _ hr h := readImage_next (fun _ _ _ h => { h with }) (fun _ h => { h with }) h hr
  detect _ _ _ h := { h with }
  output _ _ h := { h with }

/-- Settles O52: the lock changes hands only as a write begins or ends (`State.LockOk.handover`), or
between free and a port that is no Grabber's; ALLOC comes before any write. -/
theorem stepKeepsTheLockWithTheWriter : Obligations.StepKeepsTheLockWithTheWriter :=
  fun _ _ h hst => lockOk_invariant.step h hst

/-! ## Soundness -/

/-- The View lies inside `SFB` and is as long as a slot (20_memory.md R63). -/
def State.viewInside (s : State) (v : View) : Prop :=
  s.allocated = true ∧ v.length = slotBytes s.cfg.geo ∧ v.base + v.length ≤ sfbBytes s.cfg.geo

section
variable {i : Instr} {s r q t : State} {u : UnitNo}

theorem State.Sound.raise (h : s.Sound) (c : Cause) (info : Info) : (s.raise c info).Sound :=
  { h with
    pendInside := fun e he => h.pendInside e (mem_dropPending.mp he).1
    viewsInside := fun p v hv => h.viewsInside p v (by simpa [State.raise, State.answer] using hv) }

theorem State.Sound.respond (h : s.Sound) {x : Result} (hx : ∀ v, x = .view v → s.viewInside v) :
    (s.respond x).Sound :=
  { h with
    pendInside := fun e he => h.pendInside e (mem_dropPending.mp he).1
    viewsInside := fun p v hv => by
      rcases List.mem_append.mp hv with hv | hv
      · exact h.viewsInside p v hv
      · obtain ⟨-, hv⟩ := Prod.mk.inj (List.mem_singleton.mp hv)
        exact hx v (Response.ok.inj hv).symm }

theorem State.Sound.keepOpen (h : s.Sound) {pl : Payload} {g : List (Nat × Byte)}
    (hi : ∀ u, i = .wrslot u ∨ i = .decmd u → s.allocated = true ∧ u.toNat < s.cfg.geo.n) :
    (s.keepOpen i pl g).Sound :=
  { h with
    pendInside := fun e he => by
      rcases List.mem_cons.mp he with rfl | he
      · exact hi
      · exact h.pendInside e (mem_dropPending.mp he).1 }

theorem State.Sound.modGrab (h : s.Sound) {u : Nat} {f : Grabber → Grabber}
    (hf : phaseRegistersHeld (f (s.grab u))) : (s.modGrab u f).Sound :=
  { h with
    grbLength := by simpa using h.grbLength
    regsHeld := fun k => by
      rw [grab_modGrab]
      split_ifs with hk
      · exact hk.1 ▸ hf
      · exact h.regsHeld k }

theorem State.Sound.modTracker (h : s.Sound) {j : Nat} {f : Tracker → Tracker}
    (hf : (f (s.tracker j)).cyc.ph ≠ .rest → s.viewInside (f (s.tracker j)).cyc.view) :
    (s.modTracker j f).Sound :=
  { h with
    cyclesInside := fun k hk => by
      rw [tracker_modTracker] at hk ⊢
      split_ifs at hk ⊢ with hj
      · exact hj.1 ▸ hf (hj.1 ▸ hk)
      · exact h.cyclesInside k hk }

/-- ALLOC latches the configured geometry. -/
theorem State.Sound.allocate (h : s.Sound) : (s.allocate s.cfg.geo).Sound :=
  { h with
    geoLatched := fun _ => rfl
    pendInside := fun e he u hu => ⟨rfl, (h.pendInside e he u hu).2⟩
    viewsInside := fun p v hv => ⟨rfl, (h.viewsInside p v hv).2⟩
    cyclesInside := fun j hj => ⟨rfl, (h.cyclesInside j hj).2⟩ }

/-- The View of a slot lies inside `SFB`. -/
theorem State.Sound.slotView_inside (h : s.Sound) (ha : s.allocated = true) {u : Nat}
    (hu : u < s.cfg.geo.n) : s.viewInside (slotView s.geo u) := by
  rw [h.geoLatched ha]
  exact ⟨ha, rfl, slot_inside hu⟩

theorem State.Sound.effect (h : s.Sound) (ho : OpEffect i s r) : r.Sound := by
  cases ho with
  | free q b => exact { h with }
  | alloc ha => exact h.allocate
  | lock u x hs hx => exact { h with }
  | grab u x q l f hp hw hr =>
    have h' : State.Sound { s with tick := x, dq := q, log := l } := { h with }
    exact h'.modGrab hr
  | filter u k hp => exact { h with }

theorem State.Sound.ended (h : r.Sound) (he : Ended i r t) : t.Sound := by
  cases he with
  | raised c info ht => exact ht ▸ h.raise c info
  | answered x ht hv =>
    refine ht ▸ h.respond fun v hx => ?_
    obtain ⟨ha, u, hu, rfl⟩ := hv v hx
    exact h.slotView_inside ha hu
  | left pl g ht hw hd =>
    exact ht ▸ h.keepOpen fun u hu => hu.elim (fun e => absurd e (hw u)) (hd u)

/-- A WRSLOT's byte writes and its end. -/
theorem State.Sound.write (h : s.Sound) (hu : u.toNat < s.cfg.geo.n) (ha : s.allocated = true)
    (hq : WriteRun u.toNat s q) (he : WriteEnded u q t) : t.Sound := by
  obtain ⟨r, ⟨m, lk, f, hf, rfl⟩, ht⟩ := he.frame hq
  have h' : State.Sound { s with sfb := m, locks := lk } := { h with }
  have hr := h'.modGrab (hf _ (h.regsHeld u.toNat))
  rcases ht with ⟨c, info, rfl⟩ | rfl | ⟨pl, rfl⟩
  · exact hr.raise c info
  · exact hr.respond (by simp)
  · refine hr.keepOpen fun v hv => ?_
    obtain rfl : u = v := by simpa using hv
    exact ⟨ha, hu⟩

theorem State.Sound.exec (h : s.Sound) (hi : s.mayRun i) (he : exec i s = .next t) : t.Sound := by
  rcases exec_effect he with ⟨r, he, ho⟩ | ⟨u, rfl, issued, q, hq, he⟩
  · exact (h.effect ho).ended he
  · obtain ⟨ha, hu⟩ := hi.elim (fun hn => (issued hn).2.symm)
      fun e hm _ hw => h.pendInside e hm u (.inl hw)
    exact h.write hu ha hq he

end

/-- A cycle that goes on after a response has the View it had, or has just been given it. -/
theorem cycleAfter_view {b : Bool} {x : Response} {c : Cycle} (h : (cycleAfter b x c).ph ≠ .rest) :
    c.ph ≠ .rest ∧ (cycleAfter b x c).view = c.view ∨
      x = .ok (.view (cycleAfter b x c).view) := by
  unfold cycleAfter at h ⊢
  split <;> simp_all [Cycle.rest]

/-- The output step ends the cycle (43_tracker_consumer.md R231). -/
theorem outputStep_eq (s : State) (j : Nat) :
    ∃ f o, (∀ k, (f k).cyc = Cycle.rest) ∧
      s.outputStep j = { s.modTracker j f with tout := s.tout ++ [o] } :=
  ⟨_, _, fun _ => rfl, rfl⟩

theorem sound_invariant : StepInvariant State.Sound where
  moved s r hm h := by
    obtain ⟨_, _, _, rfl⟩ := hm
    exact { h with }
  raise _ c i h := h.raise c i
  byte _ b h := h.respond (by simp)
  exec _ _ _ hi he h := h.exec hi he
  took s j l e he h := h.modTracker fun hc => by
    rcases cycleAfter_view hc with ⟨hr, hv⟩ | hv
    · exact hv ▸ h.cyclesInside j hr
    · exact h.viewsInside e.1 _ (hv ▸ List.mem_of_getLast? he)
  image s t j hi hr h := by
    have under : s.Sound ∧ (s.tracker j).cyc.ph ≠ .rest := ⟨h, by simp [hi]⟩
    refine (readImage_next (Inv := fun s => s.Sound ∧ (s.tracker j).cyc.ph ≠ .rest)
      (fun r o b ⟨h, hp⟩ => ⟨h.modTracker fun _ => h.cyclesInside j hp, ?_⟩)
      (fun r ⟨h, hp⟩ => ⟨h.modTracker fun _ => h.cyclesInside j hp, ?_⟩) under hr).1
    · rw [tracker_modTracker]
      split_ifs <;> exact hp
    · rw [tracker_modTracker]
      split_ifs <;> simp [hp]
  detect s j hi h := h.modTracker fun _ => h.cyclesInside j (by simp [hi])
  output s j h := by
    obtain ⟨f, o, hf, he⟩ := outputStep_eq s j
    have h' : (s.modTracker j f).Sound := h.modTracker fun hc => absurd (by rw [hf]; rfl) hc
    exact he ▸ { h' with }

/-- Settles O55: an operation's effect, its end and a Tracker's own changes each keep a sound state
sound. -/
theorem stepKeepsSound : Obligations.StepKeepsSound :=
  fun _ _ h hst => sound_invariant.step h hst

end Sys2Proof.Machine
end

section
/-! PROOFS. The address space of the shared frame buffer (20_memory.md R63 to R65; 30_encoding.md R91,
R92): the slots, and the block bytes inside a slot's strip. -/

namespace Sys2Proof.Machine

/-- Settles O6: the slot of address `a` is `a / SLOT_BYTES`. -/
theorem slotsPartitionTheBuffer : Obligations.SlotsPartitionTheBuffer := by
  intro g
  refine ⟨rfl, fun _ => rfl, fun a ha => ?_⟩
  have hpos : 0 < slotBytes g := Nat.pos_of_mul_pos_left (Nat.zero_lt_of_lt ha)
  have slot_iff (s : Nat) :
      a / slotBytes g = s ↔ slotBase g s ≤ a ∧ a < slotBase g s + slotBytes g := by
    rw [Nat.div_eq_iff hpos, slotBase]
    omega
  refine ⟨a / slotBytes g, ⟨Nat.div_lt_of_lt_mul ?_, (slot_iff _).mp rfl⟩, ?_⟩
  · rwa [Nat.mul_comm]
  · exact fun s hs => ((slot_iff s).mpr hs.2).symm

/-- With (M, C) = (3, 1) row `k / 3` of a block holds three bytes in its row of the strip. -/
theorem blkAddr_three_rows (n w h s c0 k : Nat) :
    blkAddr ⟨n, w, h, 1, 3⟩ s c0 k = s * ((h + 3) * w) + (h + k / 3) * w + c0 + k % 3 := by
  simp only [blkAddr, addr, slotBase, slotBytes, Nat.mul_one, Nat.div_one, Nat.mod_one, Nat.add_zero]
  omega

/-- With (M, C) = (1, 3) the nine bytes of a block follow each other. -/
theorem blkAddr_one_row (n w h s c0 k : Nat) (hk : k < 9) :
    blkAddr ⟨n, w, h, 3, 1⟩ s c0 k = s * ((h + 1) * w * 3) + (h * w + c0) * 3 + k := by
  have hrow : k / (3 * 3) = 0 := Nat.div_eq_of_lt hk
  have hcol : k % (3 * 3) = k := Nat.mod_eq_of_lt hk
  simp only [blkAddr, addr, slotBase, slotBytes, hrow, hcol, Nat.add_zero]
  omega

/-- With (M, C) = (3, 1) block byte `k` of slot 0 stands in row `k % 9 / 3` of the strip, the tickstamp
block in front of the index block. -/
theorem metaAddr_three_rows {n w h k : Nat} (hw : 22 ≤ w) (hk : k < 18) :
    metaAddr ⟨n, w, h, 1, 3⟩ 0 k =
      imgBytes ⟨n, w, h, 1, 3⟩ + (k % 9 / 3 * w + (w - 22 + 3 * (k / 9) + k % 3)) := by
  unfold metaAddr blockBytes
  split_ifs with h9
  · rw [blkAddr_three_rows]
    have hdiv : k / 9 = 0 := Nat.div_eq_of_lt h9
    simp only [imgBytes, tickCol, reservedCols, Nat.mod_eq_of_lt h9, hdiv, Nat.add_mul]
    omega
  · rw [blkAddr_three_rows]
    have hmod : k % 9 = k - 9 := by omega
    have hdiv : k / 9 = 1 := by omega
    simp only [imgBytes, indexCol, hmod, hdiv, Nat.add_mul]
    omega

/-- With (M, C) = (1, 3) the 18 block bytes follow each other in the strip's one row. -/
theorem metaAddr_one_row {n w h k : Nat} (hw : 22 ≤ w) (hk : k < 18) :
    metaAddr ⟨n, w, h, 3, 1⟩ 0 k = imgBytes ⟨n, w, h, 3, 1⟩ + ((w - 22) * 3 + k) := by
  unfold metaAddr blockBytes
  split_ifs with h9
  · rw [blkAddr_one_row _ _ _ _ _ _ h9]
    simp only [imgBytes, tickCol, reservedCols]
    omega
  · rw [blkAddr_one_row _ _ _ _ _ _ (by omega)]
    simp only [imgBytes, indexCol]
    omega

/-- The row and the column of a place are known from `row * w + column`. -/
theorem row_col_inj {w q x q' x' : Nat} (hx : x < w) (hx' : x' < w)
    (h : q * w + x = q' * w + x') : q = q' ∧ x = x' := by
  have hq : q = q' := by
    have := congrArg (· / w) h
    simpa [Nat.mul_comm _ w, Nat.mul_add_div (Nat.zero_lt_of_lt hx), Nat.div_eq_of_lt, hx, hx'] using this
  subst hq
  exact ⟨rfl, Nat.add_left_cancel h⟩

/-- In a legal geometry the block bytes of slot 0 lie in its strip. -/
theorem metaAddr_in_strip {g : Geo} (hg : g.legal = true) {k : Nat} (hk : k < 18) :
    imgBytes g ≤ metaAddr g 0 k ∧ metaAddr g 0 k < slotBytes g := by
  obtain ⟨hshape, hw, -, -, -⟩ := legal_shape hg
  rw [slotBytes_eq]
  obtain ⟨n, w, h, c, m⟩ := g
  change 22 ≤ w at hw
  rcases hshape with ⟨rfl, rfl⟩ | ⟨rfl, rfl⟩
  · have hrow : k % 9 / 3 * w ≤ 2 * w := Nat.mul_le_mul_right w (by omega)
    rw [metaAddr_three_rows hw hk]
    simp only [stripBytes]
    omega
  · rw [metaAddr_one_row hw hk]
    simp only [stripBytes]
    omega

/-- In a legal geometry no two block bytes of slot 0 lie at the same address. -/
theorem metaAddr_inj {g : Geo} (hg : g.legal = true) {k l : Nat} (hk : k < 18) (hl : l < 18)
    (h : metaAddr g 0 k = metaAddr g 0 l) : k = l := by
  obtain ⟨hshape, hw, -, -, -⟩ := legal_shape hg
  obtain ⟨n, w, h, c, m⟩ := g
  change 22 ≤ w at hw
  rcases hshape with ⟨rfl, rfl⟩ | ⟨rfl, rfl⟩
  · rw [metaAddr_three_rows hw hk, metaAddr_three_rows hw hl] at h
    obtain ⟨hrow, hcol⟩ := row_col_inj (by omega) (by omega) (Nat.add_left_cancel h)
    omega
  · rw [metaAddr_one_row hw hk, metaAddr_one_row hw hl] at h
    omega

/-- Settles O7: the two shapes of a patch row by row; every slot is slot 0 moved by its base. -/
theorem blocksLieInTheStrip : Obligations.BlocksLieInTheStrip := by
  refine ⟨fun g s hg => ⟨fun k hk => ?_, fun k hk l hl h => ?_⟩, fun n w h s c0 k hk =>
    ⟨blkAddr_three_rows n w h s c0 k, blkAddr_one_row n w h s c0 k hk⟩⟩
  · rw [metaAddr_base]
    have := metaAddr_in_strip hg hk
    omega
  · rw [metaAddr_base g s k, metaAddr_base g s l] at h
    exact metaAddr_inj hg hk hl (Nat.add_left_cancel h)

end Sys2Proof.Machine
end

section
/-! PROOFS. The bytes of the shared frame buffer: the form of the memory (20_memory.md R60, R66), and who
changes a byte (20_memory.md R74, R81). -/

namespace Sys2Proof.Machine

/-! ## The canonical form -/

/-- A byte write inside `SFB` keeps the memory canonical and inside `SFB`. -/
theorem State.memoryOk.write {s : State} (h : s.memoryOk) {a : Nat} (v : Byte) (ha : s.inSfb a = true) :
    State.memoryOk { s with sfb := Memory.write s.sfb a v } := by
  obtain ⟨hwf, hin, -⟩ := h
  obtain ⟨hal, hlt⟩ : s.allocated = true ∧ a < sfbBytes s.geo := by simpa [State.inSfb] using ha
  refine ⟨write_wf a v hwf, fun c hc => ?_, fun hn => absurd hal (by simpa using hn)⟩
  rcases mem_write hc with hc | rfl
  · exact hin c hc
  · exact hlt

/-- Of the single changes of an operation or a step only ALLOC and a byte write touch the memory. -/
theorem memoryOk_closed : Closed fun s t => s.memoryOk → t.memoryOk where
  refl _ := id
  trans _ _ _ h k := k ∘ h
  alloc _ _ _ := ⟨empty_wf, fun _ h => absurd h List.not_mem_nil, fun _ => rfl⟩
  mem _ _ v ha h := h.write v ha
  moved _ _ hm h := by
    obtain ⟨_, _, _, rfl⟩ := hm
    exact h
  answer _ _ := id
  raise _ _ _ := id
  keepOpen _ _ _ _ := id
  setLock _ _ _ := id
  setWip _ _ _ := id
  phase _ _ _ _ _ := id
  gstart _ _ _ := id
  stop _ _ _ := id
  stopd _ _ _ := id
  gread _ _ _ _ := id
  gwrap _ _ _ _ _ _ := id
  enq _ _ _ := id
  log _ _ := id
  gstat _ _ _ _ _ _ := id
  deq _ _ _ _ := id
  cancel _ := id
  filt _ _ _ := id
  took _ _ _ _ _ _ := id
  got _ _ _ _ := id
  gotd _ _ := id
  detect _ _ := id
  output _ _ := id

/-- Settles O49: each single change keeps the memory canonical, hence every step does. -/
theorem stepKeepsTheMemoryCanonical : Obligations.StepKeepsTheMemoryCanonical :=
  fun _ _ hs h => memoryOk_closed.step h hs

/-! ## The bytes a WRSLOT writes -/

theorem nextWrites_subset {s : State} {w : Wip} {it : WrItem} (h : it ∈ nextWrites s w) :
    it ∈ slotWrites s w := by
  unfold nextWrites at h
  split_ifs at h <;> exact (mem_writesLeft.mp h).1

/-- With a legal configuration every write of a WRSLOT is inside the slot: the image region, the swatch's
offsets of the strip, the two blocks. -/
theorem slotWrites_inside {s : State} {w : Wip} {it : WrItem} (hc : s.cfg.legal = true)
    (hg : s.geo = s.cfg.geo) (h : it ∈ slotWrites s w) : it.off < slotBytes s.geo := by
  simp only [Cfg.legal, Bool.and_eq_true] at hc
  obtain ⟨⟨⟨⟨hgeo, hswatch⟩, -⟩, -⟩, -⟩ := hc
  rw [← hg] at hgeo
  rcases mem_slotWrites.mp h with ⟨o, ho, rfl⟩ | ⟨e, he, rfl⟩ | ⟨k, hk, rfl⟩ | ⟨k, hk, rfl⟩
  · rw [slotBytes_eq]
    exact Nat.lt_add_right _ ho
  · simp only [Cfg.swatchLegal, Bool.and_eq_true, List.all_eq_true, decide_eq_true_eq, ← hg] at hswatch
    rw [slotBytes_eq]
    exact Nat.add_lt_add_left (hswatch.1 e he) _
  · exact (metaAddr_in_strip hgeo (by omega)).2
  · exact (metaAddr_in_strip hgeo (by omega)).2

/-- From `s` to `r` bytes of slot `u` may have been written, and none outside it. -/
structure SlotWritten (u : Nat) (s r : State) : Prop where
  geo : r.geo = s.geo
  cfg : r.cfg = s.cfg
  wf : Memory.wf r.sfb = true
  inside : ∀ a, Memory.read r.sfb a ≠ Memory.read s.sfb a →
    slotBase s.geo u ≤ a ∧ a < slotBase s.geo u + slotBytes s.geo

/-- One more byte of the slot is written. -/
theorem SlotWritten.afterWrite {u : Nat} {s r : State} (h : SlotWritten u s r) (w : Wip) {it : WrItem}
    (hit : it.off < slotBytes s.geo) : SlotWritten u s (r.afterWrite u w it) where
  geo := h.geo
  cfg := h.cfg
  wf := write_wf _ _ h.wf
  inside a ha := by
    have hread : Memory.read (r.afterWrite u w it).sfb a =
        if a = slotBase r.geo u + it.off then it.byte else Memory.read r.sfb a := read_write _ _ _ h.wf
    rw [hread, h.geo] at ha
    split_ifs at ha with hb
    · omega
    · exact h.inside a ha

theorem finishWrite_sfb (s : State) (u : Nat) : (s.finishWrite u).sfb = s.sfb := by
  rcases finishWrite_cases s u with ⟨-, hf⟩ | ⟨-, hf⟩ <;> rw [hf]
  · split <;> rfl
  · rfl

/-- A run of byte writes of Grabber `u` writes bytes of slot `u` only. -/
theorem SlotWritten.writeBytes {u : UnitNo} {pl : Payload} {ns : List Nat} {s r t : State}
    (hs : s.Sound) (ha : s.allocated = true) (hr : SlotWritten u.toNat s r)
    (h : writeBytes u pl ns r = .next t) : ∃ q, SlotWritten u.toNat s q ∧ t.sfb = q.sfb := by
  have hstep : ∀ q w it, SlotWritten u.toNat s q → it ∈ nextWrites q w →
      SlotWritten u.toNat s (q.afterWrite u.toNat w it) := fun q w it hq hit =>
    hq.afterWrite w <| by
      have hoff := slotWrites_inside (hq.cfg ▸ hs.cfgLegal)
        (by rw [hq.geo, hq.cfg, hs.geoLatched ha]) (nextWrites_subset hit)
      rwa [hq.geo] at hoff
  obtain ⟨q, hq, rfl | ⟨w, -, -, rfl⟩⟩ :=
    writeBytes_next (fun q w it hq _ hit _ => hstep q w it hq hit) hr h
  · exact ⟨q, hq, rfl⟩
  · exact ⟨q, hq, finishWrite_sfb q u.toNat⟩

/-- A WRSLOT leaves the memory, or it writes bytes: after it took the free lock, or with its write in
flight already. -/
theorem execWrslot_memory {u : UnitNo} {s t : State} (h : execWrslot u s = .next t) :
    t.sfb = s.sfb ∨ ∃ pl r, writeBytes u pl s.inp.draws.picks r = .next t ∧
      (s.lockOf u.toNat = none ∧
          r = (s.setLock u.toNat (some s.inp.port)).beginWrite u.toNat pl ∨
        (s.grab u.toNat).wip.isSome = true ∧ r = s) := by
  have acquired : ∀ pl, s.acquireAndWrite u pl = .next t → t.sfb = s.sfb ∨
      s.lockOf u.toNat = none ∧ writeBytes u pl s.inp.draws.picks
        ((s.setLock u.toNat (some s.inp.port)).beginWrite u.toNat pl) = .next t := fun pl hb => by
    rcases acquireAndWrite_next hb with hb | ⟨-, rfl⟩ | ⟨-, rfl⟩
    · exact .inr hb
    · exact .inl rfl
    · exact .inl rfl
  unfold execWrslot at h
  split at h
  · rcases startWrite_next h with
      ⟨c, info, rfl⟩ | ⟨-, -, c, info, -, rfl⟩ | ⟨-, -, -, pl, -, -, hb⟩
    · exact .inl rfl
    · exact .inl rfl
    · exact (acquired pl hb).imp_right fun ⟨hl, hb⟩ => ⟨pl, _, hb, .inl ⟨hl, rfl⟩⟩
  · rename_i o ho
    unfold State.continueWrite at h
    split at h
    · rename_i hw
      exact .inr ⟨o.payload, s, h, .inr ⟨hw, rfl⟩⟩
    · exact (acquired o.payload h).imp_right fun ⟨hl, hb⟩ => ⟨o.payload, _, hb, .inl ⟨hl, rfl⟩⟩

/-! ## Who changes a byte -/

/-- Byte `a` lies in slot `u`, and no port but the slot's Grabber holds its lock (20_memory.md R74,
R81). -/
def State.ownByte (s : State) (u a : Nat) : Prop :=
  slotBase s.geo u ≤ a ∧ a < slotBase s.geo u + slotBytes s.geo ∧
    (s.lockOf u = none ∨ s.lockOf u = some (.grb u))

/-- A byte a WRSLOT changes lies in its slot, and its lock was free or its Grabber's. -/
theorem execWrslot_ownByte {u : UnitNo} {s t : State} {a : Nat} (hs : s.Sound) (hl : s.LockOk)
    (hm : s.memoryOk) (ha : s.allocated = true) (h : execWrslot u s = .next t)
    (hc : Memory.read t.sfb a ≠ Memory.read s.sfb a) : s.ownByte u.toNat a := by
  rcases execWrslot_memory h with he | ⟨pl, r, hb, hr⟩
  · exact absurd (by rw [he]) hc
  · have hlock : s.lockOf u.toNat = none ∨ s.lockOf u.toNat = some (.grb u.toNat) :=
      hr.imp And.left fun hr => hl.wipHolds _ hr.1
    have hbegin : SlotWritten u.toNat s r := by
      rcases hr with ⟨-, rfl⟩ | ⟨-, rfl⟩ <;> exact ⟨rfl, rfl, hm.1, fun _ hn => absurd rfl hn⟩
    obtain ⟨q, hq, he⟩ := hbegin.writeBytes hs ha hb
    obtain ⟨hlo, hhi⟩ := hq.inside a (he ▸ hc)
    exact ⟨hlo, hhi, hlock⟩

/-- Once `ALLOCATED = 1` no effect of an operation is on the memory. -/
theorem OpEffect.sfb_eq {i : Instr} {s r : State} (h : OpEffect i s r) (ha : s.allocated = true) :
    r.sfb = s.sfb := by
  cases h with
  | free q b => rfl
  | alloc hn => simp [ha] at hn
  | lock u h hs hh => rfl
  | grab u x q l f hp hw hr => rfl
  | filter u k hp => rfl

/-- A byte an operation changes is the issuing Grabber's own: the operation is a WRSLOT that has passed its
checks. -/
theorem exec_ownByte {i : Instr} {s t : State} {a : Nat} (hs : s.Sound) (hl : s.LockOk)
    (hm : s.memoryOk) (ha : s.allocated = true) (hi : s.mayRun i) (h : exec i s = .next t)
    (hc : Memory.read t.sfb a ≠ Memory.read s.sfb a) :
    ∃ u, s.inp.port = .grb u ∧ s.ownByte u a := by
  rcases exec_effect h with ⟨r, he, ho⟩ | ⟨u, rfl, issued, -⟩
  · obtain ⟨_, _, _, rfl⟩ := he.frame
    exact absurd (by rw [ho.sfb_eq ha]) hc
  · have hp : s.inp.port = .grb u.toNat :=
      hi.elim (fun hn => (issued hn).1) fun e he hp hw => hp ▸ (hl.pendOwn e he u hw).1
    exact ⟨u.toNat, hp, execWrslot_ownByte hs hl hm ha h hc⟩

/-- Of the kinds of step only an operation touches the memory. -/
theorem StepKind.memory {r t : State} (k : StepKind r t) :
    t.sfb = r.sfb ∨ ∃ i q, r.mayRun i ∧ exec i r = .next q ∧ t.sfb = q.sfb := by
  cases k with
  | idle h => exact .inl (by rw [h])
  | raised c i h => exact .inl (by rw [h, raise_sfb])
  | viewByte v o b hv h => exact .inl (by rw [h, respond_sfb])
  | op i hi h => exact .inr ⟨i, t, hi, h, rfl⟩
  | cycleOp j i q hp ho hq h =>
    refine .inr ⟨i, q, ho.imp_left And.left, hq, ?_⟩
    rcases h with rfl | ⟨e, -, -, rfl⟩ <;> rfl
  | image j hp ho hi h =>
    exact .inl (readImage_next (Inv := fun q => q.sfb = r.sfb) (fun _ _ _ => id) (fun _ => id) rfl h)
  | detect j hp ho hi h => exact .inl (by rw [h, modTracker_sfb])
  | output j hp ho hi h => exact .inl (by rw [h]; rfl)

theorem nextPort_eq (s : State) : s.nextPort = eventPort s.takeEvent.1 := by
  unfold State.nextPort
  cases s.takeEvent.1 <;> rfl

/-- Settles O44: a byte changes in an operation only, and there it is the issuing Grabber's own. -/
theorem bytesChangeOnlyByTheirOwner : Obligations.BytesChangeOnlyByTheirOwner := by
  intro s t a hs hl hm ha hst hc
  obtain ⟨r, hmv, rfl | ⟨hp, k⟩⟩ := step_next hst
  · obtain ⟨_, _, _, rfl⟩ := hmv
    exact absurd rfl hc
  · have hrs := sound_invariant.moved s r hmv hs
    have hrl := lockOk_invariant.moved s r hmv hl
    rw [nextPort_eq] at hp
    rcases k.memory with he | ⟨i, q, hi, hq, he⟩
    · obtain ⟨_, _, _, rfl⟩ := hmv
      exact absurd (by rw [he]) hc
    · obtain ⟨_, _, _, rfl⟩ := hmv
      obtain ⟨u, hu, hown⟩ := exec_ownByte hrs hrl hm ha hi hq (he ▸ hc)
      exact ⟨u, hp.symm.trans hu, hown⟩

end Sys2Proof.Machine
end

section
/-! PROOFS. The command word and the block codec (30_encoding.md R93 to R103): what decodes to what, and
what the nine bytes of a block mean. -/

namespace Sys2Proof.Machine

/-! ## The command word -/

/-- The word of any operation has its opcode, its UNIT and a zero field. -/
theorem encode_fields (i : Instr) : Laws.EncodeFields.Statement i := Laws.fields_of_append _ _ _

/-- The map has a row for the opcode of each operation, which makes that operation. -/
theorem find_opcode (i : Instr) :
    ∃ r, opTable.find? (fun r => r.opc == i.opcode) = some r ∧ r.make i.unit = i := by
  cases i <;> exact ⟨_, rfl, rfl⟩

/-- The operation a row makes has the row's opcode and the UNIT it is given. -/
theorem opTable_make : ∀ r ∈ opTable, ∀ u, (r.make u).opcode = r.opc ∧ (r.make u).unit = u := by
  simp only [opTable, List.forall_mem_cons]
  simp [Instr.opcode, Instr.unit]

/-- The words that decode, and to what: the three fields decide (30_encoding.md R98, R101, R102). -/
theorem decode_eq_ok_iff {cw : Word} {i : Instr} :
    decode cw = .ok i ↔ cwOpc cw = i.opcode ∧ cwUnit cw = i.unit ∧ cwZero cw = 0 := by
  unfold decode
  constructor
  · intro h
    split at h
    · cases h
    · rename_i r hr
      split at h
      · rename_i hz
        cases h
        have hopc : r.opc = cwOpc cw := by simpa using List.find?_some hr
        obtain ⟨ho, hu⟩ := opTable_make r (List.mem_of_find?_eq_some hr) (cwUnit cw)
        exact ⟨by rw [ho, hopc], hu.symm, hz⟩
      · cases h
  · rintro ⟨ho, hu, hz⟩
    obtain ⟨r, hr, hi⟩ := find_opcode i
    rw [ho, hr, hu]
    simp only [hz, if_true, hi]

/-- Settles O1: the word of an operation has that operation's fields. -/
theorem decodeOfEncodeIsTheOperation : Obligations.DecodeOfEncodeIsTheOperation :=
  fun i => decode_eq_ok_iff.mpr (encode_fields i)

/-- Settles O2: a word that decodes has the fields of the operation, and is its fields put together. -/
theorem encodeOfDecodeIsTheWord : Obligations.EncodeOfDecodeIsTheWord := by
  intro cw i h
  obtain ⟨ho, hu, hz⟩ := decode_eq_ok_iff.mp h
  rw [cw_fields cw, ho, hu, hz]
  rfl

/-- The word of an operation as a number (30_encoding.md R101). -/
theorem encode_toNat (i : Instr) :
    (encode i).toNat = i.opcode.toNat * 2 ^ 24 + i.unit.toNat * 2 ^ 16 := by
  have hu := i.unit.isLt
  unfold encode
  rw [BitVec.toNat_append, BitVec.toNat_append, ← Nat.shiftLeft_add_eq_or_of_lt hu]
  simp only [BitVec.ofNat_eq_ofNat, BitVec.toNat_ofNat, Nat.zero_mod, Nat.or_zero, Nat.shiftLeft_eq]
  ring

/-- Settles O3: each word by its opcode and UNIT; the words of table 2.4 are those of their operations. -/
theorem wordOfEachOperation : Obligations.WordOfEachOperation := by
  have words (i : Instr) (cw : Word) (h : encode i = cw) : decode cw = .ok i :=
    h ▸ decodeOfEncodeIsTheOperation i
  refine ⟨fun u => ?_, words _ _ rfl, words _ _ rfl, words _ _ rfl, words _ _ rfl, words _ _ rfl,
    words _ _ rfl⟩
  simp [encode_toNat, Instr.opcode, Instr.unit]

/-! ## The block codec -/

/-- A 64-bit value is the sum of its bytes, little-endian. -/
theorem dec9_enc9 (v : U64) : dec9 (enc9 v) = v := by
  apply BitVec.eq_of_toNat_eq
  have hv := v.isLt
  rw [enc9_eq, dec9_eq]
  simp only [byteOf_toNat, BitVec.toNat_ofNat]
  omega

/-- The value of nine bytes as a number (30_encoding.md R96). -/
theorem dec9_toNat (b0 b1 b2 b3 b4 b5 b6 b7 b8 : Byte) :
    (dec9 [b0, b1, b2, b3, b4, b5, b6, b7, b8]).toNat =
      b1.toNat + b2.toNat * 2 ^ 8 + b3.toNat * 2 ^ 16 + b4.toNat * 2 ^ 24 + b5.toNat * 2 ^ 32 +
        b6.toNat * 2 ^ 40 + b7.toNat * 2 ^ 48 + b8.toNat * 2 ^ 56 := by
  rw [dec9_eq, BitVec.toNat_ofNat, Nat.mod_eq_of_lt]
  · ring
  · have h := eight_bytes_lt _ _ _ _ _ _ _ _ b1.isLt b2.isLt b3.isLt b4.isLt b5.isLt b6.isLt b7.isLt
      b8.isLt
    omega

/-- Byte 0 aside, nine bytes come back from their value. -/
theorem enc9_dec9 (b0 b1 b2 b3 b4 b5 b6 b7 b8 : Byte) :
    enc9 (dec9 [b0, b1, b2, b3, b4, b5, b6, b7, b8]) = [0, b1, b2, b3, b4, b5, b6, b7, b8] := by
  have h1 := b1.isLt
  have h2 := b2.isLt
  have h3 := b3.isLt
  have h4 := b4.isLt
  have h5 := b5.isLt
  have h6 := b6.isLt
  have h7 := b7.isLt
  have h8 := b8.isLt
  simp only [enc9_eq, List.cons.injEq, BitVec.toNat_eq, byteOf_toNat, dec9_toNat, and_true, true_and]
  omega

/-- Settles O4: both ways round, byte 0 is the only one that can be lost. -/
theorem codecRoundTrip : Obligations.CodecRoundTrip := by
  refine ⟨dec9_enc9, fun b hb => ?_⟩
  match b, hb with
  | [b0, b1, b2, b3, b4, b5, b6, b7, b8], _ =>
    rw [enc9_dec9]
    simp only [List.cons.injEq, and_true, List.getD_cons_zero]
    exact eq_comm

/-- Settles O5: `enc9` byte by byte, and `dec9` as a number. -/
theorem blockLayoutAndValue : Obligations.BlockLayoutAndValue := by
  refine ⟨fun v => ⟨rfl, rfl, fun n hn => ?_⟩, dec9_toNat⟩
  rw [← byteOf_toNat]
  congr 1
  interval_cases n <;> rfl

end Sys2Proof.Machine
end

section
/-! PROOFS. The checks every operation begins with: the port, `ALLOCATED` and UNIT, in this order
(40_buffer_codec.md R132), and what a command word does that fails one of them. -/

namespace Sys2Proof.Machine

/-! ## The checks an operation begins with -/

/-- The check of `ALLOCATED`, where operation `i` makes one (40_buffer_codec.md R132). -/
def State.allocationChecks (s : State) : Instr → List Check
  | .alloc _ => [⟨s.allocated, .alreadyAllocated, .none⟩]
  | i => if needsAllocated i then [s.checkAllocated] else []

/-- The check of UNIT (30_encoding.md R99). -/
def State.unitCheck (s : State) : Instr → Check
  | .alloc u => checkNoUnit u
  | .encmd u => checkNoUnit u
  | .deq u => checkNoUnit u
  | .cancel u => checkNoUnit u
  | .kfinit u => checkUnit u s.cfg.t
  | .kfpred u => checkUnit u s.cfg.t
  | .kfcorr u => checkUnit u s.cfg.t
  | i => checkUnit i.unit s.cfg.geo.n

/-- The checks that every operation begins with, in R132's order; `exec_entryChecks` ties them to the
model. -/
def State.entryChecks (s : State) (i : Instr) : List Check :=
  s.checkPort i :: (s.allocationChecks i ++ [s.unitCheck i])

/-- What operation `i` leaves when a check of it fails: a WRSLOT may stop its Grabber
(41_grabber_relay.md R170). -/
def State.raiseChecked (s : State) (c : Check) : Instr → State
  | .wrslot u => s.raiseWrite u c.cause c.info
  | _ => s.raise c.cause c.info

/-- Any cause but the two of R170 does nothing but raise. -/
theorem raiseChecked_eq_raise {s : State} {c : Check} {i : Instr} (ha : c.cause ≠ .notAllocated)
    (hs : c.cause ≠ .shapeMismatch) : s.raiseChecked c i = s.raise c.cause c.info := by
  cases i <;> simp [State.raiseChecked, State.raiseWrite, ha, hs]

/-- The first failing check of two lists is one of the first list, if any there fails. -/
theorem firstFailing_append (cs ds : List Check) :
    firstFailing (cs ++ ds) = (firstFailing cs).or (firstFailing ds) := by
  induction cs with
  | nil => rfl
  | cons c cs ih => cases hc : c.fails <;> simp [firstFailing_cons, hc, ih]

/-- A guarded operation whose first checks fail raises their fault, whatever it checks later. -/
theorem guarded_append {s : State} {cs ds : List Check} {body : Out} {c : Check}
    (h : firstFailing cs = some c) : s.guarded (cs ++ ds) body = .next (s.raise c.cause c.info) := by
  unfold State.guarded
  rw [firstFailing_append, h]
  rfl

/-- An operation on a port with none outstanding begins with its entry checks: the first that fails
decides (40_buffer_codec.md R132). -/
theorem exec_entryChecks {i : Instr} {s : State} {c : Check} (ho : s.outstanding = none)
    (h : firstFailing (s.entryChecks i) = some c) : exec i s = .next (s.raiseChecked c i) := by
  cases i with
  | wrslot u =>
    show execWrslot u s = _
    unfold execWrslot State.startWrite
    rw [ho]
    have hw : firstFailing (s.writeChecks u) = some c := by
      rw [show s.writeChecks u = s.entryChecks (.wrslot u) ++ _ from rfl, firstFailing_append, h]
      rfl
    simp only [hw]
    rfl
  | alloc u => exact guarded_append h
  | lock u => exact guarded_append (ds := []) h
  | unlock u => exact guarded_append (ds := []) h
  | rdslot u => exact guarded_append (ds := []) h
  | encmd u => exact guarded_append (ds := []) h
  | decmd u => exact guarded_append (ds := []) h
  | gstart u => exact guarded_append h
  | gopen u => exact guarded_append h
  | gchk u => exact guarded_append h
  | gread u => exact guarded_append h
  | gwrap u => exact guarded_append h
  | enq u => exact guarded_append h
  | gstat u => exact guarded_append h
  | gpace u => exact guarded_append h
  | deq u => exact guarded_append (ds := []) h
  | cancel u => exact guarded_append (ds := []) h
  | kfinit u => exact guarded_append h
  | kfpred u => exact guarded_append h
  | kfcorr u => exact guarded_append h

/-- The check of `ALLOCATED` passes where the state lets it. -/
theorem allocationChecks_pass {s : State} {i : Instr} (h : allocationPasses s i = true) :
    ∀ c ∈ s.allocationChecks i, c.fails = false := by
  cases i <;> simp_all [allocationPasses, needsAllocated, State.allocationChecks, State.checkAllocated]

theorem checkUnit_eq (u : UnitNo) (n : Nat) :
    checkUnit u n = ⟨!decide (u.toNat < n), .badUnit, .unit u⟩ := by
  unfold checkUnit
  rw [← decide_not, decide_eq_decide.mpr not_lt]

theorem checkNoUnit_eq (u : UnitNo) : checkNoUnit u = ⟨!decide (u = 0), .badUnit, .unit u⟩ := by
  unfold checkNoUnit
  rw [← decide_not]

/-- The check of UNIT fails where UNIT is out of range, and then it raises `BadUnit` with the UNIT. -/
theorem unitCheck_eq (s : State) (i : Instr) :
    s.unitCheck i = ⟨!unitInRange s.cfg i, .badUnit, .unit i.unit⟩ := by
  cases i <;> simp only [State.unitCheck, checkUnit_eq, checkNoUnit_eq] <;> rfl

/-- An operation on a port that may not issue it raises `NotPermitted` with the word
(60_exceptions.md R262, R271). -/
theorem exec_of_not_permitted {i : Instr} {s : State} (ho : s.outstanding = none)
    (h : permitted i s.inp.port = false) :
    exec i s = .next (s.raise .notPermitted (.word (encode i))) := by
  have hc : firstFailing (s.entryChecks i) = some (s.checkPort i) := by
    rw [State.entryChecks, firstFailing_cons, if_pos (by simp [State.checkPort, h])]
  rw [exec_entryChecks ho hc, raiseChecked_eq_raise]
  · rfl
  · simp [State.checkPort]
  · simp [State.checkPort]

/-- Settles O13: the checks of the port and of `ALLOCATED` pass, that of UNIT is the first to fail. -/
theorem unitRangeCheck : Obligations.UnitRangeCheck := by
  intro i s ho hp ha hu
  have hc : firstFailing (s.entryChecks i) = some (s.unitCheck i) := by
    rw [State.entryChecks, firstFailing_cons, if_neg (by simp [State.checkPort, hp]),
      firstFailing_append, firstFailing_eq_none.mpr (allocationChecks_pass ha), Option.none_or,
      firstFailing_cons, if_pos (by simp [unitCheck_eq, hu])]
  rw [exec_entryChecks ho hc, unitCheck_eq, raiseChecked_eq_raise (by simp) (by simp)]

/-! ## Command words -/

/-- A word that decodes runs its operation (30_encoding.md R98). -/
theorem runCommand_of_decode {cw : Word} {i : Instr} (h : decode cw = .ok i) (s : State) :
    runCommand cw s = exec i s := by
  unfold runCommand
  rw [h]

/-- A word that decodes to none raises `IllegalCommand` with the word (30_encoding.md R102). -/
theorem runCommand_of_illegal {cw : Word} (h : ∀ i, decode cw ≠ .ok i) (s : State) :
    runCommand cw s = .next (s.raise .illegalCommand (.word cw)) := by
  unfold runCommand
  cases hd : decode cw with
  | error e => rfl
  | ok i => exact absurd hd (h i)

theorem cwOpc_toNat (cw : Word) : (cwOpc cw).toNat = cw.toNat / 2 ^ 24 := by
  have := cw.isLt
  simp only [cwOpc, BitVec.extractLsb'_toNat, Nat.shiftRight_eq_div_pow]
  omega

theorem cwZero_toNat (cw : Word) : (cwZero cw).toNat = cw.toNat % 2 ^ 16 := by
  simp [cwZero, BitVec.extractLsb'_toNat]

/-- The opcodes of the map are those of the operations (30_encoding.md R101). -/
theorem mem_opcodes_iff {o : BitVec 8} : o ∈ opTable.map OpRow.opc ↔ ∃ i : Instr, i.opcode = o := by
  constructor
  · intro h
    obtain ⟨r, hr, rfl⟩ := List.mem_map.mp h
    exact ⟨r.make 0, (opTable_make r hr 0).1⟩
  · rintro ⟨i, rfl⟩
    obtain ⟨r, hr, -⟩ := find_opcode i
    exact List.mem_map.mpr ⟨r, List.mem_of_find?_eq_some hr, by simpa using List.find?_some hr⟩

/-- The words that decode: OPC is in the map and ZERO is 0 (30_encoding.md R102). -/
theorem decodes_iff {cw : Word} :
    (∃ i, decode cw = .ok i) ↔ cwOpc cw ∈ opTable.map OpRow.opc ∧ cwZero cw = 0 := by
  constructor
  · rintro ⟨i, h⟩
    obtain ⟨ho, -, hz⟩ := decode_eq_ok_iff.mp h
    exact ⟨mem_opcodes_iff.mpr ⟨i, ho.symm⟩, hz⟩
  · rintro ⟨ho, hz⟩
    obtain ⟨r, hr, hc⟩ := List.mem_map.mp ho
    obtain ⟨hm, hu⟩ := opTable_make r hr (cwUnit cw)
    exact ⟨_, decode_eq_ok_iff.mpr ⟨by rw [hm, hc], hu.symm, hz⟩⟩

/-- Settles O11: which words decode, in numbers; then the two faults. -/
theorem illegalAndForbiddenCommands : Obligations.IllegalAndForbiddenCommands := by
  intro cw s ho assigned
  have ha : assigned ↔ cwOpc cw ∈ opTable.map OpRow.opc := by
    rw [← List.mem_map_of_injective BitVec.toNat_injective, cwOpc_toNat]
    rfl
  have hz : cw.toNat % 2 ^ 16 = 0 ↔ cwZero cw = 0 := by
    rw [← cwZero_toNat, BitVec.toNat_eq]
    rfl
  rw [ha, hz, ← decodes_iff]
  constructor
  · intro h
    exact runCommand_of_illegal (fun i hi => h ⟨i, hi⟩) s
  · rintro ⟨i, hi⟩
    refine ⟨i, hi, fun hp => ?_⟩
    rw [runCommand_of_decode hi, exec_of_not_permitted ho hp, encodeOfDecodeIsTheWord cw i hi]

end Sys2Proof.Machine
end

section
/-! PROOFS. Ports and their operations (30_encoding.md R98, R102, R106): what ends or keeps open an
operation, and what a step does with the next event of the script. -/

namespace Sys2Proof.Machine

/-! ## One operation a port -/

/-- Settles O8: the response, an operation left open, and a wait, which is one with its own operands. -/
theorem respondEndsAndWaitKeeps : Obligations.RespondEndsAndWaitKeeps :=
  ⟨fun s r => ⟨rfl, outstandingOf_respond s r, rfl⟩,
    fun s i pl got => ⟨outstandingOf_keepOpen s i pl got, rfl⟩,
    fun s i => ⟨outstandingOf_keepOpen s i s.inp.payload [], rfl⟩⟩

/-- From `s` to `t` the operation `i` of the issuing port has given its one response, or it is still
outstanding; the other ports are as before (30_encoding.md R106). -/
def AnswersOrStays (i : Instr) (s t : State) : Prop :=
  ((∃ r, t.resp = s.resp ++ [(s.inp.port, r)] ∧ t.outstandingOf s.inp.port = none) ∨
    (t.resp = s.resp ∧ ∃ o, t.outstandingOf s.inp.port = some o ∧ o.instr = i)) ∧
  ∀ q, q ≠ s.inp.port → t.outstandingOf q = s.outstandingOf q

theorem AnswersOrStays.raise (i : Instr) (s : State) (c : Cause) (info : Info) :
    AnswersOrStays i s (s.raise c info) :=
  ⟨.inl ⟨_, rfl, by simp [outstandingOf_raise]⟩, fun q hq => by simp [outstandingOf_raise, hq]⟩

theorem AnswersOrStays.respond (i : Instr) (s : State) (x : Result) :
    AnswersOrStays i s (s.respond x) :=
  ⟨.inl ⟨_, rfl, by simp [outstandingOf_respond]⟩, fun q hq => by simp [outstandingOf_respond, hq]⟩

theorem AnswersOrStays.keepOpen (i : Instr) (s : State) (pl : Payload) (g : List (Nat × Byte)) :
    AnswersOrStays i s (s.keepOpen i pl g) :=
  ⟨.inr ⟨rfl, ⟨i, pl, g⟩, by simp [outstandingOf_keepOpen], rfl⟩,
    fun q hq => by simp [outstandingOf_keepOpen, hq]⟩

/-- What an operation has changed of the block before it ends is not the port's. -/
theorem AnswersOrStays.of_ports_eq {i : Instr} {s r t : State} (h : AnswersOrStays i r t)
    (hp : r.inp = s.inp) (ho : r.pend = s.pend) (hr : r.resp = s.resp) : AnswersOrStays i s t := by
  unfold AnswersOrStays State.outstandingOf at h ⊢
  rwa [hp, ho, hr] at h

theorem Ended.answersOrStays {i : Instr} {r t : State} (h : Ended i r t) : AnswersOrStays i r t := by
  cases h with
  | raised c info h => exact h ▸ .raise i r c info
  | answered x h hv => exact h ▸ .respond i r x
  | left pl g h hw hd => exact h ▸ .keepOpen i r pl g

theorem OpEffect.ports_eq {i : Instr} {s r : State} (h : OpEffect i s r) :
    r.inp = s.inp ∧ r.pend = s.pend ∧ r.resp = s.resp := by
  cases h <;> exact ⟨rfl, rfl, rfl⟩

/-- Settles O47: an operation ends in one of three ways, and its effect before that is on no port. -/
theorem oneResponsePerOperation : Obligations.OneResponsePerOperation := by
  intro i s t h
  show AnswersOrStays i s t
  rcases exec_effect h with ⟨r, he, ho⟩ | ⟨u, rfl, -, q, hq, he⟩
  · obtain ⟨hp, hpend, hresp⟩ := ho.ports_eq
    exact he.answersOrStays.of_ports_eq hp hpend hresp
  · obtain ⟨r, ⟨m, lk, f, -, rfl⟩, ⟨c, info, rfl⟩ | rfl | ⟨pl, rfl⟩⟩ := he.frame hq
    · exact (AnswersOrStays.raise _ _ c info).of_ports_eq rfl rfl rfl
    · exact (AnswersOrStays.respond _ _ _).of_ports_eq rfl rfl rfl
    · exact (AnswersOrStays.keepOpen _ _ pl []).of_ports_eq rfl rfl rfl

/-! ## The next event of the script -/

/-- A step takes the next event of the script. -/
theorem step_of_script {s : State} {e : Event} {es : List Event} (h : s.script = e :: es) :
    step s = runEvent e { s with script := es } := by
  unfold step State.takeEvent
  rw [h]

/-- A command on a free port is run with the event's inputs. -/
theorem step_issue {s : State} {p : Port} {cw : Word} {pl : Payload} {d : Draws} {es : List Event}
    (h : s.script = .issue p cw pl d :: es) (hf : s.portFree p = true) :
    step s = runCommand cw { s with script := es, inp := ⟨p, pl, d⟩ } := by
  rw [step_of_script h]
  exact if_pos hf

/-- A command on a port that is not free is used up. -/
theorem step_issue_of_not_free {s : State} {p : Port} {cw : Word} {pl : Payload} {d : Draws}
    {es : List Event} (h : s.script = .issue p cw pl d :: es) (hf : s.portFree p = false) :
    step s = .next { s with script := es } := by
  rw [step_of_script h]
  exact if_neg (Bool.eq_false_iff.mp hf)

/-- The agent of a port that exists takes its own step with the event's draws. -/
theorem step_advance {s : State} {p : Port} {d : Draws} {es : List Event}
    (h : s.script = .advance p d :: es) (hp : portExists s.cfg p = true) :
    step s = advance { s with script := es, inp := ⟨p, s.inp.payload, d⟩ } := by
  rw [step_of_script h]
  exact if_pos hp

/-- Settles O16: a command on a free port is decoded and run, any other is used up. -/
theorem stepRunsTheDecodedCommand : Obligations.StepRunsTheDecodedCommand := by
  intro s p cw pl d es h
  refine ⟨fun hf i hi => ?_, fun hf hi => ?_, step_issue_of_not_free h⟩
  · rw [step_issue h hf, runCommand_of_decode hi]
  · rw [step_issue h hf, runCommand_of_illegal hi]

/-- The agent of a port outside a TRKCYCLE goes on with the operation outstanding, with its operands. -/
theorem resume_of_not_inCycle {s : State} (o : Pending) (h : s.inCycle s.inp.port = false) :
    resume o s = exec o.instr { s with inp := { s.inp with payload := o.payload } } := by
  unfold resume
  split
  · rename_i j hj
    rw [hj] at h
    simp [h]
  · rfl

/-- Settles O19: a port with an operation outstanding is not free, and its agent goes on with it. -/
theorem busyPortGoesOnWithItsOperation : Obligations.BusyPortGoesOnWithItsOperation := by
  intro s p o es ho
  refine ⟨fun cw pl d h => step_issue_of_not_free h ?_, fun d h hp hc => ?_⟩
  · simp [State.portFree, State.portIdle, ho]
  · rw [step_advance h hp]
    unfold advance
    rw [show State.outstanding { s with script := es, inp := ⟨p, s.inp.payload, d⟩ } = some o from ho]
    exact resume_of_not_inCycle o hc

/-! ## A command placed by the host's interface (log entry 25) -/

/-- The permission table has one column for all GRB ports and one for all TRK ports
(60_exceptions.md R271). -/
theorem permitted_number (i : Instr) (k : Nat) :
    permitted i (.grb k) = permitted i (.grb 0) ∧ permitted i (.trk k) = permitted i (.trk 0) := by
  cases i <;> exact ⟨rfl, rfl⟩

/-- An operation that no other port may issue is a Tracker's. -/
theorem permitted_trk_of_none (i : Instr) (hm : ¬permitted i .mgr = true) (hw : ¬permitted i .wtr = true)
    (hg : ¬permitted i (.grb 0) = true) : permitted i (.trk 0) = true := by
  cases i <;> simp_all [permitted, isMgr, isWtr, isGrb, isTrk]

/-- The port a command is placed on may issue it, and exists where there is a source and a Tracker. -/
theorem fetchPort_permitted {c : Cfg} {cw : Word} {i : Instr} (hi : decode cw = .ok i)
    (hn : 1 ≤ c.geo.n) (ht : 1 ≤ c.t) :
    permitted i (fetchPort c cw) = true ∧ portExists c (fetchPort c cw) = true := by
  unfold fetchPort
  rw [hi]
  have hg (k : Nat) := (permitted_number i k).1
  have hk (k : Nat) := (permitted_number i k).2
  dsimp only
  split_ifs with h1 h2 h3 h4 h4
  · exact ⟨h1, rfl⟩
  · exact ⟨h2, rfl⟩
  · exact ⟨(hg _).trans h3, decide_eq_true h4⟩
  · exact ⟨h3, decide_eq_true hn⟩
  · exact ⟨(hk _).trans (permitted_trk_of_none i h1 h2 h3), decide_eq_true h4⟩
  · exact ⟨permitted_trk_of_none i h1 h2 h3, decide_eq_true ht⟩

/-- A placed command finds its port with nothing outstanding. -/
theorem placeCommand_outstandingOf (s : State) (cw : Word) :
    (s.placeCommand cw).outstandingOf (fetchPort s.cfg cw) = none := by
  show (dropPending (fetchPort s.cfg cw) s.pend).lookup (fetchPort s.cfg cw) = none
  rw [lookup_dropPending, if_pos rfl]

/-- A placed command finds its port outside a TRKCYCLE. -/
theorem placeCommand_inCycle (s : State) (cw : Word) :
    (s.placeCommand cw).inCycle (fetchPort s.cfg cw) = false := by
  unfold State.inCycle
  split
  · rename_i j hj
    have ht : (s.placeCommand cw).tracker j =
        (s.modTracker j fun k => { k with cyc := Cycle.rest }).tracker j := by
      simp only [State.placeCommand, hj]
      rfl
    rw [ht, tracker_modTracker]
    split_ifs with hl
    · rfl
    · have hr : s.tracker j = Tracker.reset :=
        List.getD_eq_default _ _ (not_lt.mp fun h => hl ⟨rfl, h⟩)
      rw [hr]
      rfl
  · rfl

/-- Settles O17: the placed command is the next event, on a port that is free and may issue it. -/
theorem placedWordRunsNext : Obligations.PlacedWordRunsNext := by
  intro s w i hn ht hw hi
  have hcw : BitVec.ofNat 32 (w % 2 ^ 32) = BitVec.ofNat 32 w := by rw [Nat.mod_eq_of_lt hw]
  have placed : s.withFetchWord 32 w = s.placeCommand (BitVec.ofNat 32 w) := by
    rw [State.withFetchWord, hcw]
  generalize BitVec.ofNat 32 w = cw at hi placed
  obtain ⟨hp, he⟩ := fetchPort_permitted hi hn ht
  have hc : portExists (s.placeCommand cw).cfg (fetchPort s.cfg cw) = true := he
  have hf : (s.placeCommand cw).portFree (fetchPort s.cfg cw) = true := by
    simp [State.portFree, State.portIdle, placeCommand_outstandingOf, placeCommand_inCycle, hc]
  rw [placed, step_issue rfl hf, runCommand_of_decode hi]
  exact ⟨_, rfl, hp, placeCommand_outstandingOf s cw, rfl⟩

end Sys2Proof.Machine
end

section
/-! PROOFS. A Tracker's own steps of its TRKCYCLE (43_tracker_consumer.md R231 to R240): the image, the
detection and the output. -/

namespace Sys2Proof.Machine

/-! ## The Tracker's functions -/

/-- A contour that no later one exceeds stays the chosen one (43_tracker_consumer.md R240). -/
theorem foldl_largerContour_keeps {back : List Contour} {c : Contour}
    (h : ∀ b ∈ back, b.area ≤ c.area) : back.foldl largerContour (some c) = some c := by
  induction back with
  | nil => rfl
  | cons b back ih =>
    rw [List.forall_mem_cons] at h
    rw [List.foldl_cons, largerContour, if_neg (not_lt.mpr h.1)]
    exact ih h.2

/-- Where every contour seen is smaller than `x`, so is the chosen one. -/
theorem foldl_largerContour_area {front : List Contour} {x : Rat} {best : Option Contour}
    (hb : ∀ b ∈ best, b.area < x) (h : ∀ b ∈ front, b.area < x) :
    ∀ b ∈ front.foldl largerContour best, b.area < x := by
  induction front generalizing best with
  | nil => exact hb
  | cons b front ih =>
    rw [List.forall_mem_cons] at h
    refine ih (fun d hd => ?_) h.2
    unfold largerContour at hd
    split at hd
    · cases hd
      exact h.1
    · split_ifs at hd <;> cases hd
      · exact h.1
      · exact hb _ rfl

/-- A contour larger than all before it and not smaller than any after it is chosen
(43_tracker_consumer.md R240). -/
theorem largestContour_eq_some {front back : List Contour} {c : Contour}
    (hf : ∀ b ∈ front, b.area < c.area) (hb : ∀ b ∈ back, b.area ≤ c.area) :
    largestContour (front ++ c :: back) = some c := by
  have hc : largerContour (front.foldl largerContour none) c = some c := by
    have ha := foldl_largerContour_area (best := none) (by simp) hf
    unfold largerContour
    split
    · rfl
    · rename_i b hbest
      rw [if_pos (ha b hbest)]
  rw [largestContour, List.foldl_append, List.foldl_cons, hc, foldl_largerContour_keeps hb]

/-- Without a mask or without a contour there is no detection (43_tracker_consumer.md R232, R239). -/
theorem detect_eq_none (n : KfSys) {mask : Option Image} {cs : List Contour}
    (h : mask = none ∨ cs = []) : detect n mask cs = none := by
  unfold detect
  rcases h with rfl | rfl
  · rfl
  · split <;> rfl

/-- With a mask the detection is the centroid of the first largest contour (43_tracker_consumer.md R233,
R240). -/
theorem detect_eq_centroid (n : KfSys) {mask : Option Image} {front back : List Contour} {c : Contour}
    (hm : mask ≠ none) (hf : ∀ b ∈ front, b.area < c.area) (hb : ∀ b ∈ back, b.area ≤ c.area) :
    detect n mask (front ++ c :: back) = centroid n c := by
  rw [detect, if_neg (by simpa using hm), largestContour_eq_some hf hb, Option.bind_some]

/-- A push in terms of the trail's length (43_tracker_consumer.md R234). -/
theorem pushTrail_eq {α : Type} (n : Nat) (tr : List α) (e : α) :
    pushTrail n tr e = if n < tr.length + 1 then (tr ++ [e]).tail else tr ++ [e] := by
  simp [pushTrail]

/-- The transition in terms of whether the node is the last one (43_tracker_consumer.md R236). -/
theorem transition_eq (lastNode m : Option Nat) :
    transition lastNode m = (m, decide (m ≠ lastNode), if m = lastNode then none else m) := by
  unfold transition
  by_cases h : m = lastNode <;> simp [h]

/-- The intensity of a pixel of one channel is its sample (43_tracker_consumer.md R237). -/
theorem pixelIntensity_one_channel {g : Geo} {data : List Byte} {x y : Nat} (hc : g.c = 1)
    (hx : x < g.w) (hy : y < g.h) :
    pixelIntensity (pixelSamples g data x y) = (data.getD (y * g.w + x) 0).toNat := by
  simp [pixelSamples, hc, hx, hy, pixelIntensity]

theorem mem_imageLeft {g : Geo} {got : List (Nat × Byte)} {o : Nat} :
    o ∈ imageLeft g got ↔ o < imgBytes g ∧ o ∉ got.map Prod.fst := by
  simp [imageLeft]

/-! ## The steps -/

/-- Changing a Tracker that there is writes its entry of the register file. -/
theorem modTracker_eq_set {s : State} {j : Nat} (h : j < s.trk.length) (f : Tracker → Tracker) :
    s.modTracker j f = { s with trk := s.trk.set j (f (s.tracker j)) } := by
  rw [State.modTracker, List.modify_eq_set_get f h, State.tracker, List.getD_eq_getElem _ _ h]
  rfl

/-- With nothing outstanding a Tracker's own step is the next of its cycle (43_tracker_consumer.md
R231). -/
theorem step_advance_trk {s : State} {j : Nat} {d : Draws} {es : List Event}
    (h : s.script = .advance (.trk j) d :: es) (hj : j < s.cfg.t)
    (ho : s.outstandingOf (.trk j) = none) :
    step s = cycleStep j { s with script := es, inp := ⟨.trk j, s.inp.payload, d⟩ } := by
  rw [step_advance h (decide_eq_true hj)]
  unfold advance
  rw [show State.outstanding { s with script := es, inp := ⟨.trk j, s.inp.payload, d⟩ } = none from ho]

theorem cycleStep_image {s : State} {j : Nat} (h : (s.tracker j).cyc.ph = .image) :
    cycleStep j s = readImage j s.inp.draws.picks s := by
  simp [cycleStep, cycleOp, h]

theorem cycleStep_detect {s : State} {j : Nat} (h : (s.tracker j).cyc.ph = .detect) :
    cycleStep j s = .next (s.modTracker j (detectStep s.cfg s.geo s.inp.draws)) := by
  simp [cycleStep, cycleOp, h]

theorem cycleStep_output {s : State} {j : Nat} (h : (s.tracker j).cyc.ph = .output) :
    cycleStep j s = .next (s.outputStep j) := by
  simp [cycleStep, cycleOp, h]

/-- One choice reads one byte that has not been read yet, where the View's image lies in `SFB`
(43_tracker_consumer.md R231, step 1b). -/
theorem readImage_one {s : State} {j n : Nat} (ha : s.allocated = true)
    (hv : (s.tracker j).cyc.view.base + imgBytes s.geo ≤ sfbBytes s.geo)
    (hl : ∃ o < imgBytes s.geo, o ∉ (s.tracker j).cyc.got.map Prod.fst) :
    ∃ o < imgBytes s.geo, o ∉ (s.tracker j).cyc.got.map Prod.fst ∧
      readImage j [n] s = .next (s.modTracker j fun k => { k with cyc := { k.cyc with
        got := (o, Memory.read s.sfb ((s.tracker j).cyc.view.base + o)) :: k.cyc.got } }) := by
  cases hp : pick (imageLeft s.geo (s.tracker j).cyc.got) n with
  | none =>
    obtain ⟨o, ho⟩ := hl
    have hm := mem_imageLeft.mpr ho
    rw [pick_eq_none.mp hp] at hm
    cases hm
  | some o =>
    obtain ⟨ho, hg⟩ := mem_imageLeft.mp (pick_mem hp)
    have hr : s.memRead ((s.tracker j).cyc.view.base + o) =
        some (Memory.read s.sfb ((s.tracker j).cyc.view.base + o)) :=
      if_pos (by simp [State.inSfb, ha]; omega)
    refine ⟨o, ho, hg, ?_⟩
    simp only [readImage, hp, hr]

/-- Once every byte has been read the cycle goes on (43_tracker_consumer.md R231, step 1b). -/
theorem readImage_done {s : State} {j n : Nat} {ns : List Nat}
    (h : ∀ o < imgBytes s.geo, o ∈ (s.tracker j).cyc.got.map Prod.fst) :
    readImage j (n :: ns) s = .next (s.modTracker j fun k =>
      { k with cyc := { k.cyc with ph := if k.cyc.inLock then .decode else .lock } }) := by
  have hl : imageLeft s.geo (s.tracker j).cyc.got = [] :=
    List.eq_nil_iff_forall_not_mem.mpr fun o ho =>
      (mem_imageLeft.mp ho).2 (h o (mem_imageLeft.mp ho).1)
  simp only [readImage, pick_eq_none.mpr hl]

/-- The output step with its node transition worked out (43_tracker_consumer.md R236 to R238). -/
theorem outputStep_eq_of_matchNode {s : State} {j : Nat} {m : Option Nat}
    (hm : matchNode s.cfg.kfSys (s.tracker j).cyc.det (s.cfg.nodes.getD j []) s.cfg.radius = m) :
    s.outputStep j =
      { s.modTracker j (fun k => { k with
          lastNode := m
          led := ledState s.geo (s.cfg.ledXY.getD j (0, 0)) s.cfg.ledThresh
            (cycleImage s.geo (s.tracker j).cyc.got)
          cyc := Cycle.rest }) with
        tout := s.tout ++ [⟨j, ledState s.geo (s.cfg.ledXY.getD j (0, 0)) s.cfg.ledThresh
            (cycleImage s.geo (s.tracker j).cyc.got),
          if m = (s.tracker j).lastNode then none else m,
          decide (m ≠ (s.tracker j).lastNode)⟩] } := by
  simp only [State.outputStep, hm, transition_eq]

/-- Settles O43: the step is the cycle's, and each of the three changes one entry of the Trackers'
registers and the outputs at most. -/
theorem trackerDetectsAndOutputs : Obligations.TrackerDetectsAndOutputs := by
  intro s j d es hs hj hl ho k img n after
  let r : State := { s with script := es, inp := ⟨.trk j, s.inp.payload, d⟩ }
  have hstep : step s = cycleStep j r := step_advance_trk hs hj ho
  have changed (f : Tracker → Tracker) (o : List TrkOut) :
      { r.modTracker j f with tout := s.tout ++ o } = after (f k) o := by
    rw [modTracker_eq_set (s := r) hl]
    rfl
  have changed_only (f : Tracker → Tracker) : r.modTracker j f = after (f k) [] := by
    rw [← changed, List.append_nil]
    rfl
  refine ⟨fun hph ha hv => ⟨?_, ?_⟩, ?_, ?_⟩
  · intro n hd hleft
    obtain ⟨o, ho, hg, hread⟩ := readImage_one (s := r) (j := j) (n := n) ha hv hleft
    refine ⟨o, ho, hg, ?_⟩
    rw [hstep, cycleStep_image (s := r) hph, show r.inp.draws.picks = [n] from hd, hread, changed_only]
    rfl
  · intro n ns hd hall
    rw [hstep, cycleStep_image (s := r) hph, show r.inp.draws.picks = n :: ns from hd,
      readImage_done (s := r) hall, changed_only]
  · intro hph mask
    have hmask : maskAfter k.mask (intensitySum s.geo img) d.mask = mask := by
      simp only [mask]
      cases k.mask <;> rfl
    refine ⟨detect n mask d.contours, detect_eq_none n, fun front c back hm hc hf hb => ?_, ?_⟩
    · rw [hc, detect_eq_centroid n hm hf hb]
      rfl
    · rw [hstep, cycleStep_detect (s := r) hph, changed_only, ← hmask, ← pushTrail_eq]
      rfl
  · intro hph m x y
    refine ⟨ledState s.geo (x, y) s.cfg.ledThresh img, decide_eq_true_iff, fun hc hx hy => ?_, ?_⟩
    · rw [← pixelIntensity_one_channel hc hx hy]
      exact decide_eq_true_iff
    · rw [hstep, cycleStep_output (s := r) hph, outputStep_eq_of_matchNode (s := r) (m := m) rfl]
      exact congrArg Host.Outcome.next (changed _ _)

end Sys2Proof.Machine
end

section
/-! PROOFS. The checks of `ALLOCATED` and of ownership, in their place in R132's order
(40_buffer_codec.md R132; 41_grabber_relay.md R170; 60_exceptions.md R271). -/

namespace Sys2Proof.Machine

/-! ## `ALLOCATED` -/

/-- The fault of the check of `ALLOCATED` (40_buffer_codec.md R132). -/
def allocationCause : Instr → Cause
  | .alloc _ => .alreadyAllocated
  | _ => .notAllocated

/-- The check of `ALLOCATED` fails where the state does not let the operation pass. -/
theorem allocationChecks_fail {s : State} {i : Instr} (h : allocationPasses s i = false) :
    firstFailing (s.allocationChecks i) = some ⟨true, allocationCause i, .none⟩ := by
  cases i <;>
    simp_all [allocationPasses, needsAllocated, State.allocationChecks, State.checkAllocated,
      firstFailing_cons, allocationCause]

/-- A fault of a WRSLOT that R170 names stops the Grabber in the loop form. -/
theorem raiseWrite_of_stopping {c : Cause} (hc : c = .notAllocated ∨ c = .shapeMismatch) (s : State)
    (u : UnitNo) (info : Info) :
    s.raiseWrite u c info =
      if s.inp.port = .grb u.toNat ∧ (s.grab u.toNat).gph = .wr then
        (s.stopGrabberAndDrop u.toNat).raise c info
      else s.raise c info := by
  rcases hc with rfl | rfl <;> simp [State.raiseWrite, State.isLoopForm]

/-- Settles O12: the check of the port passes, that of `ALLOCATED` is the first to fail. -/
theorem allocationCheck : Obligations.AllocationCheck := by
  intro i s ho hp ha
  have hc : firstFailing (s.entryChecks i) = some ⟨true, allocationCause i, .none⟩ := by
    rw [State.entryChecks, firstFailing_cons, if_neg (by simp [State.checkPort, hp]),
      firstFailing_append, allocationChecks_fail ha, Option.some_or]
  rw [exec_entryChecks ho hc]
  cases i with
  | wrslot u => exact congrArg Host.Outcome.next (raiseWrite_of_stopping (.inl rfl) s u .none)
  | _ => rfl

/-! ## Ownership -/

/-- An owned operation on a port with none outstanding checks, after the entry checks, that the port is
the unit's own: the first check that fails decides (40_buffer_codec.md R132). -/
theorem exec_ownerChecks {i : Instr} {s : State} {c : Check} (ho : s.outstanding = none)
    (hi : ownedOp i = true) (h : firstFailing (s.entryChecks i ++ [s.checkOwner i.unit]) = some c) :
    exec i s = .next (s.raiseChecked c i) := by
  cases i with
  | wrslot u =>
    show execWrslot u s = _
    unfold execWrslot State.startWrite
    rw [ho]
    have hw : firstFailing (s.writeChecks u) = some c := by
      rw [show s.writeChecks u = s.entryChecks (.wrslot u) ++ [s.checkOwner u] ++ _ from rfl,
        firstFailing_append]
      exact congrArg (Option.or · _) h
    simp only [hw]
    rfl
  | gopen u => exact guarded_append h
  | gchk u => exact guarded_append h
  | gread u => exact guarded_append h
  | gwrap u => exact guarded_append h
  | enq u => exact guarded_append h
  | gstat u => exact guarded_append h
  | gpace u => exact guarded_append h
  | kfinit u => exact guarded_append (ds := []) h
  | kfpred u => exact guarded_append (ds := []) h
  | kfcorr u => exact guarded_append (ds := []) h
  | _ => cases hi

/-- The entry checks pass where the port may issue the operation, `ALLOCATED` lets it pass and UNIT is in
range. -/
theorem entryChecks_pass {s : State} {i : Instr} (hp : permitted i s.inp.port = true)
    (ha : allocationPasses s i = true) (hu : unitInRange s.cfg i = true) :
    firstFailing (s.entryChecks i) = none := by
  rw [State.entryChecks, firstFailing_cons, if_neg (by simp [State.checkPort, hp]),
    firstFailing_append, firstFailing_eq_none.mpr (allocationChecks_pass ha), Option.none_or,
    firstFailing_cons, if_neg (by simp [unitCheck_eq, hu]), firstFailing_nil]

/-- A GRB or TRK port of another number does not own the unit (60_exceptions.md R271). -/
theorem ownsUnit_of_other {u : UnitNo} {p : Port} {k : Nat} (hk : k ≠ u.toNat)
    (hp : p = .grb k ∨ p = .trk k) : ownsUnit u p = false := by
  rcases hp with rfl | rfl <;> exact decide_eq_false hk

/-- Settles O14: the entry checks pass, that of ownership is the first to fail. -/
theorem ownershipCheck : Obligations.OwnershipCheck := by
  intro i s ho hp ha hu hi ⟨k, hk, hport⟩
  have hc : firstFailing (s.entryChecks i ++ [s.checkOwner i.unit]) = some (s.checkOwner i.unit) := by
    rw [firstFailing_append, entryChecks_pass hp ha hu, Option.none_or, firstFailing_cons,
      if_pos (by simp [State.checkOwner, ownsUnit_of_other hk hport])]
  rw [exec_ownerChecks ho hi hc, raiseChecked_eq_raise]
  · rfl
  · simp [State.checkOwner]
  · simp [State.checkOwner]

end Sys2Proof.Machine
end

section
/-! PROOFS. The buffer's operations that move no byte of `SFB` into a slot: ALLOC, LOCK, UNLOCK, RDSLOT
with the reads through its View, ENCMD and DECMD (40_buffer_codec.md R121 to R123, R126 to R130). -/

namespace Sys2Proof.Machine

/-! ## ALLOC -/

/-- The bounds of the operands, written out (00_scope.md R8, R9). -/
theorem legal_iff {g : Geo} :
    g.legal = true ↔
      1 ≤ g.n ∧ g.n ≤ 256 ∧ 22 ≤ g.w ∧ 1 ≤ g.h ∧ 1 ≤ g.c ∧ 1 ≤ g.m ∧ g.m * g.c = 3 := by
  simp only [Geo.legal, Bool.and_eq_true, decide_eq_true_eq, and_assoc]

/-- ALLOC's operands pass where they are within their bounds and those of `CFG`. -/
theorem badConfig_eq_false {c : Cfg} {g : Geo} :
    badConfig c g = false ↔ g.legal = true ∧ g = c.geo := by
  simp [badConfig]

/-- A first ALLOC by the Manager is decided by its operands. -/
theorem exec_alloc {s : State} (hp : s.inp.port = .mgr) (ha : s.allocated = false) :
    exec (.alloc 0) s =
      if badConfig s.cfg s.inp.payload.geo then
        .next (s.raise .badConfig (.config s.inp.payload.geo))
      else .next ((s.allocate s.inp.payload.geo).respond .none) := by
  cases hb : badConfig s.cfg s.inp.payload.geo <;>
    simp [exec, execAlloc, State.guarded, firstFailing_cons, State.checkPort, permitted, isMgr, hp, ha,
      checkNoUnit, hb]

/-- After ALLOC every byte of `SFB` reads 0x00. -/
theorem allocate_memRead (s : State) {g : Geo} {a : Nat} (h : a < sfbBytes g) :
    (s.allocate g).memRead a = some 0 :=
  memRead_eq_some.mpr ⟨decide_eq_true h, rfl⟩

/-- After ALLOC every lock is free. -/
theorem allocate_lockOf (s : State) (g : Geo) (k : Nat) : (s.allocate g).lockOf k = none :=
  List.getElem?_getD_replicate_default_eq _ _ _

/-- Settles O20: the operands decide, and `State.allocate` is the whole change. -/
theorem allocCreatesTheZeroBuffer : Obligations.AllocCreatesTheZeroBuffer := by
  rintro s g hp ha rfl legal
  have hpass : badConfig s.cfg s.inp.payload.geo = false ↔
      legal ∧ s.inp.payload.geo = s.cfg.geo := by rw [badConfig_eq_false, legal_iff]
  rw [exec_alloc hp ha]
  refine ⟨fun hl hg => ⟨s.allocate s.inp.payload.geo, ?_, rfl, rfl,
    fun a h => allocate_memRead s h, allocate_lockOf s _, rfl⟩, fun h => if_pos ?_⟩
  · rw [if_neg (by simp [hpass.mpr ⟨hl, hg⟩])]
  · rw [← Bool.not_eq_false, hpass]
    tauto

/-! ## LOCK and UNLOCK -/

/-- An operation for inspection on a slot passes its checks (40_buffer_codec.md R122, R126, R129). -/
theorem slotChecks_of_inspector {s : State} {i : Instr} {u : UnitNo}
    (hi : ∀ p, permitted i p = (isMgr p || isTrk p))
    (hp : s.inp.port = .mgr ∨ ∃ j, s.inp.port = .trk j) (ha : s.allocated = true)
    (hu : u.toNat < s.cfg.geo.n) : ∀ c ∈ s.slotChecks i u, c.fails = false := by
  refine slotChecks_pass.mpr ⟨?_, ha, hu⟩
  rw [hi]
  rcases hp with hp | ⟨j, hp⟩ <;> rw [hp] <;> rfl

/-- Two slots have the same lock register under buffer scope, and only then where they differ
(20_memory.md R83). -/
theorem lockIndex_eq_iff {c : Cfg} {v u : Nat} :
    lockIndex c v = lockIndex c u ↔ c.scope = .buffer ∨ v = u := by
  unfold lockIndex
  cases c.scope <;> simp

/-- Writing the lock of a slot writes that of every slot under buffer scope, of the one slot under slot
scope (40_buffer_codec.md R122; 20_memory.md R83). -/
theorem lockOf_setLock_of_slot {s : State} {u : Nat} (hu : u < s.cfg.geo.n)
    (hl : s.locks.length = lockCount s.cfg) (x : Option Port) (v : Nat) :
    (s.setLock u x).lockOf v = if s.cfg.scope = .buffer ∨ v = u then x else s.lockOf v := by
  have hin : lockIndex s.cfg u < s.locks.length := hl ▸ lockIndex_lt hu
  simp only [lockOf_setLock, hin, and_true, lockIndex_eq_iff]

/-- The number of lock registers does not change. -/
theorem setLock_locks_length (s : State) (u : Nat) (x : Option Port) :
    (s.setLock u x).locks.length = s.locks.length := List.length_set

theorem acquire_of_free {s : State} {u : Nat} (h : s.lockOf u = none) :
    s.acquire u = .taken (s.setLock u (some s.inp.port)) := by
  rw [State.acquire, h]

theorem acquire_of_other {s : State} {u : Nat} {q : Port} (h : s.lockOf u = some q)
    (hq : q ≠ s.inp.port) : s.acquire u = .waits := by
  simp only [State.acquire, h, if_neg hq]

theorem acquire_of_holder {s : State} {u : Nat} (h : s.lockOf u = some s.inp.port) :
    s.acquire u = .misuse := by
  simp only [State.acquire, h, if_true]

/-- Settles O21: the checks pass, the lock register decides. -/
theorem lockAcquiresOrWaits : Obligations.LockAcquiresOrWaits := by
  intro u s hp ha hu
  have hbody : exec (.lock u) s = _ :=
    guarded_of_pass (slotChecks_of_inspector (fun _ => rfl) hp ha hu)
  refine ⟨fun hfree => ⟨(s.setLock u.toNat (some s.inp.port)).locks, ?_, fun hl => ⟨?_, ?_⟩⟩,
    fun q hq hne => ?_, fun hown => ?_⟩
  · rw [hbody, acquire_of_free hfree]
    rfl
  · rw [setLock_locks_length, hl]
  · exact lockOf_setLock_of_slot hu hl _
  · rw [hbody, acquire_of_other hq hne]
  · rw [hbody, acquire_of_holder hown]
    rfl

/-- Settles O22: the checks pass, the holder decides. -/
theorem unlockReleases : Obligations.UnlockReleases := by
  intro u s hp ha hu
  have hbody : exec (.unlock u) s = _ :=
    guarded_of_pass (slotChecks_of_inspector (fun _ => rfl) hp ha hu)
  refine ⟨fun hown => ⟨(s.setLock u.toNat none).locks, ?_, fun hl => ⟨?_, ?_⟩⟩, fun hnot => ?_⟩
  · rw [hbody, State.release, if_pos hown]
    rfl
  · rw [setLock_locks_length, hl]
  · exact lockOf_setLock_of_slot hu hl _
  · rw [hbody, State.release, if_neg hnot]
    rfl

/-! ## RDSLOT and reads through a View -/

/-- A read outside the View raises `BadOffset` (40_buffer_codec.md R127). -/
theorem readThroughView_outside {v : View} {o : Nat} (h : v.length ≤ o) (s : State) :
    readThroughView v o s = .next (s.raise .badOffset (.offset o)) := if_pos h

/-- A read inside a View that lies in `SFB` answers the byte of live memory (40_buffer_codec.md R127). -/
theorem readThroughView_inside {v : View} {o : Nat} {s : State} (h : o < v.length)
    (ha : s.allocated = true) (hv : v.base + v.length ≤ sfbBytes s.geo) :
    readThroughView v o s = .next (s.respond (.byte (Memory.read s.sfb (v.base + o)))) := by
  have hin : s.inSfb (v.base + o) = true := by
    simp only [State.inSfb, ha, Bool.true_and, decide_eq_true_eq]
    omega
  rw [readThroughView, if_neg (not_le.mpr h), memRead_eq_some.mpr ⟨hin, rfl⟩]

/-- The next event is a read through a View: it is made where the port exists, has nothing outstanding and
obtained the View (60_exceptions.md R271; log entry 23). -/
theorem step_viewRead {s : State} {p : Port} {v : View} {o : Nat} {es : List Event}
    (h : s.script = .viewRead p v o :: es) :
    step s = if portExists s.cfg p = true ∧ s.outstandingOf p = none ∧
        (p, Response.ok (.view v)) ∈ s.resp then
      readThroughView v o { s with script := es, inp := ⟨p, s.inp.payload, s.inp.draws⟩ }
    else .next { s with script := es } := by
  rw [step_of_script h]
  have hopen : (State.portIdle { s with script := es } p &&
      State.holdsView { s with script := es, inp := ⟨p, s.inp.payload, s.inp.draws⟩ } v) = true ↔
      portExists s.cfg p = true ∧ s.outstandingOf p = none ∧
        (p, Response.ok (.view v)) ∈ s.resp := by
    simp [State.portIdle, State.holdsView, State.outstandingOf, and_assoc]
  exact if_congr hopen rfl rfl

/-- Settles O26: the View of the slot; the offset decides a read; who may read decides whether it is
made. -/
theorem rdslotAndViewReads : Obligations.RdslotAndViewReads := by
  refine ⟨fun u s hp ha hu => ?_, fun v o s => ⟨fun h => readThroughView_outside h s,
    readThroughView_inside⟩, fun s p v o es h => ?_⟩
  · exact guarded_of_pass (slotChecks_of_inspector (fun _ => rfl) hp ha hu)
  · rw [step_viewRead h]
    refine ⟨fun hp ho hv => if_pos ⟨hp, ho, hv⟩, fun hnot => if_neg ?_⟩
    rintro ⟨hp, ho, hv⟩
    rcases hnot with hn | hn | hn
    · simp [hp] at hn
    · exact hn ho
    · exact hn hv

/-! ## ENCMD -/

/-- Settles O27: every port may issue ENCMD, and UNIT is 0. -/
theorem encmdAnswersTheBlock : Obligations.EncmdAnswersTheBlock := by
  intro s
  have hpass : ∀ c ∈ [s.checkPort (.encmd 0), checkNoUnit 0], c.fails = false := by
    simp [State.checkPort, permitted, checkNoUnit]
  show execEncmd 0 s = _
  unfold execEncmd
  exact guarded_of_pass hpass

/-! ## DECMD -/

/-- In a legal geometry the block bytes of a slot lie in `SFB`. -/
theorem metaAddr_lt_sfbBytes {g : Geo} (hg : g.legal = true) {u k : Nat} (hu : u < g.n) (hk : k < 18) :
    metaAddr g u k < sfbBytes g := by
  have hstrip := (metaAddr_in_strip hg hk).2
  have hslot := slot_inside hu
  rw [metaAddr_base]
  omega

theorem mem_readsLeft {got : List (Nat × Byte)} {k : Nat} :
    k ∈ readsLeft got ↔ k < 18 ∧ k ∉ got.map Prod.fst := by
  simp [readsLeft, blockBytes]

/-- One choice reads one byte that has not been read yet (40_buffer_codec.md R129). -/
theorem readBytes_one {u : UnitNo} {s : State} {got : List (Nat × Byte)} {n : Nat}
    (ha : s.allocated = true) (hin : ∀ k < 18, metaAddr s.geo u.toNat k < sfbBytes s.geo)
    (hl : ∃ k < 18, k ∉ got.map Prod.fst) :
    ∃ k < 18, k ∉ got.map Prod.fst ∧
      readBytes u [n] got s = .next (s.keepOpen (.decmd u) s.inp.payload
        ((k, Memory.read s.sfb (metaAddr s.geo u.toNat k)) :: got)) := by
  cases hp : pick (readsLeft got) n with
  | none =>
    obtain ⟨k, hk⟩ := hl
    have hm := mem_readsLeft.mpr hk
    rw [pick_eq_none.mp hp] at hm
    cases hm
  | some k =>
    obtain ⟨hk, hg⟩ := mem_readsLeft.mp (pick_mem hp)
    have hr : s.memRead (metaAddr s.geo u.toNat k) =
        some (Memory.read s.sfb (metaAddr s.geo u.toNat k)) :=
      memRead_eq_some.mpr ⟨by simp [State.inSfb, ha, hin k hk], rfl⟩
    exact ⟨k, hk, hg, by simp only [readBytes, hp, hr]⟩

/-- Once all 18 bytes have been read DECMD answers their values, whatever memory holds
(40_buffer_codec.md R130). -/
theorem readBytes_done {u : UnitNo} {s : State} {got : List (Nat × Byte)} {n : Nat} {ns : List Nat}
    (h : ∀ k < 18, k ∈ got.map Prod.fst) :
    readBytes u (n :: ns) got s = .next (s.respond (decodedPair got)) := by
  have hl : readsLeft got = [] :=
    List.eq_nil_iff_forall_not_mem.mpr fun k hk =>
      (mem_readsLeft.mp hk).2 (h k (mem_readsLeft.mp hk).1)
  simp only [readBytes, pick_eq_none.mpr hl]

/-- Settles O28: whole, DECMD ends in the values memory holds; byte by byte, in those of the bytes it
read. -/
theorem decmdAnswersTheBlocks : Obligations.DecmdAnswersTheBlocks := by
  intro u s hp ha hc hg hu
  have hbody : exec (.decmd u) s = readBytes u s.inp.draws.picks s.readSoFar s :=
    guarded_of_pass (slotChecks_of_inspector (fun _ => rfl) hp ha hu)
  have hin : ∀ k < 18, metaAddr s.geo u.toNat k < sfbBytes s.geo := by
    rw [hg]
    exact fun k hk => metaAddr_lt_sfbBytes hc hu hk
  refine ⟨fun ho hn => ?_, fun got n hd hgot => ?_⟩
  · have hread : s.readSoFar = [] := by rw [State.readSoFar, ho]
    rw [hbody, hread]
    exact readBytes_complete u s ha hin _ [] (by simp) hn
  · have hread : s.readSoFar = got := by
      rcases hgot with ⟨ho, rfl⟩ | ⟨o, ho, rfl⟩ <;> rw [State.readSoFar, ho]
    rw [hbody, hread, hd]
    refine ⟨readBytes_one ha hin, fun hall => ?_⟩
    rw [readBytes_done hall]
    simp only [decodedPair, blockRead, blockBytes, Nat.zero_add]

end Sys2Proof.Machine
end

section
/-! PROOFS. WRSLOT as it is issued and one byte write at a time (40_buffer_codec.md R124, R125;
41_grabber_relay.md R170). -/

namespace Sys2Proof.Machine

/-! ## As it is issued -/

/-- The operands of the direct form (40_buffer_codec.md R124). -/
theorem writeOperands_direct {s : State} {u : Nat} (h : (s.grab u).gph = .idle) :
    s.writeOperands u = some s.inp.payload := by
  simp [State.writeOperands, h]

/-- The operands of the loop form (40_buffer_codec.md R124; 41_grabber_relay.md R170). -/
theorem writeOperands_loop {s : State} {u : Nat} {f : Frame} (h : (s.grab u).gph = .wr)
    (hf : (s.grab u).frm = some f) :
    s.writeOperands u =
      some { s.inp.payload with image := f.image, tick := f.tick, index := f.index } := by
  simp [State.writeOperands, h, hf]

/-- A WRSLOT issued by the slot's Grabber passes its checks in `Idle` and `Wr`; then the shape of the image
decides before the lock is asked for (40_buffer_codec.md R124). -/
theorem exec_wrslot_issued {u : UnitNo} {s : State} {pl : Payload} (ho : s.outstanding = none)
    (hp : s.inp.port = .grb u.toNat) (ha : s.allocated = true) (hu : u.toNat < s.cfg.geo.n)
    (hph : (s.grab u.toNat).gph = .idle ∨ (s.grab u.toNat).gph = .wr)
    (hpl : s.writeOperands u.toNat = some pl) :
    exec (.wrslot u) s =
      if imgHasShape pl.image s.geo then s.acquireAndWrite u pl
      else .next (s.raiseWrite u .shapeMismatch
        (.shape pl.image.rows pl.image.cols pl.image.chans)) := by
  have hchecks : firstFailing (s.writeChecks u) = none :=
    firstFailing_eq_none.mpr <| writeChecks_pass.mpr
      ⟨by simp [hp, isGrb], ha, hu, by simp [hp, ownsUnit], hph⟩
  show execWrslot u s = _
  simp only [execWrslot, ho, State.startWrite, hchecks, hpl]

/-- A WRSLOT waits while another port holds the lock (20_memory.md R72). -/
theorem acquireAndWrite_of_other {s : State} {u : UnitNo} {q : Port} (pl : Payload)
    (h : s.lockOf u.toNat = some q) (hq : q ≠ s.inp.port) :
    s.acquireAndWrite u pl = .next (s.keepOpen (.wrslot u) pl []) := by
  rw [State.acquireAndWrite, acquire_of_other h hq]

/-- A WRSLOT that finds the lock free takes it and begins to write (40_buffer_codec.md R124). -/
theorem acquireAndWrite_of_free {s : State} {u : UnitNo} (pl : Payload) (h : s.lockOf u.toNat = none) :
    s.acquireAndWrite u pl = writeBytes u pl s.inp.draws.picks
      ((s.setLock u.toNat (some s.inp.port)).beginWrite u.toNat pl) := by
  rw [State.acquireAndWrite, acquire_of_free h]

/-- Settles O24: the operands of either form, then the shape, then the lock. -/
theorem wrslotWaitsOrRefuses : Obligations.WrslotWaitsOrRefuses := by
  intro u s ho hp ha hu
  have refused (pl : Payload) : s.raiseWrite u .shapeMismatch
      (.shape pl.image.rows pl.image.cols pl.image.chans) = _ :=
    raiseWrite_of_stopping (.inr rfl) s u _
  refine ⟨fun hph hs ⟨q, hl, hq⟩ => ?_, fun f hph hf hs ⟨q, hl, hq⟩ => ?_, ?_, fun f hph hf hs => ?_⟩
  · rw [exec_wrslot_issued ho hp ha hu (.inl hph) (writeOperands_direct hph), if_pos hs]
    exact acquireAndWrite_of_other _ hl hq
  · rw [exec_wrslot_issued ho hp ha hu (.inr hph) (writeOperands_loop hph hf), if_pos hs]
    exact acquireAndWrite_of_other _ hl hq
  · rintro img hph rfl hs
    rw [exec_wrslot_issued ho hp ha hu (.inl hph) (writeOperands_direct hph), if_neg (by simp [hs]),
      refused, if_neg (by simp [hph])]
  · rw [exec_wrslot_issued ho hp ha hu (.inr hph) (writeOperands_loop hph hf), if_neg (by simp [hs]),
      refused, if_pos ⟨hp, hph⟩]
    rfl

/-! ## The byte writes -/

/-- Byte `k` of the two blocks a WRSLOT writes, the tickstamp block first (40_buffer_codec.md R124). -/
def Wip.blockByte (w : Wip) (k : Nat) : Byte :=
  if k < 9 then (enc9 w.tick).getD k 0 else (enc9 w.idx).getD (k - 9) 0

theorem blockByte_tick (w : Wip) {k : Nat} (h : k < 9) : w.blockByte k = (enc9 w.tick).getD k 0 :=
  if_pos h

theorem blockByte_index (w : Wip) (k : Nat) : w.blockByte (9 + k) = (enc9 w.idx).getD k 0 := by
  rw [Wip.blockByte, if_neg (by omega), Nat.add_sub_cancel_left]

section
variable {s : State} {w : Wip}

/-- The byte writes of a WRSLOT, a phase at a time, the two blocks taken together. -/
theorem mem_slotWrites_phases {it : WrItem} :
    it ∈ slotWrites s w ↔
      (∃ o < imgBytes s.geo, it = ⟨1, o, imgSample w.img o⟩) ∨
      (∃ e ∈ s.cfg.swatch, it = ⟨2, imgBytes s.geo + e.1, e.2⟩) ∨
      ∃ k < 18, it = ⟨3, metaAddr s.geo 0 k, w.blockByte k⟩ := by
  rw [mem_slotWrites]
  refine or_congr_right (or_congr_right ⟨?_, ?_⟩)
  · rintro (⟨k, hk, rfl⟩ | ⟨k, hk, rfl⟩)
    · exact ⟨k, by omega, by rw [blockByte_tick w hk]⟩
    · exact ⟨9 + k, by omega, by rw [blockByte_index]⟩
  · rintro ⟨k, hk, rfl⟩
    by_cases h9 : k < 9
    · exact .inl ⟨k, h9, by rw [blockByte_tick w h9]⟩
    · obtain ⟨l, rfl⟩ := Nat.exists_eq_add_of_le (not_lt.mp h9)
      exact .inr ⟨l, by omega, by rw [blockByte_index]⟩

/-- Where the byte writes of a WRSLOT go: phase 1 into the image region, phases 2 and 3 into the strip
(40_buffer_codec.md R124). -/
theorem slotWrites_region {it : WrItem} (hg : s.geo.legal = true) (hs : s.cfg.swatchLegal = true)
    (he : s.geo = s.cfg.geo) (h : it ∈ slotWrites s w) :
    it.phase = 1 ∧ it.off < imgBytes s.geo ∨
      (it.phase = 2 ∨ it.phase = 3) ∧ imgBytes s.geo ≤ it.off ∧ it.off < slotBytes s.geo := by
  rcases mem_slotWrites_phases.mp h with ⟨o, ho, rfl⟩ | ⟨e, hm, rfl⟩ | ⟨k, hk, rfl⟩
  · exact .inl ⟨rfl, ho⟩
  · simp only [Cfg.swatchLegal, Bool.and_eq_true, List.all_eq_true, decide_eq_true_eq, ← he] at hs
    rw [slotBytes_eq]
    exact .inr ⟨.inl rfl, Nat.le_add_right _ _, Nat.add_lt_add_left (hs.1 e hm) _⟩
  · exact .inr ⟨.inr rfl, metaAddr_in_strip hg hk⟩

/-- Every byte write is inside the slot (20_memory.md R74). -/
theorem slotWrites_off_lt {it : WrItem} (hg : s.geo.legal = true) (hs : s.cfg.swatchLegal = true)
    (he : s.geo = s.cfg.geo) (h : it ∈ slotWrites s w) : it.off < slotBytes s.geo := by
  have hstrip := slotBytes_eq s.geo
  rcases slotWrites_region hg hs he h with ⟨-, ho⟩ | ⟨-, -, ho⟩ <;> omega

theorem slotWrites_phase {it : WrItem} (h : it ∈ slotWrites s w) : 1 ≤ it.phase ∧ it.phase ≤ 3 := by
  rcases mem_slotWrites_phases.mp h with ⟨o, ho, rfl⟩ | ⟨e, hm, rfl⟩ | ⟨k, hk, rfl⟩ <;> simp

/-- A byte write inside a slot is inside `SFB`. -/
theorem inSfb_of_slot {u o : Nat} (ha : s.allocated = true) (he : s.geo = s.cfg.geo)
    (hu : u < s.cfg.geo.n) (ho : o < slotBytes s.geo) : s.inSfb (slotBase s.geo u + o) = true := by
  have hslot := slot_inside (he ▸ hu : u < s.geo.n)
  simp only [State.inSfb, ha, Bool.true_and, decide_eq_true_eq]
  omega

/-- No phase writes a byte twice (40_buffer_codec.md R124; 30_encoding.md R92, R94). -/
theorem slotWrites_unique {i k : WrItem} (hg : s.geo.legal = true) (hs : s.cfg.swatchLegal = true)
    (hi : i ∈ slotWrites s w) (hk : k ∈ slotWrites s w) (hp : i.phase = k.phase)
    (ho : i.off = k.off) : i = k := by
  have hkeys : (s.cfg.swatch.map Prod.fst).Nodup := by
    simp only [Cfg.swatchLegal, Bool.and_eq_true, decide_eq_true_eq] at hs
    exact hs.2
  rcases mem_slotWrites_phases.mp hi with ⟨o, -, rfl⟩ | ⟨e, he, rfl⟩ | ⟨l, hl, rfl⟩
  · rcases mem_slotWrites_phases.mp hk with ⟨o', -, rfl⟩ | ⟨e', -, rfl⟩ | ⟨l', -, rfl⟩ <;> cases hp
    exact congrArg (fun o => (⟨1, o, imgSample w.img o⟩ : WrItem)) ho
  · rcases mem_slotWrites_phases.mp hk with ⟨o', -, rfl⟩ | ⟨e', he', rfl⟩ | ⟨l', -, rfl⟩ <;> cases hp
    rw [List.inj_on_of_nodup_map hkeys he he' (Nat.add_left_cancel ho)]
  · rcases mem_slotWrites_phases.mp hk with ⟨o', -, rfl⟩ | ⟨e', -, rfl⟩ | ⟨l', hl', rfl⟩ <;> cases hp
    rw [metaAddr_inj hg hl hl' ho]

theorem slotWrites_length (s : State) (w : Wip) :
    (slotWrites s w).length = imgBytes s.geo + s.cfg.swatch.length + 18 := by
  simp [slotWrites, imageWrites, swatchWrites, blockWrites, blockBytes, Nat.add_assoc]

/-- There is a byte that may be written next where any phase has one left. -/
theorem nextWrites_ne_nil {q : Nat} (h : writesLeft s w q ≠ []) (h1 : 1 ≤ q) (h3 : q ≤ 3) :
    nextWrites s w ≠ [] := by
  unfold nextWrites
  split_ifs with hl1 hl2
  · exact hl1
  · exact hl2
  · obtain rfl | rfl | rfl : q = 1 ∨ q = 2 ∨ q = 3 := by omega
    · exact absurd h hl1
    · exact absurd h hl2
    · exact h

/-- With no phase that has a byte left, no byte may be written next. -/
theorem nextWrites_eq_nil (h : ∀ q, 1 ≤ q → q ≤ 3 → writesLeft s w q = []) : nextWrites s w = [] := by
  simp [nextWrites, h 1, h 2, h 3]

/-- A byte that may be written next is left of its phase, and no earlier phase has any left
(40_buffer_codec.md R125). -/
theorem nextWrites_earliest {it : WrItem} (h : it ∈ nextWrites s w) :
    it ∈ writesLeft s w it.phase ∧ ∀ q, 1 ≤ q → q < it.phase → writesLeft s w q = [] := by
  obtain ⟨hmem, hdid, hearly⟩ := mem_nextWrites (fun _ => slotWrites_phase) h
  refine ⟨mem_writesLeft.mpr ⟨hmem, rfl, hdid⟩, fun q _ hq => ?_⟩
  refine List.eq_nil_iff_forall_not_mem.mpr fun i hi => ?_
  obtain ⟨hm, rfl, hn⟩ := mem_writesLeft.mp hi
  exact hn (hearly i hm hq)

end

/-- One choice writes one byte that may come next, and the operation stays open (40_buffer_codec.md
R125). -/
theorem writeBytes_one {u : UnitNo} {pl : Payload} {n : Nat} {s : State} {w : Wip}
    (hw : (s.grab u.toNat).wip = some w) (hl : nextWrites s w ≠ [])
    (hin : ∀ it ∈ slotWrites s w, s.inSfb (slotBase s.geo u.toNat + it.off) = true) :
    ∃ it ∈ nextWrites s w, writeBytes u pl [n] s =
      .next ((s.afterWrite u.toNat w it).keepOpen (.wrslot u) pl []) := by
  cases hpk : pick (nextWrites s w) n with
  | none => exact absurd (pick_eq_none.mp hpk) hl
  | some it =>
    have hmem := pick_mem hpk
    refine ⟨it, hmem, ?_⟩
    simp only [writeBytes, hw, hpk,
      memWrite_eq_some.mpr ⟨hin it (nextWrites_subset hmem), rfl⟩]
    rfl

/-- With no byte left the write ends (40_buffer_codec.md R124). -/
theorem writeBytes_done {u : UnitNo} {pl : Payload} {n : Nat} {ns : List Nat} {s : State} {w : Wip}
    (hw : (s.grab u.toNat).wip = some w) (hl : nextWrites s w = []) :
    writeBytes u pl (n :: ns) s = .next (s.finishWrite u.toNat) := by
  simp only [writeBytes, hw, pick_eq_none.mpr hl]

/-! ## As it goes on -/

/-- A WRSLOT that waited asks for the lock again (20_memory.md R72). -/
theorem exec_wrslot_waited {u : UnitNo} {s : State} {o : Pending} (ho : s.outstanding = some o)
    (hw : (s.grab u.toNat).wip = none) : exec (.wrslot u) s = s.acquireAndWrite u o.payload := by
  show execWrslot u s = _
  simp [execWrslot, ho, State.continueWrite, hw]

/-- A WRSLOT in flight goes on with its byte writes (40_buffer_codec.md R125). -/
theorem exec_wrslot_inFlight {u : UnitNo} {s : State} {o : Pending} {w : Wip}
    (ho : s.outstanding = some o) (hw : (s.grab u.toNat).wip = some w) :
    exec (.wrslot u) s = writeBytes u o.payload s.inp.draws.picks s := by
  show execWrslot u s = _
  simp [execWrslot, ho, State.continueWrite, hw]

/-! ## The end of a write -/

/-- A Grabber whose write has ended: nothing in flight, `Wr` turned into `Stat` (40_buffer_codec.md
R124). -/
def Grabber.endWrite (g : Grabber) : Grabber :=
  { g with wip := none, gph := if g.gph = .wr then Phase.stat else g.gph }

/-- Two changes of a Grabber's registers that agree on what it holds are the same change. -/
theorem modGrab_congr {s : State} {u : Nat} {f g : Grabber → Grabber}
    (h : f (s.grab u) = g (s.grab u)) : s.modGrab u f = s.modGrab u g := by
  have hgrb : s.grb.modify u f = s.grb.modify u g := by
    apply List.ext_getElem?
    intro k
    simp only [List.getElem?_modify]
    split_ifs with hk
    · subst hk
      cases hx : s.grb[u]? with
      | none => rfl
      | some x =>
        have hgrab : s.grab u = x := by simp [State.grab, List.getD_eq_getElem?_getD, hx]
        rw [hgrab] at h
        simp [h]
    · rfl
  simp only [State.modGrab, hgrb]

/-- Two changes of a Grabber's registers one after the other are one. -/
theorem modGrab_modGrab (s : State) (u : Nat) (f g : Grabber → Grabber) :
    (s.modGrab u f).modGrab u g = s.modGrab u (g ∘ f) := by
  simp only [State.modGrab, modify_modify_self]

/-- The end of a write by the holder of the lock: the lock is released, the Grabber's registers say so,
and the response is given (40_buffer_codec.md R124). -/
theorem finishWrite_of_holder {s : State} {u : Nat} (h : s.lockOf u = some s.inp.port) :
    s.finishWrite u = ((s.setLock u none).modGrab u Grabber.endWrite).respond .none := by
  rcases finishWrite_cases s u with ⟨-, hf⟩ | ⟨hn, -⟩
  · rw [hf]
    congr 1
    split_ifs with hw
    · show ((s.setLock u none).modGrab u _).modGrab u _ = _
      rw [modGrab_modGrab]
      exact modGrab_congr (by simp [Grabber.endWrite, show ((s.setLock u none).grab u).gph = .wr from hw])
    · show (s.setLock u none).modGrab u _ = _
      exact modGrab_congr (by
        simp [Grabber.endWrite, show ¬((s.setLock u none).grab u).gph = .wr from hw])
  · exact absurd h hn

/-- Settles O25: the acquire, one byte write, the end. -/
theorem wrslotWritesOneByteAStep : Obligations.WrslotWritesOneByteAStep := by
  refine ⟨fun u s o ho hw hu hl => ?_, fun u s o w n ho hw hd hc hs hg ha hu ⟨q, hq, h1, h3⟩ => ?_,
    fun u s o w n ns ho hw hd hu hl hown hleft => ?_⟩
  · rw [exec_wrslot_waited ho hw]
    refine ⟨fun hfree hd => ⟨(s.setLock u.toNat (some s.inp.port)).locks, ?_, ?_, ?_⟩,
      fun q hq hne => acquireAndWrite_of_other _ hq hne⟩
    · rw [acquireAndWrite_of_free _ hfree, hd]
      rfl
    · rw [setLock_locks_length, hl]
    · exact lockOf_setLock_of_slot hu hl _
  · have hin : ∀ it ∈ slotWrites s w, s.inSfb (slotBase s.geo u.toNat + it.off) = true :=
      fun it hit => inSfb_of_slot ha hg hu (slotWrites_off_lt (hg ▸ hc) hs hg hit)
    obtain ⟨it, hit, hwrite⟩ :=
      writeBytes_one (pl := o.payload) (n := n) hw (nextWrites_ne_nil hq h1 h3) hin
    obtain ⟨hmem, hearly⟩ := nextWrites_earliest hit
    refine ⟨it, hmem, hearly, ?_⟩
    rw [exec_wrslot_inFlight ho hw, hd, hwrite]
    rfl
  · refine ⟨(s.setLock u.toNat none).locks, ?_, ?_, ?_⟩
    · rw [exec_wrslot_inFlight ho hw, hd, writeBytes_done hw (nextWrites_eq_nil hleft),
        finishWrite_of_holder hown]
      rfl
    · rw [setLock_locks_length, hl]
    · exact lockOf_setLock_of_slot hu hl _

end Sys2Proof.Machine
end

section
/-! PROOFS. WRSLOT as a whole: the bytes of its slot afterwards, and what a DECMD reads of them
(40_buffer_codec.md R124, R129; 95_test_vectors.md S1). -/

namespace Sys2Proof.Machine

/-! ## The write run to its end -/

/-- What `State.beginWrite` sets `WIP` to: the operands, phase 1, nothing done (40_buffer_codec.md
R124). -/
def Wip.begun (pl : Payload) : Wip := ⟨pl.image, pl.tick, pl.index, 1, []⟩

theorem beginWrite_wip {s : State} {u : Nat} (h : u < s.grb.length) (pl : Payload) :
    ((s.beginWrite u pl).grab u).wip = some (Wip.begun pl) := by
  have hmod : (s.beginWrite u pl).grab u = _ := grab_modGrab _ _ _ _
  rw [hmod, if_pos ⟨rfl, h⟩]
  rfl

/-- A write that begins has written nothing. -/
theorem WriteInv.start {m : Memory} (h : Memory.wf m = true) (base : Nat) (items : List WrItem)
    (pl : Payload) : WriteInv m base items (Wip.begun pl) m where
  wf := h
  order _ _ hd := absurd hd List.not_mem_nil
  vals _ _ hd := absurd hd List.not_mem_nil
  rest _ _ := rfl

/-- Taking a free lock and releasing it leaves the lock registers as they were. -/
theorem set_lock_and_free {s : State} {u : Nat} (h : s.lockOf u = none)
    (hin : lockIndex s.cfg u < s.locks.length) (x : Option Port) :
    (s.locks.set (lockIndex s.cfg u) x).set (lockIndex s.cfg u) none = s.locks := by
  have hfree : s.locks[lockIndex s.cfg u] = none := by
    rwa [State.lockOf, List.getD_eq_getElem _ _ hin] at h
  rw [List.set_set, ← hfree, List.set_getElem_self]

/-- What the whole write makes of the state: the lock it took is free again, and of the Grabber's registers
only the end of the write remains. -/
theorem finishWrite_of_whole {s : State} {u : Nat} (pl : Payload) (m : Memory) (w : Wip)
    (h : s.lockOf u = none) (hin : lockIndex s.cfg u < s.locks.length) :
    (State.setWip { (s.setLock u (some s.inp.port)).beginWrite u pl with sfb := m } u
        (some w)).finishWrite u =
      (({ s with sfb := m } : State).modGrab u Grabber.endWrite).respond .none := by
  have hown : (s.setLock u (some s.inp.port)).lockOf u = some s.inp.port := by
    rw [lockOf_setLock, if_pos ⟨rfl, hin⟩]
  refine (finishWrite_of_holder (by exact hown)).trans ?_
  congr 1
  simp only [State.setWip, State.beginWrite, State.setLock, State.modGrab, modify_modify_self,
    set_lock_and_free h hin]
  rfl

/-- A WRSLOT that finds the lock free and has draws enough writes every byte, in whatever order: a byte
holds what the latest phase writes there, every other byte is as before (40_buffer_codec.md R124, R125). -/
theorem acquireAndWrite_whole {u : UnitNo} {s : State} (pl : Payload) (ha : s.allocated = true)
    (hc : s.geo.legal = true) (hs : s.cfg.swatchLegal = true) (hg : s.geo = s.cfg.geo)
    (hu : u.toNat < s.cfg.geo.n) (hgrb : s.grb.length = s.cfg.geo.n)
    (hl : s.locks.length = lockCount s.cfg) (hm : Memory.wf s.sfb = true)
    (hfree : s.lockOf u.toNat = none)
    (hd : imgBytes s.geo + s.cfg.swatch.length + 18 < s.inp.draws.picks.length) :
    ∃ (m : Memory) (w : Wip),
      s.acquireAndWrite u pl =
        .next ((({ s with sfb := m } : State).modGrab u.toNat Grabber.endWrite).respond .none) ∧
      (∀ it ∈ slotWrites s (Wip.begun pl), w.did it) ∧
      WriteInv s.sfb (slotBase s.geo u.toNat) (slotWrites s (Wip.begun pl)) w m := by
  have hgrab : u.toNat < (s.setLock u.toNat (some s.inp.port)).grb.length := by
    rw [setLock_grb, hgrb]
    exact hu
  have hleft : (leftOver (slotWrites s (Wip.begun pl)) (Wip.begun pl)).length <
      s.inp.draws.picks.length :=
    (List.length_filter_le _ _).trans_lt (by rwa [slotWrites_length])
  obtain ⟨m, w, hinv, hdid, hrun⟩ := writeBytes_complete u pl s.sfb s.inp.draws.picks
    ((s.setLock u.toNat (some s.inp.port)).beginWrite u.toNat pl) (Wip.begun pl)
    (beginWrite_wip hgrab pl) (by rwa [beginWrite_grb, List.length_modify])
    (fun _ hi _ hk => slotWrites_unique (s := s) hc hs hi hk)
    (fun _ hi => slotWrites_phase hi)
    (fun _ hi => inSfb_of_slot (s := s) ha hg hu (slotWrites_off_lt (s := s) hc hs hg hi))
    (WriteInv.start hm _ _ pl) hleft
  refine ⟨m, w, ?_, hdid, hinv⟩
  rw [acquireAndWrite_of_free pl hfree, hrun, finishWrite_of_whole pl m w hfree (hl ▸ lockIndex_lt hu)]

/-! ## The bytes afterwards -/

section
variable {s : State} {w w' : Wip} {m0 m : Memory} {base : Nat}

/-- The image region holds the image: no later phase writes there. -/
theorem WriteInv.read_image (h : WriteInv m0 base (slotWrites s w) w' m)
    (hdid : ∀ it ∈ slotWrites s w, w'.did it) (hc : s.geo.legal = true)
    (hs : s.cfg.swatchLegal = true) (hg : s.geo = s.cfg.geo) {o : Nat} (ho : o < imgBytes s.geo) :
    Memory.read m (base + o) = imgSample w.img o := by
  have hit : (⟨1, o, imgSample w.img o⟩ : WrItem) ∈ slotWrites s w :=
    mem_slotWrites_phases.mpr (.inl ⟨o, ho, rfl⟩)
  refine h.vals _ hit (hdid _ hit) fun i hi _ hoff => ?_
  rcases slotWrites_region hc hs hg hi with ⟨hp, -⟩ | ⟨-, hlo, -⟩
  · exact hp.le
  · exact absurd (hlo.trans_eq hoff) (not_le.mpr ho)

/-- The patches hold the blocks: phase 3 is the last. -/
theorem WriteInv.read_block (h : WriteInv m0 base (slotWrites s w) w' m)
    (hdid : ∀ it ∈ slotWrites s w, w'.did it) {k : Nat} (hk : k < 18) :
    Memory.read m (base + metaAddr s.geo 0 k) = w.blockByte k := by
  have hit : (⟨3, metaAddr s.geo 0 k, w.blockByte k⟩ : WrItem) ∈ slotWrites s w :=
    mem_slotWrites_phases.mpr (.inr (.inr ⟨k, hk, rfl⟩))
  exact h.vals _ hit (hdid _ hit) fun i hi _ _ => (slotWrites_phase hi).2

/-- The strip holds the swatch where that covers no block byte (30_encoding.md R94). -/
theorem WriteInv.read_swatch (h : WriteInv m0 base (slotWrites s w) w' m)
    (hdid : ∀ it ∈ slotWrites s w, w'.did it) {e : Nat × Byte} (he : e ∈ s.cfg.swatch)
    (hn : ∀ k < 18, imgBytes s.geo + e.1 ≠ metaAddr s.geo 0 k) :
    Memory.read m (base + (imgBytes s.geo + e.1)) = e.2 := by
  have hit : (⟨2, imgBytes s.geo + e.1, e.2⟩ : WrItem) ∈ slotWrites s w :=
    mem_slotWrites_phases.mpr (.inr (.inl ⟨e, he, rfl⟩))
  refine h.vals _ hit (hdid _ hit) fun i hi _ hoff => ?_
  rcases mem_slotWrites_phases.mp hi with ⟨o, -, rfl⟩ | ⟨e', -, rfl⟩ | ⟨k, hk, rfl⟩
  · exact Nat.le_succ 1
  · exact le_rfl
  · exact absurd hoff.symm (hn k hk)

/-- Every other byte of the strip is as before. -/
theorem WriteInv.read_strip (h : WriteInv m0 base (slotWrites s w) w' m) {o : Nat}
    (ho : imgBytes s.geo ≤ o) (hsw : ∀ e ∈ s.cfg.swatch, o ≠ imgBytes s.geo + e.1)
    (hn : ∀ k < 18, o ≠ metaAddr s.geo 0 k) : Memory.read m (base + o) = Memory.read m0 (base + o) := by
  refine h.rest _ fun it hit _ heq => ?_
  have hoff := Nat.add_left_cancel heq
  rcases mem_slotWrites_phases.mp hit with ⟨o', ho', rfl⟩ | ⟨e, he, rfl⟩ | ⟨k, hk, rfl⟩
  · exact absurd ho (hoff ▸ not_le.mpr ho')
  · exact hsw e he hoff
  · exact hn k hk hoff

/-- Every byte outside the slot is as before (20_memory.md R74). -/
theorem WriteInv.read_outside (h : WriteInv m0 base (slotWrites s w) w' m) (hc : s.geo.legal = true)
    (hs : s.cfg.swatchLegal = true) (hg : s.geo = s.cfg.geo) {a : Nat}
    (ha : a < base ∨ base + slotBytes s.geo ≤ a) : Memory.read m a = Memory.read m0 a := by
  refine h.rest a fun it hit _ heq => ?_
  have hoff := slotWrites_off_lt hc hs hg hit
  omega

end

/-- In either form a WRSLOT that passes its checks has operands with the image, tick and index of the
form (40_buffer_codec.md R124). -/
theorem writeOperands_of_form {s : State} {u : Nat} {pl : Payload}
    (h : (s.grab u).gph = .idle ∧ pl = s.inp.payload ∨
      ∃ f, (s.grab u).gph = .wr ∧ (s.grab u).frm = some f ∧ pl.image = f.image ∧
        pl.tick = f.tick ∧ pl.index = f.index) :
    ((s.grab u).gph = .idle ∨ (s.grab u).gph = .wr) ∧ ∃ ops, s.writeOperands u = some ops ∧
      ops.image = pl.image ∧ ops.tick = pl.tick ∧ ops.index = pl.index := by
  rcases h with ⟨hph, rfl⟩ | ⟨f, hph, hf, hi, ht, hx⟩
  · exact ⟨.inl hph, _, writeOperands_direct hph, rfl, rfl, rfl⟩
  · exact ⟨.inr hph, _, writeOperands_loop hph hf, hi.symm, ht.symm, hx.symm⟩

/-- Settles O23: the write runs to its end, and each byte is the latest phase's. -/
theorem wrslotWritesTheSlot : Obligations.WrslotWritesTheSlot := by
  intro u s pl ho hp ha hc hs hg hu hgrb hl hm hform hshape hfree hd
  rw [← hg] at hc
  obtain ⟨hph, ops, hops, himg, htick, hidx⟩ := writeOperands_of_form hform
  obtain ⟨m, w, hrun, hdid, hinv⟩ := acquireAndWrite_whole ops ha hc hs hg hu hgrb hl hm hfree hd
  have hbegun : Wip.begun ops = Wip.begun pl := by rw [Wip.begun, himg, htick, hidx, Wip.begun]
  rw [hbegun] at hdid hinv
  refine ⟨m, ?_, hinv.wf, fun a => hinv.read_outside hc hs hg,
    fun o => hinv.read_image hdid hc hs hg, fun k hk => ?_, fun k hk => ?_,
    fun e he hn => ?_, fun o hlo _ => hinv.read_strip hlo⟩
  · rw [exec_wrslot_issued ho hp ha hu hph hops, if_pos (himg ▸ hshape), hrun]
    rfl
  · rw [blkAddr_base, show s.geo.w - 22 = tickCol s.geo from rfl, ← metaAddr_tick _ hk,
      hinv.read_block hdid (by omega), blockByte_tick _ hk]
    rfl
  · rw [blkAddr_base, show s.geo.w - 19 = indexCol s.geo from rfl, ← metaAddr_index,
      hinv.read_block hdid (by omega), blockByte_index]
    rfl
  · rw [Nat.add_assoc]
    exact hinv.read_swatch hdid he hn

/-! ## The round trip -/

/-- Nine bytes that are those of `enc9 v` decode to `v` (30_encoding.md R97). -/
theorem dec9_of_bytes {f : Nat → Byte} {v : U64} (h : ∀ k < 9, f k = (enc9 v).getD k 0) :
    dec9 ((List.range 9).map f) = v := by
  have hbytes : (List.range 9).map f = enc9 v := by
    rw [List.map_congr_left fun k hk => h k (List.mem_range.mp hk)]
    rfl
  rw [hbytes, dec9_enc9]

/-- Settles O29: the blocks the WRSLOT left are those the DECMD reads, and the codec loses nothing. -/
theorem slotRoundTrip : Obligations.SlotRoundTrip := by
  intro u s t r pl ho hp ha hc hs hg hu hgrb hl hm hform hshape hfree hd ht hsfb hgeo hcfg hal hor
    hpr hdr
  obtain ⟨m, hrun, -, -, -, htick, hidx, -⟩ :=
    wrslotWritesTheSlot u s pl ho hp ha hc hs hg hu hgrb hl hm hform hshape hfree hd
  obtain rfl := Host.Outcome.next.inj (ht.symm.trans hrun)
  change r.sfb = m at hsfb
  change r.geo = s.geo at hgeo
  change r.cfg = s.cfg at hcfg
  change r.allocated = s.allocated at hal
  obtain ⟨hwhole, -⟩ := decmdAnswersTheBlocks u r hpr (hal.trans ha) (hcfg ▸ hc)
    (by rw [hgeo, hcfg, hg]) (hcfg ▸ hu)
  rw [hwhole hor hdr, hsfb, hgeo, dec9_of_bytes htick, dec9_of_bytes hidx]

end Sys2Proof.Machine
end

section
/-! PROOFS. The bounds every step keeps: the queue within its capacity (41_grabber_relay.md R178), one
operation outstanding a port (30_encoding.md R106), the register files at their lengths (10_state.md R24,
R28, R34, R40). -/

namespace Sys2Proof.Machine

/-- From `s` to `t` no bound is broken that holds in `s`. -/
structure KeepsBounds (s t : State) : Prop where
  queue : s.dq.length ≤ s.cfg.qcap → t.dq.length ≤ t.cfg.qcap
  ports : s.oneOutstanding → t.oneOutstanding
  files : s.FilesOk → t.FilesOk

theorem KeepsBounds.refl (s : State) : KeepsBounds s s := ⟨id, id, id⟩

theorem KeepsBounds.trans {s r t : State} (h : KeepsBounds s r) (k : KeepsBounds r t) :
    KeepsBounds s t :=
  ⟨k.queue ∘ h.queue, k.ports ∘ h.ports, k.files ∘ h.files⟩

/-- Taking an operation off the list of those outstanding leaves one a port. -/
theorem nodup_dropPending {l : List (Port × Pending)} (p : Port) (h : (l.map Prod.fst).Nodup) :
    ((dropPending p l).map Prod.fst).Nodup :=
  h.sublist (List.filter_sublist.map Prod.fst)

/-- The operation a port is left with takes the place of the one it had. -/
theorem nodup_cons_dropPending {l : List (Port × Pending)} (p : Port) (o : Pending)
    (h : (l.map Prod.fst).Nodup) : (((p, o) :: dropPending p l).map Prod.fst).Nodup := by
  refine List.nodup_cons.mpr ⟨fun hp => ?_, nodup_dropPending p h⟩
  obtain ⟨e, he, rfl⟩ := List.mem_map.mp hp
  exact (mem_dropPending.mp he).2 rfl

/-- A change of one Grabber's registers, of the tick read and of the log. -/
theorem KeepsBounds.modGrab (s : State) (x : U64) (l : List LogEvent) (u : Nat)
    (f : Grabber → Grabber) : KeepsBounds s (State.modGrab { s with tick := x, log := l } u f) :=
  ⟨id, id, fun h => { h with grb := by simpa using h.grb }⟩

/-- A change of one Tracker's state. -/
theorem KeepsBounds.modTracker (s : State) (j : Nat) (f : Tracker → Tracker) :
    KeepsBounds s (s.modTracker j f) :=
  ⟨id, id, fun h => { h with trk := by simpa using h.trk }⟩

/-- No single change breaks a bound: ENQ appends only where there is room, a port that keeps an operation
open drops the one before, and a register file is written entry by entry, but for ALLOC's new locks. -/
theorem keepsBounds_closed : Closed KeepsBounds where
  refl := .refl
  trans _ _ _ := .trans
  enq s f hl := ⟨fun _ => by simpa using hl, id, fun h => { h with }⟩
  deq s f fs hd :=
    ⟨fun h => Nat.le_of_succ_le (by simpa [hd] using h), id, fun h => { h with }⟩
  answer s _ := ⟨id, nodup_dropPending _, fun h => { h with }⟩
  raise s _ _ := ⟨id, nodup_dropPending _, fun h => { h with }⟩
  keepOpen s _ _ _ := ⟨id, nodup_cons_dropPending _ _, fun h => { h with }⟩
  alloc s _ := ⟨id, id, fun h => { h with locks := List.length_replicate }⟩
  setLock s _ _ := ⟨id, id, fun h => { h with locks := by simpa using h.locks }⟩
  filt s _ _ := ⟨id, id, fun h => { h with kfu := by simpa using h.kfu }⟩
  setWip s u _ := .modGrab s s.tick s.log u _
  phase s u _ _ _ := .modGrab s s.tick s.log u _
  gstart s u _ := .modGrab s s.tick s.log u _
  stop s u _ := .modGrab s s.tick s.log u _
  stopd s u _ := .modGrab s s.tick s.log u _
  gread s u _ _ := .modGrab s s.tick s.log u _
  gwrap s u x _ _ _ := .modGrab s x s.log u _
  gstat s u l _ _ _ := .modGrab s s.tick l u _
  took s j _ _ _ _ := .modTracker s j _
  got s j _ _ := .modTracker s j _
  gotd s j := .modTracker s j _
  detect s j := .modTracker s j _
  output s j := ⟨id, id, fun h => { h with trk := by simpa [State.outputStep] using h.trk }⟩
  moved s r h := by
    obtain ⟨_, _, _, rfl⟩ := h
    exact ⟨id, id, fun h => { h with }⟩
  mem s _ _ _ := ⟨id, id, fun h => { h with }⟩
  log s _ := ⟨id, id, fun h => { h with }⟩
  cancel s := ⟨id, id, fun h => { h with }⟩

/-- Settles O51: each single change keeps the bounds, hence every step does. -/
theorem stepKeepsTheBounds : Obligations.StepKeepsTheBounds := by
  intro s t h
  obtain ⟨queue, ports, files⟩ := keepsBounds_closed.step h
  exact ⟨queue, ports, files⟩

end Sys2Proof.Machine
end

section
/-! PROOFS. The Grabber, the relay and the delivery queue (41_grabber_relay.md R160 to R175): the check of
the unit's state, and what each operation does once its checks pass. -/

namespace Sys2Proof.Machine

/-! ## The check of the unit's state (41_grabber_relay.md R160) -/

section
variable {i : Instr} {u : UnitNo} {s : State} {p : Phase} {body : Out}

/-- A guarded operation with a failing check raises the fault of the first. -/
theorem guarded_of_fail {cs : List Check} {c : Check} (h : firstFailing cs = some c) :
    s.guarded cs body = .next (s.raise c.cause c.info) := by
  simp only [State.guarded, h]

/-- On the Grabber's own port a Grabber's operation is decided by the phase. -/
theorem firstFailing_grabberChecks (hi : permitted i (.grb u.toNat) = true)
    (hp : s.inp.port = .grb u.toNat) (hu : u.toNat < s.cfg.geo.n) :
    firstFailing (s.grabberChecks i u p) =
      if (s.grab u.toNat).gph = p then none else some (s.checkPhase u p) := by
  simp [State.grabberChecks, firstFailing_cons, State.checkPort, checkUnit, State.checkOwner,
    State.checkPhase, ownsUnit, hp, hi, hu]

/-- A Grabber's operation out of its phase raises `BadState` with the phase. -/
theorem grabberOp_badState (hi : permitted i (.grb u.toNat) = true)
    (hp : s.inp.port = .grb u.toNat) (hu : u.toNat < s.cfg.geo.n) (hg : (s.grab u.toNat).gph ≠ p) :
    s.guarded (s.grabberChecks i u p) body =
      .next (s.raise .badState (.phase (s.grab u.toNat).gph)) := by
  have hc : firstFailing (s.grabberChecks i u p) = some (s.checkPhase u p) := by
    rw [firstFailing_grabberChecks hi hp hu, if_neg hg]
  exact guarded_of_fail hc

/-- A Grabber's operation in its phase, on the Grabber's own port, is its body. -/
theorem grabberOp_pass (hi : permitted i (.grb u.toNat) = true) (hp : s.inp.port = .grb u.toNat)
    (hu : u.toNat < s.cfg.geo.n) (hg : (s.grab u.toNat).gph = p) :
    s.guarded (s.grabberChecks i u p) body = body := by
  have hc : firstFailing (s.grabberChecks i u p) = none := by
    rw [firstFailing_grabberChecks hi hp hu, if_pos hg]
  exact guarded_of_pass (firstFailing_eq_none.mp hc)

/-- A GSTART by the Manager is decided by the Grabber's state (41_grabber_relay.md R161). -/
theorem exec_gstart (hp : s.inp.port = .mgr) (hu : u.toNat < s.cfg.geo.n) :
    exec (.gstart u) s =
      if (s.grab u.toNat).gstate = .created then
        .next ((s.modGrab u.toNat fun g =>
          { g with gstate := .running, gph := .opn, seq := 0, fpscnt := 0 }).respond .none)
      else .next (s.raise .badState (.gstate (s.grab u.toNat).gstate)) := by
  show execGstart u s = _
  by_cases hg : (s.grab u.toNat).gstate = .created <;>
    simp [execGstart, State.guarded, firstFailing_cons, State.checkPort, permitted, isMgr, checkUnit,
      hp, hu.not_ge, hg]

/-- A WRSLOT issued by the slot's Grabber in a phase of its loop other than `Wr` fails that check
(40_buffer_codec.md R124). -/
theorem exec_wrslot_badState (ho : s.outstanding = none) (hp : s.inp.port = .grb u.toNat)
    (ha : s.allocated = true) (hu : u.toNat < s.cfg.geo.n) (hidle : (s.grab u.toNat).gph ≠ .idle)
    (hwr : (s.grab u.toNat).gph ≠ .wr) :
    exec (.wrslot u) s = .next (s.raise .badState (.phase (s.grab u.toNat).gph)) := by
  have hc : firstFailing (s.writeChecks u) =
      some ⟨true, .badState, .phase (s.grab u.toNat).gph⟩ := by
    simp [State.writeChecks, firstFailing_cons, State.checkPort, permitted, isGrb, hp,
      State.checkAllocated, ha, checkUnit, hu, State.checkOwner, ownsUnit, hidle, hwr]
  show execWrslot u s = _
  simp [execWrslot, ho, State.startWrite, hc, State.raiseWrite]

end

/-- Settles O15: the checks before that of the state pass, and it fails. -/
theorem phaseCheck : Obligations.PhaseCheck := by
  refine ⟨fun u s i p hip hp hu hg => ?_,
    fun u s ho hp ha hu hidle hwr => exec_wrslot_badState ho hp ha hu hidle hwr,
    fun u s hp hu hg => by rw [exec_gstart hp hu, if_neg hg]⟩
  simp only [List.mem_cons, Prod.mk.injEq, List.not_mem_nil, or_false] at hip
  rcases hip with ⟨rfl, rfl⟩ | ⟨rfl, rfl⟩ | ⟨rfl, rfl⟩ | ⟨rfl, rfl⟩ | ⟨rfl, rfl⟩ | ⟨rfl, rfl⟩ |
    ⟨rfl, rfl⟩ <;>
  exact grabberOp_badState rfl hp hu hg

/-! ## The operations of the run loop (41_grabber_relay.md R161 to R172)

Each equation holds on the Grabber's own port in the operation's phase. -/

section
variable {u : UnitNo} {s : State} (hp : s.inp.port = .grb u.toNat) (hu : u.toNat < s.cfg.geo.n)
include hp hu

theorem exec_gopen (hg : (s.grab u.toNat).gph = .opn) :
    exec (.gopen u) s =
      if s.inp.draws.openOk then .next ((s.setPhase u.toNat .chk).respond .none)
      else .next ((s.stopGrabber u.toNat).raise .captureOpenFailure (.number u.toNat)) :=
  grabberOp_pass rfl hp hu hg

theorem exec_gchk (hg : (s.grab u.toNat).gph = .chk) :
    exec (.gchk u) s =
      if s.cancel then .next ((s.stopGrabber u.toNat).respond .none)
      else .next ((s.setPhase u.toNat .read).respond .none) :=
  grabberOp_pass rfl hp hu hg

theorem exec_gread (hg : (s.grab u.toNat).gph = .read) :
    exec (.gread u) s =
      match s.inp.draws.read with
      | .noAnswer => .next (s.wait (.gread u))
      | .fail => .next ((s.setPhase u.toNat .pace).respond .none)
      | .ok img =>
        .next ((s.modGrab u.toNat fun g => { g with img := some img, gph := .wrap }).respond .none) :=
  (grabberOp_pass rfl hp hu hg).trans <| by cases s.inp.draws.read <;> rfl

theorem exec_gwrap {img : Image} (hg : (s.grab u.toNat).gph = .wrap)
    (hi : (s.grab u.toNat).img = some img) :
    exec (.gwrap u) s =
      .next ((State.modGrab { s with tick := tickRead s.tick s.inp.draws.tick } u.toNat fun g =>
        { g with
          frm := some (s.frameOf u.toNat img (tickRead s.tick s.inp.draws.tick))
          seq := g.seq + 1
          img := none
          gph := .enq }).respond .none) :=
  (grabberOp_pass rfl hp hu hg).trans <| by rw [hi]

theorem exec_enq {f : Frame} (hg : (s.grab u.toNat).gph = .enq)
    (hf : (s.grab u.toNat).frm = some f) :
    exec (.enq u) s =
      if s.dqHasRoom then
        .next ((State.setPhase { s with dq := s.dq ++ [f] } u.toNat .wr).respond .delivered)
      else if s.dqFull && s.inp.draws.drop then
        .next (((s.logEvent (.dropFull u.toNat f.index)).setPhase u.toNat .wr).respond .dropped)
      else .next (s.wait (.enq u)) :=
  (grabberOp_pass rfl hp hu hg).trans <| by rw [hf]

theorem exec_gstat (hg : (s.grab u.toNat).gph = .stat) :
    exec (.gstat u) s =
      if s.fpsDue u.toNat then
        .next (((s.logEvent (.fps u.toNat s.inp.draws.fps)).modGrab u.toNat fun g =>
          { g with frm := none, fpscnt := 0, gph := .pace }).respond .none)
      else
        .next ((s.modGrab u.toNat fun g =>
          { g with frm := none, fpscnt := g.fpscnt + 1, gph := .pace }).respond .none) :=
  grabberOp_pass rfl hp hu hg

theorem exec_gpace (hg : (s.grab u.toNat).gph = .pace) :
    exec (.gpace u) s = .next ((s.setPhase u.toNat .chk).respond .none) :=
  grabberOp_pass rfl hp hu hg

end

/-- Settles O30: GSTART of a `Created` Grabber, then GOPEN by the answer of the source. -/
theorem gstartAndGopen : Obligations.GstartAndGopen := by
  intro u s hu
  refine ⟨fun hp hg => ?_, fun hp hg hok => ?_, fun hp hg hok => ?_⟩
  · rw [exec_gstart hp hu, if_pos hg]
  · rw [exec_gopen hp hu hg, if_pos hok]
    rfl
  · rw [exec_gopen hp hu hg, if_neg (by simp [hok])]
    rfl

/-- Settles O31: GCHK by the cancellation signal, and GPACE. -/
theorem gchkAndGpace : Obligations.GchkAndGpace := by
  intro u s hp hu
  refine ⟨fun hg hc => ?_, fun hg hc => ?_, fun hg => exec_gpace hp hu hg⟩
  · rw [exec_gchk hp hu hg, if_pos hc]
    rfl
  · rw [exec_gchk hp hu hg, if_neg (by simp [hc])]
    rfl

/-- Settles O32: GREAD by the answer of the source. -/
theorem greadTakesTheAnswer : Obligations.GreadTakesTheAnswer := by
  intro u s hp hu hg
  refine ⟨fun img hr => ?_, fun hr => ?_, fun hr => ?_⟩ <;> rw [exec_gread hp hu hg, hr]
  rfl

/-- The sequence index counts modulo 2^64 (10_state.md R30). -/
theorem seq_succ (v : U64) : v + 1 = BitVec.ofNat 64 ((v.toNat + 1) % 2 ^ 64) := by
  apply BitVec.eq_of_toNat_eq
  simp [BitVec.toNat_add]

/-- Settles O33: the tick is the one read, and the Frame's index is the Grabber's before it counts. -/
theorem gwrapBuildsTheFrame : Obligations.GwrapBuildsTheFrame := by
  intro u s img hp hu hg hi
  refine ⟨tickRead s.tick s.inp.draws.tick, tickRead_ge _ _, tickRead_of_le, ?_⟩
  rw [exec_gwrap hp hu hg hi]
  congr 2
  exact modGrab_congr (by rw [← seq_succ]; rfl)

/-- Settles O34: ENQ by the length of the queue and the draw. -/
theorem enqDeliversDropsOrWaits : Obligations.EnqDeliversDropsOrWaits := by
  intro u s f hp hu hg hf
  refine ⟨fun hl => ?_, fun hl hd => ?_, fun hl hd => ?_⟩ <;> rw [exec_enq hp hu hg hf]
  · rw [if_pos (by simpa [State.dqHasRoom] using hl)]
    rfl
  · rw [if_neg (by simp [State.dqHasRoom, hl]), if_pos (by simp [State.dqFull, hl, hd])]
    rfl
  · rw [if_neg (by simp [State.dqHasRoom, hl]), if_neg (by simp [hd])]

/-- Settles O35: GSTAT by the count. -/
theorem gstatCountsTheFrame : Obligations.GstatCountsTheFrame := by
  intro u s hp hu hg
  refine ⟨fun hw => ?_, fun hw => ?_⟩
  · rw [exec_gstat hp hu hg, if_pos (by simpa [State.fpsDue] using hw)]
    rfl
  · rw [exec_gstat hp hu hg, if_neg (by simpa [State.fpsDue] using hw)]

/-! ## DEQ and CANCEL (41_grabber_relay.md R174, R175) -/

theorem exec_deq {s : State} (hp : s.inp.port = .wtr) :
    exec (.deq 0) s =
      match s.dq with
      | [] => .next (s.wait (.deq 0))
      | f :: fs => .next (({ s with dq := fs } : State).respond (.frame f)) :=
  (guarded_of_pass (by simp [State.checkPort, permitted, isWtr, hp, checkNoUnit])).trans <| by
    cases s.dq <;> rfl

theorem exec_cancel {s : State} (hp : s.inp.port = .mgr) :
    exec (.cancel 0) s = .next (({ s with cancel := true } : State).respond .none) :=
  guarded_of_pass (by simp [State.checkPort, permitted, isMgr, hp, checkNoUnit])

/-- Settles O36: DEQ by the queue, and CANCEL. -/
theorem deqAndCancel : Obligations.DeqAndCancel := by
  intro s
  refine ⟨fun hp f fs hq => ?_, fun hp hq => ?_, exec_cancel⟩ <;> rw [exec_deq hp, hq]

end Sys2Proof.Machine
end

section
/-! PROOFS. The sequencers: the run loop of a Grabber (41_grabber_relay.md R173) and the operations of a
TRKCYCLE with the responses it takes (43_tracker_consumer.md R231, R234). -/

namespace Sys2Proof.Machine

/-! ## The run loop of a Grabber -/

/-- With nothing outstanding a Grabber's own step is that of its run loop (41_grabber_relay.md R173). -/
theorem step_advance_grb {s : State} {i : Nat} {d : Draws} {es : List Event}
    (h : s.script = .advance (.grb i) d :: es) (hi : i < s.cfg.geo.n)
    (ho : s.outstandingOf (.grb i) = none) :
    step s = loopStep i { s with script := es, inp := ⟨.grb i, s.inp.payload, d⟩ } := by
  rw [step_advance h (decide_eq_true hi)]
  unfold advance
  rw [show State.outstanding { s with script := es, inp := ⟨.grb i, s.inp.payload, d⟩ } = none from ho]

/-- The run loop of Grabber `u` runs the operation of its phase, with its own number as UNIT. -/
theorem loopStep_eq (s : State) (u : UnitNo) :
    loopStep u.toNat s =
      match (s.grab u.toNat).gph with
      | .idle => .next s
      | .opn => exec (.gopen u) s
      | .chk => exec (.gchk u) s
      | .read => exec (.gread u) s
      | .wrap => exec (.gwrap u) s
      | .enq => exec (.enq u) s
      | .wr => exec (.wrslot u) s
      | .stat => exec (.gstat u) s
      | .pace => exec (.gpace u) s := by
  have hu : BitVec.ofNat 8 u.toNat = u := by simp
  unfold loopStep
  rw [hu]
  cases (s.grab u.toNat).gph <;> rfl

/-! ## The operations of a TRKCYCLE -/

/-- In a phase that has an operation the cycle issues it, with the detection as its operands, and takes the
response. -/
theorem cycleStep_of_cycleOp {s : State} {j : Nat} {i : Instr}
    (h : cycleOp (BitVec.ofNat 8 j) (s.tracker j).cyc.ph = some i) :
    cycleStep j s = takeResponse j (exec i { s with
      inp := { s.inp with payload := cyclePayload (s.tracker j).cyc.det s.inp.payload } }) := by
  simp only [cycleStep, h]

/-- A Tracker inside its cycle goes on with the operation outstanding and takes the response. -/
theorem resume_of_inCycle {s : State} {j : Nat} (o : Pending) (hp : s.inp.port = .trk j)
    (h : s.inCycle (.trk j) = true) :
    resume o s = takeResponse j (exec o.instr { s with inp := { s.inp with payload := o.payload } }) := by
  unfold resume
  rw [hp]
  exact if_pos h

/-! ## The response -/

/-- An operation that has not responded leaves its Tracker waiting. -/
theorem takeResponse_of_outstanding {q : State} {j : Nat} (h : q.outstandingOf (.trk j) ≠ none) :
    takeResponse j (.next q) = .next q := by
  obtain ⟨o, ho⟩ := Option.ne_none_iff_exists'.mp h
  simp only [takeResponse, ho]

/-- The response a Tracker takes is the last one given. -/
theorem takeResponse_of_last {q : State} {j : Nat} {l : List (Port × Response)} {p : Port}
    {e : Response} (ho : q.outstandingOf (.trk j) = none) (hr : q.resp = l ++ [(p, e)]) :
    takeResponse j (.next q) =
      .next (q.modTracker j (Tracker.took q.cfg q.inp.draws.imgInLock e)) := by
  have hl : q.resp.getLast? = some (p, e) := by simp [hr]
  simp only [takeResponse, ho, hl]
  rfl

section
variable {c : Cycle} (b : Bool)

theorem cycleAfter_rest (h : c.ph = .rest) (v : View) :
    cycleAfter b (.ok (.view v)) c = ⟨if b then .lock else .image, v, b, [], none, none⟩ := by
  simp [cycleAfter, h]

theorem cycleAfter_lock (h : c.ph = .lock) (r : Result) :
    cycleAfter b (.ok r) c = { c with ph := if c.inLock then .image else .decode } := by
  simp [cycleAfter, h]

theorem cycleAfter_decode (h : c.ph = .decode) (t i : U64) :
    cycleAfter b (.ok (.pair t i)) c = { c with ph := .unlock, traced := some (t, i) } := by
  simp [cycleAfter, h]

theorem cycleAfter_unlock (h : c.ph = .unlock) (r : Result) :
    cycleAfter b (.ok r) c = { c with ph := .detect } := by
  simp [cycleAfter, h]

theorem cycleAfter_correct (h : c.ph = .correct) (e : Response) :
    cycleAfter b e c = { c with ph := .predict } := by
  simp [cycleAfter, h]

theorem cycleAfter_predict (h : c.ph = .predict) (r : Result) :
    cycleAfter b (.ok r) c = { c with ph := .output } := by
  simp [cycleAfter, h]

/-- A fault ends the cycle, but KFCORR's (log entry 15). -/
theorem cycleAfter_fault (h : c.ph ≠ .correct) (code : BitVec 8) (info : Info) :
    cycleAfter b (.fault code info) c = Cycle.rest := by
  cases hp : c.ph <;> simp_all [cycleAfter]

end

/-- A position that KFPRED answered is pushed on the filtered trail (43_tracker_consumer.md R231, step
7). -/
theorem trailAfter_predict (n : Nat) (tr : List (Kf × Kf)) (x y : Kf) :
    trailAfter n .predict (.ok (.position x y)) tr =
      if n < tr.length + 1 then (tr ++ [(x, y)]).tail else tr ++ [(x, y)] :=
  pushTrail_eq n tr (x, y)

/-- No other response is recorded. -/
theorem trailAfter_of_other {n : Nat} {ph : TrkPhase} {e : Response} {tr : List (Kf × Kf)}
    (h : ph ≠ .predict ∨ ∀ x y, e ≠ .ok (.position x y)) : trailAfter n ph e tr = tr := by
  unfold trailAfter
  split
  · rename_i x y
    exact absurd h (by simp)
  · rfl

/-- Settles O18: the Grabber's operation by its phase; the Tracker's, issued or gone on with, and the
response it takes. -/
theorem sequencerRunsThePhasesOperation : Obligations.SequencerRunsThePhasesOperation := by
  refine ⟨fun s u d es h hu ho => ?_, fun s j d es ph i h hj ho hph hi => ?_,
    fun s j o d es h hj ho hc => ?_, fun q j => takeResponse_of_outstanding,
    fun q j l p e hj ho hr => ?_⟩
  · exact (step_advance_grb h hu ho).trans (loopStep_eq _ u)
  · have hop : cycleOp (BitVec.ofNat 8 j) (s.tracker j).cyc.ph = some i := by
      simp only [List.mem_cons, Prod.mk.injEq, List.not_mem_nil, or_false] at hi
      rw [hph]
      rcases hi with ⟨rfl, rfl⟩ | ⟨rfl, rfl⟩ | ⟨rfl, rfl⟩ | ⟨rfl, rfl⟩ | ⟨rfl, rfl⟩ | ⟨rfl, rfl⟩ <;> rfl
    exact (step_advance_trk h hj ho).trans (cycleStep_of_cycleOp hop)
  · rw [step_advance h (decide_eq_true hj)]
    unfold advance
    rw [show State.outstanding { s with script := es, inp := ⟨.trk j, s.inp.payload, d⟩ } = some o
      from ho]
    exact resume_of_inCycle o rfl hc
  · intro k c inLock
    refine ⟨cycleAfter inLock e c, trailAfter q.cfg.trailN c.ph e k.filtTrail, ?_, ?_,
      trailAfter_of_other, ?_, ?_, ?_, ?_, fun h => cycleAfter_correct _ h e, ?_, ?_⟩
    · rw [takeResponse_of_last ho hr, modTracker_eq_set hj]
      rfl
    · rintro x y h rfl
      rw [h, trailAfter_predict]
    · rintro v h rfl
      exact cycleAfter_rest _ h v
    · rintro r h rfl
      exact cycleAfter_lock _ h r
    · rintro t i h rfl
      exact cycleAfter_decode _ h t i
    · rintro r h rfl
      exact cycleAfter_unlock _ h r
    · rintro r h rfl
      exact cycleAfter_predict _ h r
    · rintro code info h rfl
      exact cycleAfter_fault _ h code info

end Sys2Proof.Machine
end

section
/-! PROOFS. An ENQ that waits ends in every weakly fair run (41_grabber_relay.md R169; 20_memory.md R78):
its Grabber is enabled as long as it waits, and the only step it can take is to end. -/

namespace Sys2Proof.Machine

/-! ## Whose operation a step moves -/

/-- The image reads of a Tracker are on no port. -/
theorem readImage_outstandingOf {j : Nat} {ns : List Nat} {r t : State}
    (h : readImage j ns r = .next t) (q : Port) : t.outstandingOf q = r.outstandingOf q :=
  readImage_next (Inv := fun x => x.outstandingOf q = r.outstandingOf q) (fun _ _ _ => id) (fun _ => id)
    rfl h

/-- An operation or a Tracker's own step moves no other port's operation. -/
theorem StepKind.outstandingOf_of_ne {r t : State} (k : StepKind r t) {q : Port} (hq : q ≠ r.inp.port) :
    t.outstandingOf q = r.outstandingOf q := by
  cases k with
  | idle h => rw [h]
  | raised c i h => rw [h, outstandingOf_raise, if_neg hq]
  | viewByte v o b hv h => rw [h, outstandingOf_respond, if_neg hq]
  | op i hi h => exact (oneResponsePerOperation i r t h).2 q hq
  | cycleOp j i x hp ho hx h =>
    have hxq := (oneResponsePerOperation i r x hx).2 q hq
    rcases h with rfl | ⟨e, -, -, rfl⟩ <;> exact hxq
  | image j hp ho hi h => exact readImage_outstandingOf h q
  | detect j hp ho hi h => rw [h]; rfl
  | output j hp ho hi h => rw [h]; rfl

/-- A step moves the operation of the event's port only (30_encoding.md R106). -/
theorem step_outstandingOf_of_ne {s t : State} (h : step s = .next t) {q : Port} (hq : q ≠ s.nextPort) :
    t.outstandingOf q = s.outstandingOf q := by
  obtain ⟨r, ⟨_, _, _, rfl⟩, rfl | ⟨hp, k⟩⟩ := step_next h
  · rfl
  · exact k.outstandingOf_of_ne (hp ▸ hq)

/-- An event on a Grabber's port that has an operation outstanding does nothing, or goes on with that
operation (30_encoding.md R106). -/
theorem step_given_of_busy {s t : State} {e : Event} {i : Nat} {o : Pending}
    (ho : s.outstandingOf (.grb i) = some o) (he : eventPort e = .grb i)
    (h : step (s.given e) = .next t) :
    idleBetween s t ∨
      ∃ d, exec o.instr { s with script := [], inp := ⟨.grb i, o.payload, d⟩ } = .next t := by
  obtain ⟨issued, goesOn⟩ := busyPortGoesOnWithItsOperation (s.given e) (.grb i) o [] ho
  cases e with
  | issue p cw pl d =>
    obtain rfl : p = .grb i := he
    obtain rfl := Host.Outcome.next.inj ((issued cw pl d rfl).symm.trans h)
    exact .inl (idleBetween_event s [] s.clock s.inp)
  | advance p d =>
    obtain rfl : p = .grb i := he
    by_cases hp : portExists s.cfg (.grb i) = true
    · exact .inr ⟨d, (goesOn d rfl hp rfl).symm.trans h⟩
    · rw [step_given] at h
      obtain rfl := Host.Outcome.next.inj ((if_neg hp).symm.trans h)
      exact .inl (idleBetween_event s [] s.clock s.inp)
  | viewRead p v x =>
    obtain rfl : p = .grb i := he
    have hb : State.portIdle { s with script := [] } (.grb i) = false := by
      simp [State.portIdle, show State.outstandingOf { s with script := [] } (.grb i) = some o from ho]
    rw [step_given] at h
    simp only [runEvent, hb, Bool.false_and] at h
    obtain rfl := Host.Outcome.next.inj h
    exact .inl (idleBetween_event s [] s.clock s.inp)

/-! ## An ENQ outstanding -/

/-- Grabber `u` has an ENQ outstanding, with these operands. -/
def State.enqWaits (s : State) (u : UnitNo) (pl : Payload) (got : List (Nat × Byte)) : Prop :=
  s.outstandingOf (.grb u.toNat) = some ⟨.enq u, pl, got⟩

/-- An ENQ that goes on ends, or waits (41_grabber_relay.md R168, R169). -/
theorem exec_enq_ends_or_waits {u : UnitNo} {s t : State} (h : exec (.enq u) s = .next t) :
    t.outstandingOf s.inp.port = none ∨ t = s.wait (.enq u) := by
  rcases execEnq_next h with ⟨c, info, rfl⟩ | ⟨-, -, -, f, -, ⟨-, rfl⟩ | ⟨-, rfl⟩ | rfl⟩
  · exact .inl (by rw [outstandingOf_raise, if_pos rfl])
  · exact .inl (by rw [outstandingOf_respond]; exact if_pos rfl)
  · exact .inl (by rw [outstandingOf_respond]; exact if_pos rfl)
  · exact .inr rfl

section
variable {s t : State} {u : UnitNo} {e : Event} {pl : Payload} {got : List (Nat × Byte)}

/-- An ENQ that a step does not end goes on waiting. Its Grabber took a step at most where the operation
listed read bytes, which an ENQ never does; it lists none from then on. -/
theorem State.enqWaits.step (hw : s.enqWaits u pl got) (h : step (s.given e) = .next t)
    (hn : t.outstandingOf (.grb u.toNat) ≠ none) :
    t.enqWaits u pl got ∧ ¬ takesStep (.grb u.toNat) e s t ∨ t.enqWaits u pl [] ∧ got ≠ [] := by
  by_cases he : eventPort e = .grb u.toNat
  · rcases step_given_of_busy hw he h with hi | ⟨d, hx⟩
    · exact .inl ⟨(idleBetween_outstanding hi _).trans hw, fun ht => ht.2 hi⟩
    · rcases exec_enq_ends_or_waits hx with hx | rfl
      · exact absurd hx hn
      · have hw' : State.enqWaits (State.wait { s with
            script := [], inp := ⟨.grb u.toNat, pl, d⟩ } (.enq u)) u pl [] :=
          (outstandingOf_keepOpen _ _ _ _ _).trans (if_pos rfl)
        by_cases hg : got = []
        · subst hg
          exact .inl ⟨hw', fun ht => ht.2 (idleBetween_keepOpen hw)⟩
        · exact .inr ⟨hw', hg⟩
  · have hq : Port.grb u.toNat ≠ (s.given e).nextPort := by
      rw [nextPort_eq]
      exact Ne.symm he
    exact .inl ⟨(step_outstandingOf_of_ne h hq).trans hw, fun ht => he ht.1⟩

/-- A Grabber in phase `Enq` whose ENQ may drop does not wait: the queue has room or is full. -/
theorem exec_enq_ends {f : Frame} (hp : s.inp.port = .grb u.toNat) (hu : u.toNat < s.cfg.geo.n)
    (hg : (s.grab u.toNat).gph = .enq) (hf : (s.grab u.toNat).frm = some f)
    (hq : s.dq.length ≤ s.cfg.qcap) (hd : s.inp.draws.drop = true) :
    ∃ t, exec (.enq u) s = .next t ∧ t.outstandingOf (.grb u.toNat) = none := by
  obtain ⟨deliver, drop, -⟩ := enqDeliversDropsOrWaits u s f hp hu hg hf
  rcases hq.lt_or_eq with hl | hl
  · exact ⟨_, deliver hl, (outstandingOf_respond _ _ _).trans (if_pos hp.symm)⟩
  · exact ⟨_, drop hl hd, (outstandingOf_respond _ _ _).trans (if_pos hp.symm)⟩

/-- Draws with which a full queue drops the frame, and no answer of the image source. -/
def dropDraws : Draws := { (default : Draws) with read := .noAnswer, drop := true }

/-- In a sound state a Grabber with an ENQ outstanding is enabled: with the draw that drops the ENQ ends,
in phase `Enq` with an outcome, in any other with a fault. -/
theorem State.enqWaits.enabled (hw : s.enqWaits u pl got) (hs : s.Sound)
    (hq : s.dq.length ≤ s.cfg.qcap) (hu : u.toNat < s.cfg.geo.n) : s.enabled (.grb u.toNat) := by
  have busy : s.underWay (.grb u.toNat) = true := by
    simp [State.underWay, show s.outstandingOf (.grb u.toNat) = _ from hw]
  let r : State := { s with script := [], inp := ⟨.grb u.toNat, pl, dropDraws⟩ }
  have hstep : Machine.step (s.given (.advance (.grb u.toNat) dropDraws)) = exec (.enq u) r :=
    (busyPortGoesOnWithItsOperation (s.given _) _ _ [] hw).2 dropDraws rfl (decide_eq_true hu) rfl
  have ends : ∃ t, exec (.enq u) r = .next t ∧ t.outstandingOf (.grb u.toNat) = none := by
    by_cases hg : (s.grab u.toNat).gph = .enq
    · obtain ⟨f, hf⟩ := Option.isSome_iff_exists.mp ((hs.regsHeld u.toNat).2 (.inl hg))
      exact exec_enq_ends (s := r) rfl hu hg hf hq rfl
    · exact ⟨_, grabberOp_badState (s := r) rfl rfl hu hg,
        (outstandingOf_raise _ _ _ _).trans (if_pos rfl)⟩
  obtain ⟨t, ht, hn⟩ := ends
  refine ⟨busy, dropDraws, rfl, t, hstep.trans ht, fun hi => ?_⟩
  have hsame := idleBetween_outstanding hi (.grb u.toNat)
  rw [hn, show s.outstandingOf (.grb u.toNat) = _ from hw] at hsame
  cases hsame

end

/-! ## Along a run -/

/-- The configuration never changes along a run. -/
theorem Run.cfg_eq (r : Run) {n m : Nat} (h : n ≤ m) : (r.state m).cfg = (r.state n).cfg :=
  r.keeps (Inv := fun s => s.cfg = (r.state n).cfg)
    (fun _ _ hs ht => (sticky_closed.step ht).cfg.trans hs) (fun _ _ => id) rfl m h

section
variable {r : Run} {u : UnitNo} {n : Nat} {pl : Payload}

/-- An ENQ that never ends waits for ever. -/
theorem Run.enqWaits_of_never_ends {got : List (Nat × Byte)}
    (never : ∀ m, n ≤ m → (r.state m).outstandingOf (.grb u.toNat) ≠ none)
    (hn : (r.state n).enqWaits u pl got) :
    ∀ m, n ≤ m → ∃ g, (r.state m).enqWaits u pl g ∧ (got = [] → g = []) := by
  intro m hm
  induction m, hm using Nat.le_induction with
  | base => exact ⟨got, hn, id⟩
  | succ k hk ih =>
    obtain ⟨g, hw, hg⟩ := ih
    rcases hw.step (r.steps k) (never _ (Nat.le_succ_of_le hk)) with ⟨hw, -⟩ | ⟨hw, -⟩
    · exact ⟨g, hw, hg⟩
    · exact ⟨[], hw, fun _ => rfl⟩

/-- The Grabber of an ENQ that never ends takes a step at some time, after which no byte is listed. -/
theorem Run.enqWaits_takesStep {got : List (Nat × Byte)}
    (sound : ∀ m, n ≤ m → (r.state m).Sound ∧ (r.state m).dq.length ≤ (r.state m).cfg.qcap)
    (hu : u.toNat < (r.state n).cfg.geo.n)
    (never : ∀ m, n ≤ m → (r.state m).outstandingOf (.grb u.toNat) ≠ none)
    (hn : (r.state n).enqWaits u pl got) :
    got ≠ [] ∧ ∃ m, n ≤ m ∧ (r.state m).enqWaits u pl [] := by
  have waits := Run.enqWaits_of_never_ends never hn
  have enabled : ∀ m, n ≤ m → (r.state m).enabled (.grb u.toNat) := fun m hm => by
    obtain ⟨g, hw, -⟩ := waits m hm
    obtain ⟨hs, hq⟩ := sound m hm
    exact hw.enabled hs hq (r.cfg_eq hm ▸ hu)
  obtain ⟨m, hm, ht⟩ := r.fair (.grb u.toNat) n enabled
  obtain ⟨g, hw, hg⟩ := waits m hm
  rcases hw.step (r.steps m) (never _ (Nat.le_succ_of_le hm)) with ⟨-, hno⟩ | ⟨hw, hne⟩
  · exact absurd ht hno
  · exact ⟨fun h => hne (hg h), m + 1, Nat.le_succ_of_le hm, hw⟩

end

/-- Settles O57: an ENQ that never ended would leave its Grabber enabled for ever, so that by fairness it
would take a step, and after that another; but the second could only be the end. -/
theorem enqAlwaysEnds : Obligations.EnqAlwaysEnds := by
  intro r u n o sound hu ho hi
  by_contra hc
  have never : ∀ m, n ≤ m → (r.state m).outstandingOf (.grb u.toNat) ≠ none :=
    fun m hm hn => hc ⟨m, hm, hn⟩
  obtain ⟨i, pl, got⟩ := o
  obtain rfl : i = .enq u := hi
  obtain ⟨-, m, hm, hw⟩ := Run.enqWaits_takesStep sound hu never ho
  obtain ⟨hne, -⟩ := Run.enqWaits_takesStep (fun k hk => sound k (hm.trans hk)) (r.cfg_eq hm ▸ hu)
    (fun k hk => never k (hm.trans hk)) hw
  exact hne rfl

end Sys2Proof.Machine
end

section
/-! PROOFS. The filter unit (42_kalman.md R202 to R209): what each operation does once its checks pass, and
what its updates are over the rationals. -/

namespace Sys2Proof.Machine

/-! ## The operations past their checks -/

section
variable {u : UnitNo} {s : State}

/-- A filter's operation, on a port that may issue it and owns the filter, is its body. -/
theorem filterOp_pass {i : Instr} {body : Out} (hi : permitted i s.inp.port = true)
    (ho : ownsUnit u s.inp.port = true) (hu : u.toNat < s.cfg.t) :
    s.guarded (s.filterChecks i u) body = body :=
  guarded_of_pass (filterChecks_pass.mpr ⟨hi, hu, ho⟩)

/-- A filter's operation on the filter's own port is its body. -/
theorem filterOp_pass_trk {i : Instr} {body : Out} (hi : permitted i (.trk u.toNat) = true)
    (hp : s.inp.port = .trk u.toNat) (hu : u.toNat < s.cfg.t) :
    s.guarded (s.filterChecks i u) body = body :=
  filterOp_pass (hp ▸ hi) (hp ▸ decide_eq_true rfl) hu

theorem exec_kfinit (hp : s.inp.port = .mgr ∨ s.inp.port = .trk u.toNat) (hu : u.toNat < s.cfg.t) :
    exec (.kfinit u) s =
      .next ((s.setFilter u.toNat ⟨s.cfg.kfX0, s.cfg.kfP0⟩).respond .none) := by
  rcases hp with hp | hp
  · exact filterOp_pass (hp ▸ rfl) (hp ▸ rfl) hu
  · exact filterOp_pass_trk rfl hp hu

theorem exec_kfpred (hp : s.inp.port = .trk u.toNat) (hu : u.toNat < s.cfg.t) :
    exec (.kfpred u) s =
      let k := predictFilter s.cfg (s.filter u.toNat)
      .next ((s.setFilter u.toNat k).respond (.position k.x.e0 k.x.e1)) :=
  filterOp_pass_trk rfl hp hu

theorem exec_kfcorr (hp : s.inp.port = .trk u.toNat) (hu : u.toNat < s.cfg.t) :
    exec (.kfcorr u) s =
      if singular s.cfg (s.filter u.toNat) then .next (s.raise .kfSingular (.number u.toNat))
      else
        .next ((s.setFilter u.toNat (correctFilter s.cfg (s.filter u.toNat) s.inp.payload.zx
          s.inp.payload.zy)).respond .none) :=
  filterOp_pass_trk rfl hp hu

end

/-- Settles O37: a KFINIT of the Manager or of the filter's Tracker passes its checks. -/
theorem kfinitLoadsTheStart : Obligations.KfinitLoadsTheStart :=
  fun _ _ hp hu => exec_kfinit hp hu

/-! ## The updates over the rationals -/

section
variable {c : Cfg} (h : c.kfSys = .rational) (k : Kfu)
include h

/-- `x' = F x` (42_kalman.md R206). -/
theorem vec4_predictFilter : vec4 (predictFilter c k).x = (mat44 c.kfF).mulVec (vec4 k.x) := by
  rw [predictFilter, h, vec4_mulVec44]

/-- `P' = F P F^T + Q` (42_kalman.md R206). -/
theorem mat44_predictFilter :
    mat44 (predictFilter c k).p =
      mat44 c.kfF * mat44 k.p * (mat44 c.kfF).transpose + mat44 c.kfQ := by
  rw [predictFilter, h, mat44_add, mat44_mul, mat44_mul, mat44_transpose]

/-- The determinant the unit tests is that of the matrix `S`. -/
theorem singular_iff : singular c k = true ↔ (innovationMatrix c k).det = 0 := by
  rw [← mat22_innovationCov h, ← det22_rational, singular, h]
  exact decide_eq_true_iff

/-- The gain solves `K S = P Hm^T` where `S` has an inverse (42_kalman.md R207). -/
theorem kalmanGain_mul_innovationMatrix (hd : (innovationMatrix c k).det ≠ 0) :
    mat42 (kalmanGain c k) * innovationMatrix c k = mat44 k.p * (mat24 c.kfH).transpose := by
  rw [← mat22_innovationCov h] at hd ⊢
  rw [kalmanGain, h, mat42_mul22, Matrix.mul_assoc, inverse22_rational _ hd, Matrix.mul_one, mat42_mul,
    mat42_transpose]

/-- `x' = x + K (z - Hm x)` (42_kalman.md R207). -/
theorem vec4_correctFilter (zx zy : Kf) :
    vec4 (correctFilter c k zx zy).x =
      vec4 k.x + (mat42 (kalmanGain c k)).mulVec (![zx, zy] - (mat24 c.kfH).mulVec (vec4 k.x)) := by
  rw [correctFilter, h, vec4_add, vec4_mulVec42, vec2_sub, vec2_mulVec24, vec2]

/-- `P' = (I4 - K Hm) P` (42_kalman.md R207). -/
theorem mat44_correctFilter (zx zy : Kf) :
    mat44 (correctFilter c k zx zy).p =
      (1 - mat42 (kalmanGain c k) * mat24 c.kfH) * mat44 k.p := by
  rw [correctFilter, h, mat44_mul, mat44_sub, mat44_identity, mat44_mul24]

end

/-- Settles O38: KFPRED has no check of values, and each matrix operation of the unit is Mathlib's. -/
theorem kfpredIsTheTimeUpdate : Obligations.KfpredIsTheTimeUpdate :=
  fun _ _ hp hu =>
    ⟨exec_kfpred hp hu, fun hr => ⟨vec4_predictFilter hr _, mat44_predictFilter hr _⟩⟩

/-- Settles O39: KFCORR by the determinant of `S`, with the unit's own gain as `K`. -/
theorem kfcorrIsTheMeasurementUpdate : Obligations.KfcorrIsTheMeasurementUpdate := by
  intro u s hp hu
  have raises : singular s.cfg (s.filter u.toNat) = true →
      exec (.kfcorr u) s = .next (s.raise .kfSingular (.number u.toNat)) := fun hs => by
    rw [exec_kfcorr hp hu, if_pos hs]
  have corrects : singular s.cfg (s.filter u.toNat) = false →
      exec (.kfcorr u) s = .next ((s.setFilter u.toNat (correctFilter s.cfg (s.filter u.toNat)
        s.inp.payload.zx s.inp.payload.zy)).respond .none) := fun hs => by
    rw [exec_kfcorr hp hu, if_neg (by simp [hs])]
  refine ⟨raises, corrects, fun hr => ⟨fun hd => raises ((singular_iff hr _).mpr hd), fun hd => ?_⟩⟩
  have hs : singular s.cfg (s.filter u.toNat) = false :=
    Bool.eq_false_iff.mpr fun hs => hd ((singular_iff hr _).mp hs)
  exact ⟨_, mat42 (kalmanGain s.cfg (s.filter u.toNat)), corrects hs,
    kalmanGain_mul_innovationMatrix hr _ hd, vec4_correctFilter hr _ _ _, mat44_correctFilter hr _ _ _⟩

/-! ## Extrapolation along a line (42_kalman.md R209) -/

/-- The point a constant velocity reaches after a time, and that velocity. -/
def V4.along (v : V4 Kf) (time : Rat) : V4 Kf := ⟨v.e0 + time * v.e2, v.e1 + time * v.e3, v.e2, v.e3⟩

theorem V4.along_zero (v : V4 Kf) : V4.along v 0 = v := by
  simp [V4.along]

theorem V4.along_along (v : V4 Kf) (a b : Rat) : V4.along (V4.along v a) b = V4.along v (a + b) := by
  simp only [V4.along, V4.mk.injEq, and_true]
  constructor <;> ring

/-- One time update goes one step of `dt` along the line. -/
theorem predictFilter_along {c : Cfg} {dt : Rat} (h : constantVelocity c dt) (k : Kfu) :
    (predictFilter c k).x = V4.along k.x dt := by
  obtain ⟨hr, hF⟩ := h
  simp [predictFilter, hr, hF, mulVec44, V4.map, dot4, kfAdd, kfMul, V4.along]

/-- A KFPRED of the filter's Tracker goes one step of `dt` along the line, and another may follow. -/
theorem exec_kfpred_along {u : UnitNo} {s : State} {dt : Rat} (hp : s.inp.port = .trk u.toNat)
    (hu : u.toNat < s.cfg.t) (hl : u.toNat < s.kfu.length) (hv : constantVelocity s.cfg dt) :
    ∃ r, exec (.kfpred u) s = .next r ∧ r.inp = s.inp ∧ r.cfg = s.cfg ∧
      r.kfu.length = s.kfu.length ∧ (r.filter u.toNat).x = V4.along (s.filter u.toNat).x dt := by
  refine ⟨_, exec_kfpred hp hu, rfl, rfl, List.length_set, ?_⟩
  have written := (filter_setFilter s u.toNat u.toNat (predictFilter s.cfg (s.filter u.toNat))).trans
    (if_pos ⟨rfl, hl⟩)
  exact (congrArg Kfu.x written).trans (predictFilter_along hv _)

/-- `n` KFPREDs go `n` steps of `dt` along the line. -/
theorem repeatExec_kfpred_along {u : UnitNo} {dt : Rat} (n : Nat) {s : State}
    (hp : s.inp.port = .trk u.toNat) (hu : u.toNat < s.cfg.t) (hl : u.toNat < s.kfu.length)
    (hv : constantVelocity s.cfg dt) :
    ∃ t, repeatExec (.kfpred u) n s = .next t ∧
      (t.filter u.toNat).x = V4.along (s.filter u.toNat).x (n * dt) := by
  induction n generalizing s with
  | zero => exact ⟨s, rfl, by rw [Nat.cast_zero, zero_mul, V4.along_zero]⟩
  | succ n ih =>
    obtain ⟨r, he, hinp, hcfg, hlen, hr⟩ := exec_kfpred_along hp hu hl hv
    obtain ⟨t, ht, hx⟩ := ih (hinp ▸ hp) (hcfg ▸ hu) (hlen ▸ hl) (hcfg ▸ hv)
    have htime : dt + n * dt = (n + 1 : Nat) * dt := by push_cast; ring
    exact ⟨t, by rw [repeatExec, he]; exact ht, by rw [hx, hr, V4.along_along, htime]⟩

/-- Settles O40: the line is followed step by step, by induction on the number of KFPREDs. -/
theorem predictExtrapolatesAlongALine : Obligations.PredictExtrapolatesAlongALine :=
  fun _ _ n _ hp hu hl hv => repeatExec_kfpred_along n hp hu hl hv

end Sys2Proof.Machine
end

section
/-! PROOFS. What a step can do to a Tracker's state (43_tracker_consumer.md R231, R234, R236 to R239): one
relation between the Tracker before and after, and what it says of each register. -/

namespace Sys2Proof.Machine

/-! ## The moves of a Tracker -/

/-- A run of image reads of one step: bytes are read, and the cycle may go on once all are read
(43_tracker_consumer.md R231, step 1b). -/
def Tracker.ImageRead (k k' : Tracker) : Prop :=
  ∃ ph got, (ph = .image ∨ ph = if k.cyc.inLock then .decode else .lock) ∧
    k' = { k with cyc := { k.cyc with ph := ph, got := got } }

/-- What one step can make of a Tracker in state `k`, under configuration `c` and geometry `g`. -/
inductive Tracker.Move (c : Cfg) (g : Geo) (k : Tracker) : Tracker → Prop
  | stays : Move c g k k
  /-- the response of an operation of the cycle is taken -/
  | took (inLock : Bool) (e : Response) : Move c g k (k.took c inLock e)
  | image (ph : TrkPhase) (got : List (Nat × Byte)) (hi : k.cyc.ph = .image)
      (hp : ph = .image ∨ ph = if k.cyc.inLock then .decode else .lock) :
      Move c g k { k with cyc := { k.cyc with ph := ph, got := got } }
  | detect (d : Draws) (hi : k.cyc.ph = .detect) : Move c g k (detectStep c g d k)
  | output (n : Option Nat) (led : Bool) (hi : k.cyc.ph = .output) :
      Move c g k { k with lastNode := n, led := led, cyc := Cycle.rest }

/-- From `s` to `t` Tracker `j` has made a move and no other has; an output is given in the output step
only. -/
structure TrackerStep (j : Nat) (s t : State) : Prop where
  own : (s.tracker j).Move s.cfg s.geo (t.tracker j)
  others : ∀ i, i ≠ j → t.tracker i = s.tracker i
  tout : t.tout = s.tout ∨
    (s.tracker j).cyc.ph = .output ∧ ∃ o, o.trk = j ∧ t.tout = s.tout ++ [o]

/-! ## Every step is a move -/

theorem tracker_eq_of_trk_eq {s t : State} (h : t.trk = s.trk) (i : Nat) : t.tracker i = s.tracker i := by
  unfold State.tracker
  rw [h]

theorem tracker_modTracker_of_ne (s : State) {i j : Nat} (f : Tracker → Tracker) (hi : i ≠ j) :
    (s.modTracker j f).tracker i = s.tracker i := by
  rw [tracker_modTracker, if_neg fun h => hi h.1]

/-- A property that the Tracker has before and after a change it has in the changed state, whether or not
there is such a Tracker. -/
theorem tracker_modTracker_self {P : Tracker → Prop} {s : State} {j : Nat} {f : Tracker → Tracker}
    (before : P (s.tracker j)) (after : P (f (s.tracker j))) : P ((s.modTracker j f).tracker j) := by
  rw [tracker_modTracker]
  split_ifs
  · exact after
  · exact before

/-- No operation touches a Tracker's state or the outputs. -/
theorem OpEffect.trackers_eq {i : Instr} {s r : State} (h : OpEffect i s r) :
    r.trk = s.trk ∧ r.tout = s.tout := by
  cases h <;> exact ⟨rfl, rfl⟩

theorem exec_trackers_eq {i : Instr} {s t : State} (h : exec i s = .next t) :
    t.trk = s.trk ∧ t.tout = s.tout := by
  rcases exec_effect h with ⟨r, he, ho⟩ | ⟨u, rfl, -, q, hq, he⟩
  · obtain ⟨pd, rs, fs, rfl⟩ := he.frame
    exact ho.trackers_eq
  · obtain ⟨r, ⟨m, lk, f, -, rfl⟩, ⟨c, info, rfl⟩ | rfl | ⟨pl, rfl⟩⟩ := he.frame hq
    all_goals exact ⟨rfl, rfl⟩

/-- A change of Tracker `j` after an operation, or after none. -/
theorem TrackerStep.modTracker {j : Nat} {s q : State} {f : Tracker → Tracker} (hq : q.trk = s.trk)
    (ho : q.tout = s.tout) (h : (s.tracker j).Move s.cfg s.geo (f (s.tracker j))) :
    TrackerStep j s (q.modTracker j f) where
  own := by
    have hj : q.tracker j = s.tracker j := tracker_eq_of_trk_eq hq j
    exact tracker_modTracker_self (hj ▸ .stays) (hj ▸ h)
  others i hi := (tracker_modTracker_of_ne q f hi).trans (tracker_eq_of_trk_eq hq i)
  tout := .inl ho

/-- The image reads of a step are one move of the Tracker (43_tracker_consumer.md R231, step 1b). -/
theorem readImage_trackerStep {j : Nat} {ns : List Nat} {s t : State}
    (hi : (s.tracker j).cyc.ph = .image) (h : readImage j ns s = .next t) : TrackerStep j s t := by
  obtain ⟨own, others, tout⟩ := readImage_next
    (Inv := fun q => (s.tracker j).ImageRead (q.tracker j) ∧
      (∀ i, i ≠ j → q.tracker i = s.tracker i) ∧ q.tout = s.tout)
    (fun q o b ⟨own, others, tout⟩ => by
      refine ⟨tracker_modTracker_self own ?_,
        fun i hne => (tracker_modTracker_of_ne q _ hne).trans (others i hne), tout⟩
      obtain ⟨ph, got, hph, hk⟩ := own
      exact ⟨ph, (o, b) :: got, hph, by rw [hk]⟩)
    (fun q ⟨own, others, tout⟩ => by
      refine ⟨tracker_modTracker_self own ?_,
        fun i hne => (tracker_modTracker_of_ne q _ hne).trans (others i hne), tout⟩
      obtain ⟨ph, got, -, hk⟩ := own
      exact ⟨_, got, .inr rfl, by rw [hk]⟩)
    ⟨⟨.image, (s.tracker j).cyc.got, .inl rfl, by rw [← hi]⟩, fun _ _ => rfl, rfl⟩ h
  obtain ⟨ph, got, hph, hk⟩ := own
  exact ⟨hk ▸ .image ph got hi hph, others, .inl tout⟩

/-- The output step is a move of the Tracker and gives one output, with its number
(43_tracker_consumer.md R238). -/
theorem outputStep_trackerStep {j : Nat} {s : State} (hi : (s.tracker j).cyc.ph = .output) :
    TrackerStep j s (s.outputStep j) :=
  { TrackerStep.modTracker (s := s) (q := s) rfl rfl (.output _ _ hi) with
    tout := .inr ⟨hi, _, rfl, rfl⟩ }

/-- A step of any kind leaves the Trackers alone, or is on a Tracker's port and a move of that Tracker. -/
theorem StepKind.trackers {r t : State} (k : StepKind r t) :
    (t.trk = r.trk ∧ t.tout = r.tout) ∨ ∃ j, r.inp.port = .trk j ∧ TrackerStep j r t := by
  cases k with
  | idle h => exact .inl (h ▸ ⟨rfl, rfl⟩)
  | raised c i h => exact .inl (h ▸ ⟨rfl, rfl⟩)
  | viewByte v o b hv h => exact .inl (h ▸ ⟨rfl, rfl⟩)
  | op i hi h => exact .inl (exec_trackers_eq h)
  | cycleOp j i q hp ho hq h =>
    obtain ⟨htrk, htout⟩ := exec_trackers_eq hq
    rcases h with rfl | ⟨e, -, -, rfl⟩
    · exact .inl ⟨htrk, htout⟩
    · exact .inr ⟨j, hp, .modTracker htrk htout ((sticky_closed.exec hq).cfg ▸ .took _ _)⟩
  | image j hp ho hi h => exact .inr ⟨j, hp, readImage_trackerStep hi h⟩
  | detect j hp ho hi h => exact .inr ⟨j, hp, h ▸ .modTracker rfl rfl (.detect _ hi)⟩
  | output j hp ho hi h => exact .inr ⟨j, hp, h ▸ outputStep_trackerStep hi⟩

theorem step_trackers {s t : State} (h : step s = .next t) :
    (t.trk = s.trk ∧ t.tout = s.tout) ∨
      ∃ j, eventPort s.takeEvent.1 = .trk j ∧ TrackerStep j s t := by
  obtain ⟨r, ⟨_, _, _, rfl⟩, rfl | ⟨hp, k⟩⟩ := step_next h
  · exact .inl ⟨rfl, rfl⟩
  · refine k.trackers.imp_right fun ⟨j, hj, ht⟩ => ⟨j, ?_, { ht with }⟩
    rw [← nextPort_eq, ← hp, hj]

/-! ## The Tracker's functions -/

/-- A push on a trail within its bound leaves it within its bound (43_tracker_consumer.md R234). -/
theorem pushTrail_length_le {α : Type} {n : Nat} {tr : List α} (e : α) (h : tr.length ≤ n) :
    (pushTrail n tr e).length ≤ n := by
  rw [pushTrail_eq]
  split_ifs with hn
  · simpa using h
  · simpa using hn

theorem trailAfter_length_le {n : Nat} {tr : List (Kf × Kf)} (ph : TrkPhase) (e : Response)
    (h : tr.length ≤ n) : (trailAfter n ph e tr).length ≤ n := by
  unfold trailAfter
  split
  · exact pushTrail_length_le _ h
  · exact h

/-- Only a position that KFPRED answered is recorded (43_tracker_consumer.md R231, step 7). -/
theorem trailAfter_ne {n : Nat} {ph : TrkPhase} {e : Response} {tr : List (Kf × Kf)}
    (h : trailAfter n ph e tr ≠ tr) : ph = .predict ∧ ∃ x y, e = .ok (.position x y) := by
  have := mt trailAfter_of_other h
  push Not at this
  exact this

/-- The mask is built on an image whose intensities do not sum to zero (43_tracker_consumer.md R239). -/
theorem maskAfter_ne {mask : Option Image} {sum : Nat} {drawn : Image}
    (h : maskAfter mask sum drawn ≠ mask) : sum ≠ 0 := by
  rintro rfl
  cases mask <;> exact h rfl

/-! ## The order of a cycle -/

/-- Which step of a cycle can follow which (43_tracker_consumer.md R231); from any the cycle may end (log
entry 15). -/
inductive Cycle.Follows (c c' : Cycle) : Prop
  | same (h : c'.ph = c.ph)
  | rest (h : c'.ph = .rest)
  | image (h : c'.ph = .image) (hc : c.ph = .rest ∨ c.ph = .lock)
  | lock (h : c'.ph = .lock) (hc : c.ph = .rest ∨ c.ph = .image)
  | decode (h : c'.ph = .decode) (hc : c.ph = .lock ∨ c.ph = .image ∧ c.inLock = true)
  | unlock (h : c'.ph = .unlock) (hc : c.ph = .decode)
  | detect (h : c'.ph = .detect) (hc : c.ph = .unlock)
  | correct (h : c'.ph = .correct) (hc : c.ph = .detect ∧ c'.det ≠ none)
  | predict (h : c'.ph = .predict) (hc : c.ph = .correct ∨ c.ph = .detect ∧ c'.det = none)
  | output (h : c'.ph = .output) (hc : c.ph = .predict)

/-- A response leads to the next operation of the cycle, or ends it. -/
theorem cycleAfter_follows (inLock : Bool) (e : Response) (c : Cycle) :
    c.Follows (cycleAfter inLock e c) := by
  unfold cycleAfter
  split
  case h_1 hc =>
    cases inLock
    · exact .image rfl (.inl hc)
    · exact .lock rfl (.inl hc)
  case h_2 hc =>
    cases hl : c.inLock
    · exact .decode rfl (.inl hc)
    · exact .image rfl (.inr hc)
  case h_3 hc => exact .unlock rfl hc
  case h_4 hc => exact .detect rfl hc
  case h_5 hc => exact .predict rfl (.inl hc)
  case h_6 hc => exact .output rfl hc
  case h_7 => exact .rest rfl

/-- After the detection step KFCORR comes with a detection only, else KFPRED at once. -/
theorem detectStep_follows {c : Cfg} {g : Geo} {d : Draws} {k : Tracker} (hi : k.cyc.ph = .detect) :
    k.cyc.Follows (detectStep c g d k).cyc := by
  cases hd : (detectStep c g d k).cyc.det with
  | none =>
    have hn : (detectStep c g d k).cyc.det.isSome = false := by rw [hd]; rfl
    exact .predict (if_neg (Bool.eq_false_iff.mp hn)) (.inr ⟨hi, hd⟩)
  | some x =>
    have hs : (detectStep c g d k).cyc.det.isSome = true := by rw [hd]; rfl
    exact .correct (if_pos hs) ⟨hi, by simp [hd]⟩

/-! ## What a move changes -/

section
variable {c : Cfg} {g : Geo} {k k' : Tracker}

/-- A mask that is there stays (43_tracker_consumer.md R239). -/
theorem Tracker.Move.mask_kept (h : k.Move c g k') {m : Image} (hm : k.mask = some m) :
    k'.mask = some m := by
  cases h with
  | detect d _ => simp only [detectStep, hm, maskAfter]
  | stays | took | image | output => exact hm

theorem Tracker.Move.mask_ne (h : k.Move c g k') (hm : k'.mask ≠ k.mask) :
    k.cyc.ph = .detect ∧ intensitySum g (cycleImage g k.cyc.got) ≠ 0 := by
  cases h with
  | detect d hi => exact ⟨hi, maskAfter_ne hm⟩
  | stays | took | image | output => exact absurd rfl hm

theorem Tracker.Move.rawTrail_length_le (h : k.Move c g k') (hl : k.rawTrail.length ≤ c.trailN) :
    k'.rawTrail.length ≤ c.trailN := by
  cases h with
  | detect d hi => exact pushTrail_length_le _ hl
  | stays | took | image | output => exact hl

theorem Tracker.Move.rawTrail_ne (h : k.Move c g k') (hr : k'.rawTrail ≠ k.rawTrail) :
    k.cyc.ph = .detect := by
  cases h with
  | detect d hi => exact hi
  | stays | took | image | output => exact absurd rfl hr

theorem Tracker.Move.filtTrail_length_le (h : k.Move c g k') (hl : k.filtTrail.length ≤ c.trailN) :
    k'.filtTrail.length ≤ c.trailN := by
  cases h with
  | took inLock e => exact trailAfter_length_le _ e hl
  | stays | image | detect | output => exact hl

/-- The filtered trail takes an entry with the response to KFPRED, after which the output comes
(43_tracker_consumer.md R231, step 7). -/
theorem Tracker.Move.filtTrail_ne (h : k.Move c g k') (hf : k'.filtTrail ≠ k.filtTrail) :
    k.cyc.ph = .predict ∧ k'.cyc.ph = .output := by
  cases h with
  | took inLock e =>
    obtain ⟨hp, x, y, rfl⟩ := trailAfter_ne hf
    exact ⟨hp, congrArg Cycle.ph (cycleAfter_predict inLock hp _)⟩
  | stays | image | detect | output => exact absurd rfl hf

/-- Node and indicator change in the output step (43_tracker_consumer.md R236, R237). -/
theorem Tracker.Move.node_led_ne (h : k.Move c g k') (hn : k'.lastNode ≠ k.lastNode ∨ k'.led ≠ k.led) :
    k.cyc.ph = .output := by
  cases h with
  | output n led hi => exact hi
  | stays | took | image | detect => exact absurd ⟨rfl, rfl⟩ (not_and_or.mpr hn)

/-- A move keeps the order of the cycle (43_tracker_consumer.md R231). -/
theorem Tracker.Move.follows (h : k.Move c g k') : k.cyc.Follows k'.cyc := by
  cases h with
  | stays => exact .same rfl
  | took inLock e => exact cycleAfter_follows inLock e k.cyc
  | image ph got hi hp =>
    rcases hp with rfl | rfl
    · exact .same hi.symm
    · cases hl : k.cyc.inLock
      · exact .lock rfl (.inr hi)
      · exact .decode rfl (.inr ⟨hi, hl⟩)
  | detect d hi => exact detectStep_follows hi
  | output n led hi => exact .rest rfl

end

/-- In every step every Tracker makes a move, and one that has changed is that of the event's port. -/
theorem step_tracker_move {s t : State} (h : step s = .next t) (j : Nat) :
    (s.tracker j).Move s.cfg s.geo (t.tracker j) ∧
      (t.tracker j ≠ s.tracker j → eventPort s.takeEvent.1 = .trk j) := by
  have unmoved (he : t.tracker j = s.tracker j) : (s.tracker j).Move s.cfg s.geo (t.tracker j) ∧
      (t.tracker j ≠ s.tracker j → eventPort s.takeEvent.1 = .trk j) := ⟨he ▸ .stays, absurd he⟩
  rcases step_trackers h with ⟨htrk, -⟩ | ⟨i, hp, own, others, -⟩
  · exact unmoved (tracker_eq_of_trk_eq htrk j)
  · by_cases hj : j = i
    · exact hj ▸ ⟨own, fun _ => hp⟩
    · exact unmoved (others j hj)

/-- Settles O53: every step is one move of one Tracker at most, and a move keeps the order of the cycle and
changes each register in its step only. -/
theorem maskAndTrails : Obligations.MaskAndTrails := by
  intro s t h
  refine ⟨?_, fun j => ?_⟩
  · rcases step_trackers h with ⟨-, ho⟩ | ⟨j, hp, -, -, ho | ⟨hi, o, hj, ho⟩⟩
    · exact .inl ho
    · exact .inl ho
    · exact .inr ⟨j, o, hp, hi, hj, ho⟩
  · obtain ⟨move, port⟩ := step_tracker_move h j
    refine ⟨fun m => move.mask_kept, move.rawTrail_length_le, move.filtTrail_length_le, port,
      move.mask_ne, move.rawTrail_ne, move.filtTrail_ne, move.node_led_ne, fun hne => ?_⟩
    cases move.follows with
    | same hp => exact absurd hp hne
    | rest hp => rw [hp]; trivial
    | image hp hc | lock hp hc | decode hp hc | unlock hp hc | detect hp hc | correct hp hc
    | predict hp hc | output hp hc => rw [hp]; exact hc

end Sys2Proof.Machine
end

section
/-! PROOFS. What a Tracker chooses among many (43_tracker_consumer.md R235, R240): the largest contour and
the nearest node, each the first one seen on a tie. -/

namespace Sys2Proof.Machine

/-! ## The largest contour -/

/-- Among one contour or more there is a first of largest area. -/
theorem exists_first_largest {cs : List Contour} (h : cs ≠ []) :
    ∃ front c back, cs = front ++ c :: back ∧ (∀ b ∈ front, b.area < c.area) ∧
      ∀ b ∈ back, b.area ≤ c.area := by
  induction cs with
  | nil => exact absurd rfl h
  | cons x cs ih =>
    by_cases hx : ∀ b ∈ cs, b.area ≤ x.area
    · exact ⟨[], x, cs, rfl, by simp, hx⟩
    · push Not at hx
      obtain ⟨y, hy, hxy⟩ := hx
      obtain ⟨front, c, back, rfl, hf, hb⟩ := ih (List.ne_nil_of_mem hy)
      have hyc : y.area ≤ c.area := by
        rcases List.mem_append.mp hy with hy | hy
        · exact (hf y hy).le
        · rcases List.mem_cons.mp hy with rfl | hy
          · exact le_rfl
          · exact hb y hy
      exact ⟨x :: front, c, back, rfl, List.forall_mem_cons.mpr ⟨hxy.trans_le hyc, hf⟩, hb⟩

/-- Settles O42: the first contour of largest area is the one chosen, and there is one where any is
chosen. -/
theorem largestContourIsTheFirstLargest : Obligations.LargestContourIsTheFirstLargest := by
  intro cs c
  constructor
  · intro h
    have hcs : cs ≠ [] := by
      rintro rfl
      cases h
    obtain ⟨front, c', back, rfl, hf, hb⟩ := exists_first_largest hcs
    obtain rfl : c' = c := Option.some.inj ((largestContour_eq_some hf hb).symm.trans h)
    exact ⟨front, back, rfl, hf, hb⟩
  · rintro ⟨front, back, rfl, hf, hb⟩
    exact largestContour_eq_some hf hb

/-! ## The nearest node -/

/-- `b` names the first node of the registry of minimal distance `d`, and that distance, which is below the
radius `r` (43_tracker_consumer.md R235). -/
def NearestBelow (d : Node → Rat) (r : Rat) (nodes : List Node) (b : Nat × Rat) : Prop :=
  ∃ front nd back, nodes = front ++ nd :: back ∧ b = (nd.id, d nd) ∧ d nd < r ∧
    (∀ m ∈ front, d nd < d m) ∧ ∀ m ∈ back, d nd ≤ d m

section
variable {d : Node → Rat} {r : Rat} {nodes : List Node} {nd : Node} {b : Nat × Rat}

theorem NearestBelow.lt (h : NearestBelow d r nodes b) : b.2 < r := by
  obtain ⟨front, nd, back, -, rfl, hr, -, -⟩ := h
  exact hr

theorem NearestBelow.le (h : NearestBelow d r nodes b) {m : Node} (hm : m ∈ nodes) : b.2 ≤ d m := by
  obtain ⟨front, nd, back, rfl, rfl, -, hf, hb⟩ := h
  rcases List.mem_append.mp hm with hm | hm
  · exact (hf m hm).le
  · rcases List.mem_cons.mp hm with rfl | hm
    · exact le_rfl
    · exact hb m hm

/-- One more node, not nearer than the nearest so far. -/
theorem NearestBelow.append (h : NearestBelow d r nodes b) (hnd : b.2 ≤ d nd) :
    NearestBelow d r (nodes ++ [nd]) b := by
  obtain ⟨front, x, back, rfl, rfl, hr, hf, hb⟩ := h
  refine ⟨front, x, back ++ [nd], by simp, rfl, hr, hf, fun m hm => ?_⟩
  rcases List.mem_append.mp hm with hm | hm
  · exact hb m hm
  · exact List.mem_singleton.mp hm ▸ hnd

/-- One more node below the radius, nearer than all before it. -/
theorem nearestBelow_last (hr : d nd < r) (h : ∀ m ∈ nodes, d nd < d m) :
    NearestBelow d r (nodes ++ [nd]) (nd.id, d nd) :=
  ⟨nodes, nd, [], rfl, rfl, hr, h, by simp⟩

end

section
variable {r cx cy : Rat}

theorem kfLt_rational {a b : Kf} : kfLt .rational a b = true ↔ a < b := decide_eq_true_iff

/-- A node replaces the best so far where it is below the radius and strictly nearer
(43_tracker_consumer.md R235). -/
theorem betterNode_rational (best : Option (Nat × Kf)) (nd : Node) :
    betterNode .rational r cx cy best nd =
      if (nd.x - cx) ^ 2 + (nd.y - cy) ^ 2 < r ∧ ∀ b ∈ best, (nd.x - cx) ^ 2 + (nd.y - cy) ^ 2 < b.2 then
        some (nd.id, (nd.x - cx) ^ 2 + (nd.y - cy) ^ 2)
      else best := by
  cases best <;> simp [betterNode, kfLt_rational, distanceSq, kfAdd, kfMul, kfSub, sq]

/-- The loop over the registry ends with no node where none is below the radius, else with the first
nearest one (43_tracker_consumer.md R235). -/
theorem foldl_betterNode (nodes : List Node) :
    let d := fun nd : Node => (nd.x - cx) ^ 2 + (nd.y - cy) ^ 2
    let best := nodes.foldl (betterNode .rational r cx cy) none
    best = none ∧ (∀ nd ∈ nodes, ¬ d nd < r) ∨ ∃ b, best = some b ∧ NearestBelow d r nodes b := by
  intro d
  induction nodes using List.reverseRecOn with
  | nil => exact .inl ⟨rfl, by simp⟩
  | append_singleton nodes nd ih =>
    intro best
    have hbest : best = _ := (List.foldl_append ..).trans (betterNode_rational _ nd)
    rcases ih with ⟨hn, hfar⟩ | ⟨b, hs, hb⟩
    · rw [hn] at hbest
      by_cases hr : d nd < r
      · refine .inr ⟨_, hbest.trans (if_pos ⟨hr, by simp⟩), nearestBelow_last hr fun m hm => ?_⟩
        exact hr.trans_le (not_lt.mp (hfar m hm))
      · refine .inl ⟨hbest.trans (if_neg fun h => hr h.1), fun m hm => ?_⟩
        rcases List.mem_append.mp hm with hm | hm
        · exact hfar m hm
        · exact List.mem_singleton.mp hm ▸ hr
    · rw [hs] at hbest
      by_cases hr : d nd < r ∧ d nd < b.2
      · refine .inr ⟨_, hbest.trans (if_pos ⟨hr.1, by simpa using hr.2⟩),
          nearestBelow_last hr.1 fun m hm => hr.2.trans_le (hb.le hm)⟩
      · refine .inr ⟨b, hbest.trans (if_neg fun h => hr ⟨h.1, h.2 b rfl⟩), hb.append ?_⟩
        exact not_lt.mp fun hlt => hr ⟨hlt.trans hb.lt, hlt⟩

end

/-- Settles O41: the loop over the registry finds the first nearest node below the radius, or none. -/
theorem matchNodeIsTheFirstNearest : Obligations.MatchNodeIsTheFirstNearest := by
  intro nodes radius cx cy d
  have hmatch : matchNode .rational (some (cx, cy)) nodes radius =
      (nodes.foldl (betterNode .rational (radius ^ 2) cx cy) none).map Prod.fst := by
    rw [sq]
    rfl
  rw [hmatch]
  refine ⟨rfl, ?_⟩
  rcases foldl_betterNode nodes with ⟨hn, hfar⟩ | ⟨b, hs, front, nd, back, rfl, rfl, hr, hf, hb⟩
  · rw [hn]
    exact ⟨iff_of_true rfl hfar, fun i hi => nomatch hi⟩
  · rw [hs]
    refine ⟨iff_of_false (by simp) fun h => h nd (by simp) hr, fun i hi => ?_⟩
    exact ⟨front, nd, back, rfl, Option.some.inj hi, hr, hf, hb⟩

end Sys2Proof.Machine
end

section
/-! PROOFS. A Tracker's own step (43_tracker_consumer.md R231, R241; 60_exceptions.md R261): what its
operations and its computations write of the block. -/

namespace Sys2Proof.Machine

/-! ## What a Tracker may write -/

/-- From `s` to `t` Tracker `j` has written its filter, one fault record, one response and the lock at
most; the lock register it changes goes from free to its own port or back, under slot scope only that of a
slot in `slots`. -/
structure TrackerWrites (j : Nat) (slots : Nat → Prop) (s t : State) : Prop where
  sfb : t.sfb = s.sfb
  dq : t.dq = s.dq
  grb : t.grb = s.grb
  geo : t.geo = s.geo
  allocated : t.allocated = s.allocated
  cancel : t.cancel = s.cancel
  tick : t.tick = s.tick
  log : t.log = s.log
  cfg : t.cfg = s.cfg
  filter : ∀ k, k ≠ j → t.filter k = s.filter k
  faults : t.faults = s.faults ∨ ∃ c i, t.faults = s.faults ++ [⟨.trk j, c, i⟩]
  resp : t.resp = s.resp ∨ ∃ r, t.resp = s.resp ++ [(.trk j, r)]
  lock : ∀ v, t.lockOf v ≠ s.lockOf v →
    (s.lockOf v = none ∧ t.lockOf v = some (.trk j) ∨ s.lockOf v = some (.trk j) ∧ t.lockOf v = none) ∧
    (s.cfg.scope = .slot → slots v)

section
variable {j : Nat} {slots : Nat → Prop} {s r t : State}

theorem TrackerWrites.refl (j : Nat) (slots : Nat → Prop) (s : State) : TrackerWrites j slots s s where
  sfb := rfl
  dq := rfl
  grb := rfl
  geo := rfl
  allocated := rfl
  cancel := rfl
  tick := rfl
  log := rfl
  cfg := rfl
  filter _ _ := rfl
  faults := .inl rfl
  resp := .inl rfl
  lock _ h := absurd rfl h

/-- The event taken and the inputs of the step are none of it. -/
theorem TrackerWrites.of_event (es : List Event) (ip : Input)
    (h : TrackerWrites j slots { s with script := es, inp := ip } t) : TrackerWrites j slots s t := { h with }

/-- A Tracker's own registers are none of it. -/
theorem TrackerWrites.modTracker (h : TrackerWrites j slots s t) (f : Tracker → Tracker) :
    TrackerWrites j slots s (t.modTracker j f) := { h with }

/-- A write of a lock register: under slot scope only the slot's own reads otherwise afterwards. -/
theorem lockOf_setLock_ne {u v : Nat} {x : Option Port} (h : (s.setLock u x).lockOf v ≠ s.lockOf v) :
    (s.setLock u x).lockOf v = x ∧ s.lockOf v = s.lockOf u ∧ (s.cfg.scope = .slot → v = u) := by
  rw [lockOf_setLock] at h ⊢
  split_ifs at h ⊢ with hi
  · refine ⟨rfl, lockOf_congr hi.1, fun hs => ?_⟩
    exact (lockIndex_eq_iff.mp hi.1).resolve_left (by simp [hs])
  · exact absurd rfl h

theorem TrackerWrites.acquired {u : Nat} (hu : slots u) (hl : s.lockOf u = none) :
    TrackerWrites j slots s (s.setLock u (some (.trk j))) :=
  { TrackerWrites.refl j slots s with
    lock := fun v hv => by
      obtain ⟨after, before, slot⟩ := lockOf_setLock_ne hv
      exact ⟨.inl ⟨before.trans hl, after⟩, fun hs => slot hs ▸ hu⟩ }

theorem TrackerWrites.released {u : Nat} (hu : slots u) (hl : s.lockOf u = some (.trk j)) :
    TrackerWrites j slots s (s.setLock u none) :=
  { TrackerWrites.refl j slots s with
    lock := fun v hv => by
      obtain ⟨after, before, slot⟩ := lockOf_setLock_ne hv
      exact ⟨.inr ⟨before.trans hl, after⟩, fun hs => slot hs ▸ hu⟩ }

theorem TrackerWrites.setFilter (x : Kfu) : TrackerWrites j slots s (s.setFilter j x) :=
  { TrackerWrites.refl j slots s with
    filter := fun k hk => by rw [filter_setFilter, if_neg fun h => hk h.1] }

/-- The operation ends in a response, on the Tracker's port. -/
theorem TrackerWrites.respond (h : TrackerWrites j slots s r) (hp : r.inp.port = .trk j)
    (hr : r.resp = s.resp) (x : Result) : TrackerWrites j slots s (r.respond x) :=
  { h with resp := .inr ⟨.ok x, by rw [respond_resp, hp, hr]⟩ }

/-- The operation ends in a fault (60_exceptions.md R261). -/
theorem TrackerWrites.raise (hp : s.inp.port = .trk j) (c : Cause) (info : Info) :
    TrackerWrites j slots s (s.raise c info) :=
  { TrackerWrites.refl j slots s with
    faults := .inr ⟨causeCode c, info, by rw [raise_faults, hp]⟩
    resp := .inr ⟨_, by rw [raise_resp, hp]⟩ }

theorem TrackerWrites.keepOpen (i : Instr) (pl : Payload) (got : List (Nat × Byte)) :
    TrackerWrites j slots s (s.keepOpen i pl got) := { TrackerWrites.refl j slots s with }

/-! ## The operations of a cycle -/

/-- An operation of a TRKCYCLE, on the Tracker's port: LOCK and UNLOCK move the lock of their slot, KFCORR
and KFPRED write the Tracker's filter, RDSLOT and DECMD write nothing (43_tracker_consumer.md R231). -/
theorem exec_cycleOp_writes {u : UnitNo} {ph : TrkPhase} {i : Instr} (hi : cycleOp u ph = some i)
    (h : exec i s = .next t) (hp : s.inp.port = .trk j)
    (hu : i = .lock u ∨ i = .unlock u → slots u.toNat) : TrackerWrites j slots s t := by
  have same : TrackerWrites j slots s s := .refl j slots s
  have own {k : UnitNo} (hk : s.inp.port = .trk k.toNat) : j = k.toNat := Port.trk.inj (hp.symm.trans hk)
  cases ph with
  | image | detect | output => cases hi
  | rest =>
    cases hi
    rcases execRdslot_next h with ⟨c, info, rfl⟩ | ⟨-, -, -, rfl⟩
    · exact .raise hp c info
    · exact same.respond hp rfl _
  | lock =>
    cases hi
    rcases execLock_next h with ⟨c, info, rfl⟩ | ⟨-, -, -, ⟨hl, rfl⟩ | rfl⟩
    · exact .raise hp c info
    · rw [hp]
      exact (TrackerWrites.acquired (hu (.inl rfl)) hl).respond hp rfl _
    · exact .keepOpen _ _ _
  | decode =>
    cases hi
    rcases execDecmd_next h with ⟨c, info, rfl⟩ | ⟨-, -, -, ⟨g, rfl⟩ | ⟨g, rfl⟩⟩
    · exact .raise hp c info
    · exact .keepOpen _ _ _
    · exact same.respond hp rfl _
  | unlock =>
    cases hi
    rcases execUnlock_next h with ⟨c, info, rfl⟩ | ⟨-, -, -, hl, rfl⟩
    · exact .raise hp c info
    · exact (TrackerWrites.released (hu (.inr rfl)) (hp ▸ hl)).respond hp rfl _
  | correct =>
    cases hi
    rcases execKfcorr_next h with ⟨c, info, rfl⟩ | ⟨hk, -, x, rfl⟩
    · exact .raise hp c info
    · rw [← own hk]
      exact (TrackerWrites.setFilter x).respond hp rfl _
  | predict =>
    cases hi
    rcases execKfpred_next h with ⟨c, info, rfl⟩ | ⟨hk, -, x, rfl⟩
    · exact .raise hp c info
    · rw [← own hk]
      exact (TrackerWrites.setFilter x).respond hp rfl _

/-! ## The Tracker's own step -/

/-- The response a Tracker takes changes its own registers only. -/
theorem TrackerWrites.takeResponse {o : Out} (hq : ∀ q, o = .next q → TrackerWrites j slots s q)
    (h : takeResponse j o = .next t) : TrackerWrites j slots s t := by
  obtain ⟨q, ho, rfl | ⟨e, -, -, rfl⟩⟩ := takeResponse_next h
  · exact hq _ ho
  · exact (hq q ho).modTracker _

/-- The next step of a cycle with nothing outstanding: an operation with the Tracker's own number, or a
computation (43_tracker_consumer.md R231). -/
theorem cycleStep_writes (hu : slots (j % 256)) (hp : s.inp.port = .trk j) (h : cycleStep j s = .next t) :
    TrackerWrites j slots s t := by
  have same : TrackerWrites j slots s s := .refl j slots s
  cases hi : cycleOp (BitVec.ofNat 8 j) (s.tracker j).cyc.ph with
  | some i =>
    rw [cycleStep_of_cycleOp hi] at h
    refine .takeResponse (fun q hq => ?_) h
    exact .of_event s.script _ (exec_cycleOp_writes hi hq hp fun _ => by simpa using hu)
  | none =>
    cases hph : (s.tracker j).cyc.ph with
    | image =>
      rw [cycleStep_image hph] at h
      exact readImage_next (fun _ _ _ hr => hr.modTracker _) (fun _ hr => hr.modTracker _) same h
    | detect =>
      rw [cycleStep_detect hph] at h
      exact Host.Outcome.next.inj h ▸ same.modTracker _
    | output =>
      rw [cycleStep_output hph] at h
      exact Host.Outcome.next.inj h ▸ { same with }
    | rest | lock | decode | unlock | correct | predict => simp [hph, cycleOp] at hi

/-- A Tracker that goes on with a LOCK or DECMD it has outstanding, inside a cycle or not. -/
theorem resume_writes {o : Pending} {u : UnitNo} (hi : o.instr = .lock u ∨ o.instr = .decmd u)
    (hu : o.instr = .lock u → slots u.toNat) (hp : s.inp.port = .trk j) (h : resume o s = .next t) :
    TrackerWrites j slots s t := by
  have goesOn (q : State) (hq : exec o.instr { s with inp := { s.inp with payload := o.payload } } = .next q) :
      TrackerWrites j slots s q := by
    rcases hi with hi | hi <;> rw [hi] at hq hu
    · exact .of_event s.script _ (exec_cycleOp_writes (ph := .lock) rfl hq hp fun _ => hu rfl)
    · exact .of_event s.script _ (exec_cycleOp_writes (ph := .decode) rfl hq hp (by simp))
  cases hc : s.inCycle (.trk j) with
  | true =>
    rw [resume_of_inCycle o hp hc] at h
    exact .takeResponse goesOn h
  | false =>
    rw [resume_of_not_inCycle o (hp ▸ hc)] at h
    exact goesOn t h

/-- The slots whose lock a Tracker's own step may move: its own when it issues an operation, else the one
whose LOCK it has outstanding. -/
def State.lockableBy (s : State) (j v : Nat) : Prop :=
  s.outstandingOf (.trk j) = none ∧ v = j % 256 ∨
    ∃ o u, s.outstandingOf (.trk j) = some o ∧ o.instr = .lock u ∧ v = u.toNat

/-- A Tracker's own step writes what a Tracker may write. -/
theorem step_advance_trk_writes {d : Draws} {es : List Event}
    (hs : s.script = .advance (.trk j) d :: es)
    (ho : ∀ o, s.outstandingOf (.trk j) = some o → ∃ u, o.instr = .lock u ∨ o.instr = .decmd u)
    (h : step s = .next t) : TrackerWrites j (s.lockableBy j) s t := by
  cases he : portExists s.cfg (.trk j) with
  | false =>
    rw [step_of_script hs] at h
    obtain rfl := Host.Outcome.next.inj ((if_neg (Bool.eq_false_iff.mp he)).symm.trans h)
    exact { TrackerWrites.refl j (s.lockableBy j) s with }
  | true =>
    refine .of_event es ⟨.trk j, s.inp.payload, d⟩ ?_
    cases hout : s.outstandingOf (.trk j) with
    | none =>
      rw [step_advance_trk hs (of_decide_eq_true he) hout] at h
      exact cycleStep_writes (.inl ⟨hout, rfl⟩) rfl h
    | some o =>
      obtain ⟨u, hi⟩ := ho o hout
      rw [step_advance hs he, advance,
        show State.outstanding { s with script := es, inp := ⟨.trk j, s.inp.payload, d⟩ } = some o
          from hout] at h
      exact resume_writes hi (fun hl => .inr ⟨o, u, hout, hl, rfl⟩) rfl h

end

/-- Settles O54: the step writes what a Tracker may write, and moves no other Tracker and no other port's
operation. -/
theorem trackerStepWritesOnlyItsFilter : Obligations.TrackerStepWritesOnlyItsFilter := by
  intro s t j d es hs ho h
  obtain ⟨sfb, dq, grb, geo, allocated, cancel, tick, log, cfg, filter, faults, resp, lock⟩ :=
    step_advance_trk_writes hs ho h
  have port : eventPort s.takeEvent.1 = .trk j := by
    rw [State.takeEvent, hs]
    rfl
  have tracker (k : Nat) (hk : k ≠ j) : t.tracker k = s.tracker k := by
    by_contra hne
    exact hk (Port.trk.inj (((step_tracker_move h k).2 hne).symm.trans port))
  refine ⟨sfb, dq, grb, geo, allocated, cancel, tick, log, cfg,
    fun k hk => ⟨filter k hk, tracker k hk⟩, fun q hq => ?_, faults, resp, lock⟩
  exact step_outstandingOf_of_ne h (by rw [nextPort_eq, port]; exact hq)

end Sys2Proof.Machine
end

section
/-! PROOFS. Trap entry, the permissions and cause codes, and precise faults (60_exceptions.md R261 to R266,
R271). -/

namespace Sys2Proof.Machine

/-! ## Trap entry, permissions, cause codes -/

/-- Settles O9: the ports afterwards are those after any answer; the rest of `raise` is its definition. -/
theorem raiseIsTheWholeOfTrapEntry : Obligations.RaiseIsTheWholeOfTrapEntry :=
  fun s c info => ⟨rfl, rfl, outstandingOf_raise s c info, rfl⟩

/-- Settles O10: each row of the table and each code is read off its definition. -/
theorem permissionsAndCauseCodes : Obligations.PermissionsAndCauseCodes := by
  constructor
  · intro u k row
    and_intros <;> rfl
  · and_intros <;> rfl

/-! ## Precise faults (60_exceptions.md R264 to R266) -/

section
variable {i : Instr} {u : UnitNo} {s q t : State} {pl : Payload}

/-- An operation other than GOPEN and WRSLOT has done nothing but raise, or it raises nothing
(60_exceptions.md R261). -/
theorem exec_raises_or_quiet (hw : ∀ u, i ≠ .wrslot u) (hg : ∀ u, i ≠ .gopen u)
    (h : exec i s = .next t) : (∃ c info, t = s.raise c info) ∨ t.faults = s.faults := by
  cases i with
  | wrslot u => exact absurd rfl (hw u)
  | gopen u => exact absurd rfl (hg u)
  | alloc u => exact (execAlloc_next h).imp_right fun ⟨_, _, _, _, ht⟩ => ht ▸ rfl
  | lock u =>
    refine (execLock_next h).imp_right ?_
    rintro ⟨-, -, -, ⟨-, rfl⟩ | rfl⟩ <;> rfl
  | unlock u => exact (execUnlock_next h).imp_right fun ⟨_, _, _, _, ht⟩ => ht ▸ rfl
  | rdslot u => exact (execRdslot_next h).imp_right fun ⟨_, _, _, ht⟩ => ht ▸ rfl
  | encmd u => exact (execEncmd_next h).imp_right fun ht => by rw [ht]; rfl
  | decmd u =>
    refine (execDecmd_next h).imp_right ?_
    rintro ⟨-, -, -, ⟨g, rfl⟩ | ⟨g, rfl⟩⟩ <;> rfl
  | gstart u => exact (execGstart_next h).imp_right fun ⟨_, _, _, ht⟩ => ht ▸ rfl
  | gchk u =>
    refine (execGchk_next h).imp_right ?_
    rintro ⟨-, -, -, rfl | rfl⟩ <;> rfl
  | gread u =>
    refine (execGread_next h).imp_right ?_
    rintro ⟨-, -, -, rfl | rfl | ⟨img, rfl⟩⟩ <;> rfl
  | gwrap u => exact (execGwrap_next h).imp_right fun ⟨_, _, _, _, _, _, ht⟩ => ht ▸ rfl
  | enq u =>
    refine (execEnq_next h).imp_right ?_
    rintro ⟨-, -, -, f, -, ⟨-, rfl⟩ | ⟨-, rfl⟩ | rfl⟩ <;> rfl
  | gstat u => exact (execGstat_next h).imp_right fun ⟨_, _, _, _, _, _, ht⟩ => ht ▸ rfl
  | gpace u => exact (execGpace_next h).imp_right fun ⟨_, _, _, ht⟩ => ht ▸ rfl
  | deq u =>
    refine (execDeq_next h).imp_right ?_
    rintro (rfl | ⟨f, fs, -, rfl⟩) <;> rfl
  | cancel u => exact (execCancel_next h).imp_right fun ht => by rw [ht]; rfl
  | kfinit u => exact (execKfinit_next h).imp_right fun ⟨_, _, ht⟩ => ht ▸ rfl
  | kfpred u => exact (execKfpred_next h).imp_right fun ⟨_, _, _, ht⟩ => ht ▸ rfl
  | kfcorr u => exact (execKfcorr_next h).imp_right fun ⟨_, _, _, ht⟩ => ht ▸ rfl

/-- GOPEN has done nothing but raise, or it has stopped its Grabber and raised, or it raises nothing
(60_exceptions.md R264). -/
theorem exec_gopen_raises_or_quiet (h : exec (.gopen u) s = .next t) :
    (∃ c info, t = s.raise c info) ∨
      t = (s.stopGrabber u.toNat).raise .captureOpenFailure (.number u.toNat) ∨
      t.faults = s.faults := by
  rcases execGopen_next h with hr | ⟨-, -, -, rfl | ht⟩
  · exact .inl hr
  · exact .inr (.inr rfl)
  · exact .inr (.inl ht)

theorem WriteRun.faults_eq {u : Nat} (h : WriteRun u s q) : q.faults = s.faults := by
  cases h <;> rfl

/-- The byte writes of a Grabber that holds its lock while it writes, and the end of its write, raise
nothing (60_exceptions.md R266). -/
theorem WriteEnded.faults_eq (hl : s.LockOk) (hp : s.inp.port = .grb u.toNat)
    (hu : u.toNat < s.cfg.geo.n) (ha : s.allocated = true) (hq : WriteRun u.toNat s q)
    (h : WriteEnded u q t) : t.faults = s.faults := by
  cases h with
  | left pl ht => exact ht ▸ hq.faults_eq
  | finished hw ht =>
    obtain ⟨hlq, hpq, -, -⟩ := hl.writeRun hp hu ha hq
    rw [ht, finishWrite_of_holder (hpq ▸ hlq.wipHolds u.toNat hw)]
    exact hq.faults_eq

/-- From the acquire on a WRSLOT raises nothing, unless its port holds the lock already. -/
theorem acquireAndWrite_faults_eq (hl : s.LockOk) (hp : s.inp.port = .grb u.toNat)
    (hu : u.toNat < s.cfg.geo.n) (ha : s.allocated = true) (hn : s.lockOf u.toNat ≠ some s.inp.port)
    (h : s.acquireAndWrite u pl = .next t) : t.faults = s.faults := by
  rcases acquireAndWrite_next h with ⟨hfree, hb⟩ | ⟨-, rfl⟩ | ⟨hown, -⟩
  · obtain ⟨q, hq, he⟩ := writeBytes_run (P := WriteRun u.toNat s) (.begun s.sfb _ hfree)
      (fun _ m w hr => hr.write m w) hb
    exact he.faults_eq hl hp hu ha hq
  · rfl
  · exact absurd hown hn

/-- A WRSLOT that goes on raises nothing: it holds the lock of its slot exactly while its write is in
flight (60_exceptions.md R266). -/
theorem continueWrite_faults_eq {o : Pending} (hl : s.LockOk) (hp : s.inp.port = .grb u.toNat)
    (hu : u.toNat < s.cfg.geo.n) (ha : s.allocated = true) (h : s.continueWrite u o = .next t) :
    t.faults = s.faults := by
  unfold State.continueWrite at h
  split_ifs at h with hw
  · obtain ⟨q, hq, he⟩ := writeBytes_run (P := WriteRun u.toNat s) .same
      (fun _ m w hr => hr.write m w) h
    exact he.faults_eq hl hp hu ha hq
  · refine acquireAndWrite_faults_eq hl hp hu ha (fun hown => hw ?_) h
    exact (hl.holderWrites _ _ (hp ▸ hown)).1

/-- A WRSLOT that is issued has done nothing but raise, or it has stopped its Grabber and raised, or it
raises nothing (60_exceptions.md R265). -/
theorem startWrite_raises_or_quiet (hl : s.LockOk) (h : s.startWrite u = .next t) :
    (∃ c info, t = s.raise c info) ∨
      (s.inp.port = .grb u.toNat ∧ (s.grab u.toNat).gph = .wr ∧ ∃ c info,
        (c = .notAllocated ∨ c = .shapeMismatch) ∧
          t = (s.stopGrabberAndDrop u.toNat).raise c info) ∨
      t.faults = s.faults := by
  rcases startWrite_next h with hr | hstop | ⟨hp, ha, hu, pl, -, -, hb⟩
  · exact .inl hr
  · exact .inr (.inl hstop)
  · rcases acquireAndWrite_run hb with hr | ⟨q, hq, he⟩
    · exact .inl hr
    · exact .inr (.inr (he.faults_eq hl hp hu ha hq))

/-- A WRSLOT that adds to `FAULTS` is being issued (60_exceptions.md R266). -/
theorem startWrite_of_faults_ne (hl : s.LockOk) (ho : ∀ o, s.outstanding = some o → o.instr = .wrslot u)
    (h : exec (.wrslot u) s = .next t) (hf : t.faults ≠ s.faults) :
    s.outstanding = none ∧ s.startWrite u = .next t := by
  change execWrslot u s = .next t at h
  unfold execWrslot at h
  split at h
  · rename_i hn
    exact ⟨hn, h⟩
  · rename_i o hs
    obtain ⟨hp, hu, ha⟩ := hl.pendOwn _ (mem_pend_of_outstanding hs) u (ho o hs)
    exact absurd (continueWrite_faults_eq hl hp hu ha h) hf

end

/-- Settles O46: GOPEN and WRSLOT apart an operation raises or is quiet; a WRSLOT that raises is being
issued. -/
theorem faultsArePrecise : Obligations.FaultsArePrecise := by
  intro i s t hl ho h hf
  by_cases hw : ∃ u, i = .wrslot u
  · obtain ⟨u, rfl⟩ := hw
    obtain ⟨hn, hs⟩ := startWrite_of_faults_ne hl ho h hf
    refine ⟨?_, fun _ _ => hn⟩
    rcases startWrite_raises_or_quiet hl hs with hr | ⟨hp, hg, c, info, hc, ht⟩ | hq
    · exact .inl hr
    · exact .inr (.inr ⟨u, c, info, rfl, hp, hg, hc, ht⟩)
    · exact absurd hq hf
  · refine ⟨?_, fun u hu => absurd ⟨u, hu⟩ hw⟩
    by_cases hg : ∃ u, i = .gopen u
    · obtain ⟨u, rfl⟩ := hg
      rcases exec_gopen_raises_or_quiet h with hr | ht | hq
      · exact .inl hr
      · exact .inr (.inl ⟨u, rfl, ht⟩)
      · exact absurd hq hf
    · rcases exec_raises_or_quiet (not_exists.mp hw) (not_exists.mp hg) h with hr | hq
      · exact .inl hr
      · exact absurd hq hf

end Sys2Proof.Machine
end

section
/-! PROOFS. From a sound state every step goes on (60_exceptions.md R262; 20_memory.md R66): the registers a
phase reads are held, and every address the machine forms lies inside `SFB`. -/

namespace Sys2Proof.Machine

/-- The outcome is a next state: the machine does not stop. -/
def GoesOn (o : Out) : Prop := ∃ t, o = .next t

theorem goesOn_next (t : State) : GoesOn (.next t) := ⟨t, rfl⟩

/-- A failing check raises a fault of the spec, which is a next state (60_exceptions.md R261). -/
theorem guarded_goesOn {s : State} {cs : List Check} {body : Out}
    (h : (∀ c ∈ cs, c.fails = false) → GoesOn body) : GoesOn (s.guarded cs body) := by
  rcases guarded_cases s cs body with ⟨c, -, -, hc⟩ | ⟨hp, hb⟩
  · exact ⟨_, hc⟩
  · rw [hb]
    exact h hp

/-! ## Addresses inside `SFB` -/

section
variable {s : State} {u : UnitNo}

/-- The inputs of a step are none of what soundness is about. -/
theorem State.Sound.withInput (h : s.Sound) (ip : Input) : State.Sound { s with inp := ip } := { h with }

theorem State.Sound.geoLegal (h : s.Sound) : s.cfg.geo.legal = true := by
  have hc := h.cfgLegal
  simp only [Cfg.legal, Bool.and_eq_true] at hc
  obtain ⟨⟨⟨⟨hgeo, -⟩, -⟩, -⟩, -⟩ := hc
  exact hgeo

theorem inSfb_of_lt {a : Nat} (ha : s.allocated = true) (h : a < sfbBytes s.geo) : s.inSfb a = true := by
  simp [State.inSfb, ha, h]

/-- The block bytes DECMD reads (40_buffer_codec.md R129). -/
theorem State.Sound.metaAddr_inSfb (h : s.Sound) (ha : s.allocated = true) {u k : Nat}
    (hu : u < s.cfg.geo.n) (hk : k < 18) : s.inSfb (metaAddr s.geo u k) = true := by
  refine inSfb_of_lt ha ?_
  rw [h.geoLatched ha]
  exact metaAddr_lt_sfbBytes h.geoLegal hu hk

/-- The bytes WRSLOT writes (40_buffer_codec.md R124). -/
theorem State.Sound.nextWrite_inSfb (h : s.Sound) (ha : s.allocated = true) {u : Nat}
    (hu : u < s.cfg.geo.n) {w : Wip} {it : WrItem} (hit : it ∈ nextWrites s w) :
    s.inSfb (slotBase s.geo u + it.off) = true :=
  have hg := h.geoLatched ha
  inSfb_of_slot ha hg hu (slotWrites_inside h.cfgLegal hg (nextWrites_subset hit))

/-- The image bytes a TRKCYCLE reads through its View (43_tracker_consumer.md R231). -/
theorem State.Sound.imageByte_inSfb (h : s.Sound) {v : View} (hv : s.viewInside v)
    {got : List (Nat × Byte)} {o : Nat} (ho : o ∈ imageLeft s.geo got) :
    s.inSfb (v.base + o) = true := by
  obtain ⟨ha, hlen, hbase⟩ := hv
  have himg : o < imgBytes s.geo := List.mem_range.mp (List.mem_filter.mp ho).1
  have hslot := slotBytes_eq s.geo
  refine inSfb_of_lt ha ?_
  rw [h.geoLatched ha] at himg hslot ⊢
  omega

/-! ## Operations that move bytes -/

theorem readBytes_goesOn (h : s.Sound) (ha : s.allocated = true) (hu : u.toNat < s.cfg.geo.n)
    (ns : List Nat) (got : List (Nat × Byte)) : GoesOn (readBytes u ns got s) := by
  induction ns generalizing got with
  | nil => exact goesOn_next _
  | cons n ns ih =>
    cases hk : pick (readsLeft got) n with
    | none => simp only [readBytes, hk, goesOn_next]
    | some k =>
      have hin := h.metaAddr_inSfb ha hu (mem_readsLeft.mp (pick_mem hk)).1
      simp only [readBytes, hk, memRead_eq_some.mpr ⟨hin, rfl⟩]
      exact ih _

/-- A byte write keeps soundness. -/
theorem State.Sound.afterWrite (h : s.Sound) (u : Nat) (w : Wip) (it : WrItem) :
    (s.afterWrite u w it).Sound :=
  have h' : State.Sound { s with sfb := Memory.write s.sfb (slotBase s.geo u + it.off) it.byte } :=
    { h with }
  h'.modGrab (h.regsHeld u)

/-- The registers of a Grabber that exists hold the write in flight set there. -/
theorem wip_setWip {u : Nat} (hu : u < s.grb.length) (w : Option Wip) :
    ((s.setWip u w).grab u).wip = w := by
  rw [grab_setWip, if_pos ⟨rfl, hu⟩]

theorem writeBytes_goesOn (h : s.Sound) (ha : s.allocated = true) (hu : u.toNat < s.cfg.geo.n)
    (hw : (s.grab u.toNat).wip.isSome = true) (pl : Payload) (ns : List Nat) :
    GoesOn (writeBytes u pl ns s) := by
  induction ns generalizing s with
  | nil => exact goesOn_next _
  | cons n ns ih =>
    obtain ⟨w, hw⟩ := Option.isSome_iff_exists.mp hw
    cases hk : pick (nextWrites s w) n with
    | none => simp only [writeBytes, hw, hk, goesOn_next]
    | some it =>
      have hin := h.nextWrite_inSfb ha hu (pick_mem hk)
      simp only [writeBytes, hw, hk, memWrite_eq_some.mpr ⟨hin, rfl⟩]
      refine ih (h.afterWrite u.toNat w it) ha hu ?_
      rw [wip_setWip (h.grbLength ▸ hu)]
      rfl

/-- A WRSLOT that has taken the lock sets its write in flight first, so that it has one to go on with. -/
theorem acquireAndWrite_goesOn (h : s.Sound) (ha : s.allocated = true) (hu : u.toNat < s.cfg.geo.n)
    (pl : Payload) : GoesOn (s.acquireAndWrite u pl) := by
  have hlock : (s.setLock u.toNat (some s.inp.port)).Sound := { h with }
  have hbegin : ((s.setLock u.toNat (some s.inp.port)).beginWrite u.toNat pl).Sound :=
    hlock.modGrab (h.regsHeld u.toNat)
  unfold State.acquireAndWrite
  rcases acquire_cases s u.toNat with ⟨-, hc⟩ | ⟨-, hc⟩ | ⟨q, -, -, hc⟩ <;> rw [hc]
  · refine writeBytes_goesOn hbegin ha hu ?_ pl _
    rw [beginWrite_wip (h.grbLength ▸ hu)]
    rfl
  · exact goesOn_next _
  · exact goesOn_next _

/-- In phase `Wr` the Frame is held, so that the loop form has its operands (10_state.md R31). -/
theorem State.Sound.writeOperands_isSome (h : s.Sound) (u : Nat) :
    ∃ pl, s.writeOperands u = some pl := by
  by_cases hg : (s.grab u).gph = .wr
  · obtain ⟨f, hf⟩ := Option.isSome_iff_exists.mp ((h.regsHeld u).2 (.inr hg))
    exact ⟨_, writeOperands_loop hg hf⟩
  · exact ⟨s.inp.payload, if_neg hg⟩

theorem startWrite_goesOn (h : s.Sound) (u : UnitNo) : GoesOn (s.startWrite u) := by
  unfold State.startWrite
  cases hc : firstFailing (s.writeChecks u) with
  | some c => exact goesOn_next _
  | none =>
    obtain ⟨-, ha, hu, -, -⟩ := writeChecks_pass.mp (firstFailing_eq_none.mp hc)
    obtain ⟨pl, hpl⟩ := h.writeOperands_isSome u.toNat
    simp only [hpl]
    split
    · exact acquireAndWrite_goesOn h ha hu pl
    · exact goesOn_next _

theorem continueWrite_goesOn (h : s.Sound) (ha : s.allocated = true) (hu : u.toNat < s.cfg.geo.n)
    (o : Pending) : GoesOn (s.continueWrite u o) := by
  unfold State.continueWrite
  split
  · rename_i hw
    exact writeBytes_goesOn h ha hu hw _ _
  · exact acquireAndWrite_goesOn h ha hu _

/-- A WRSLOT that is outstanding has its slot inside `SFB`; one that is issued has its checks before it. -/
theorem execWrslot_goesOn (h : s.Sound) (hi : s.mayRun (.wrslot u)) : GoesOn (execWrslot u s) := by
  unfold execWrslot
  cases ho : s.outstanding with
  | none => exact startWrite_goesOn h u
  | some o =>
    obtain ⟨ha, hu⟩ : s.allocated = true ∧ u.toNat < s.cfg.geo.n :=
      hi.elim (fun hn => by simp [hn] at ho) fun e he _ hw => h.pendInside e he u (.inl hw)
    exact continueWrite_goesOn h ha hu o

/-! ## Every operation -/

/-- In phase `Wrap` the image is held, in phase `Enq` the Frame (10_state.md R31). -/
theorem exec_goesOn {i : Instr} (h : s.Sound) (hi : s.mayRun i) : GoesOn (exec i s) := by
  cases i with
  | wrslot u => exact execWrslot_goesOn h hi
  | decmd u =>
    refine guarded_goesOn fun hp => ?_
    obtain ⟨-, ha, hu⟩ := slotChecks_pass.mp hp
    exact readBytes_goesOn h ha hu _ _
  | gwrap u =>
    refine guarded_goesOn fun hp => ?_
    obtain ⟨-, -, -, hg⟩ := grabberChecks_pass.mp hp
    obtain ⟨img, himg⟩ := Option.isSome_iff_exists.mp ((h.regsHeld u.toNat).1 hg)
    simp only [himg, goesOn_next]
  | enq u =>
    refine guarded_goesOn fun hp => ?_
    obtain ⟨-, -, -, hg⟩ := grabberChecks_pass.mp hp
    obtain ⟨f, hf⟩ := Option.isSome_iff_exists.mp ((h.regsHeld u.toNat).2 (.inl hg))
    simp only [hf]
    split_ifs <;> exact goesOn_next _
  | alloc u | rdslot u | encmd u | gstart u | gpace u | cancel u | kfinit u | kfpred u =>
    exact guarded_goesOn fun _ => goesOn_next _
  | lock u | unlock u | gopen u | gchk u | gread u | gstat u | deq u | kfcorr u =>
    refine guarded_goesOn fun _ => ?_
    split <;> exact goesOn_next _

/-- A read through a View the port obtained (40_buffer_codec.md R127). -/
theorem readThroughView_goesOn (h : s.Sound) {v : View} (hv : s.holdsView v = true) (o : Nat) :
    GoesOn (readThroughView v o s) := by
  obtain ⟨ha, -, hbase⟩ := h.viewsInside s.inp.port v (List.contains_iff_mem.mp hv)
  rcases Nat.lt_or_ge o v.length with ho | ho
  · exact ⟨_, readThroughView_inside ho ha (by rwa [h.geoLatched ha])⟩
  · exact ⟨_, readThroughView_outside ho s⟩

theorem runCommand_goesOn (h : s.Sound) (ho : s.outstanding = none) (cw : Word) :
    GoesOn (runCommand cw s) := by
  unfold runCommand
  split
  · exact goesOn_next _
  · exact exec_goesOn h (.inl ho)

/-! ## A Tracker's cycle -/

theorem takeResponse_goesOn (j : Nat) {o : Out} (h : GoesOn o) : GoesOn (takeResponse j o) := by
  obtain ⟨t, rfl⟩ := h
  simp only [takeResponse]
  split <;> exact goesOn_next _

/-- A run of image reads: the cycle keeps its View, which lies inside `SFB`. -/
theorem readImage_goesOn (h : s.Sound) {j : Nat} (hj : (s.tracker j).cyc.ph ≠ .rest) (ns : List Nat) :
    GoesOn (readImage j ns s) := by
  induction ns generalizing s with
  | nil => exact goesOn_next _
  | cons n ns ih =>
    cases hk : pick (imageLeft s.geo (s.tracker j).cyc.got) n with
    | none => simp only [readImage, hk, goesOn_next]
    | some o =>
      have hin := h.imageByte_inSfb (h.cyclesInside j hj) (pick_mem hk)
      simp only [readImage, hk, memRead_eq_some.mpr ⟨hin, rfl⟩]
      refine ih (h.modTracker fun _ => h.cyclesInside j hj) ?_
      rw [tracker_modTracker]
      split_ifs <;> exact hj

theorem cycleStep_goesOn (h : s.Sound) (ho : s.outstanding = none) (j : Nat) : GoesOn (cycleStep j s) := by
  unfold cycleStep
  split
  · exact takeResponse_goesOn j (exec_goesOn (h.withInput _) (.inl ho))
  · split
    · rename_i hph
      exact readImage_goesOn h (by simp [hph]) _
    · exact goesOn_next _
    · exact goesOn_next _

/-! ## Every step -/

theorem resume_goesOn (h : s.Sound) {o : Pending} (ho : s.outstanding = some o) : GoesOn (resume o s) := by
  have goesOn : GoesOn (exec o.instr { s with inp := { s.inp with payload := o.payload } }) :=
    exec_goesOn (h.withInput _) (.inr ⟨o, ho, rfl⟩)
  cases hc : s.inCycle s.inp.port with
  | false => exact resume_of_not_inCycle o hc ▸ goesOn
  | true =>
    cases hp : s.inp.port with
    | trk j => exact resume_of_inCycle o hp (hp ▸ hc) ▸ takeResponse_goesOn j goesOn
    | mgr | grb i | wtr => simp [State.inCycle, hp] at hc

theorem loopStep_goesOn (h : s.Sound) (ho : s.outstanding = none) (i : Nat) : GoesOn (loopStep i s) := by
  unfold loopStep
  split
  · exact exec_goesOn h (.inl ho)
  · exact goesOn_next _

theorem advance_goesOn (h : s.Sound) : GoesOn (advance s) := by
  unfold advance
  split
  · rename_i o ho
    exact resume_goesOn h ho
  · rename_i ho
    split
    · exact loopStep_goesOn h ho _
    · exact cycleStep_goesOn h ho _
    · exact goesOn_next _
    · exact goesOn_next _

/-- Every event leads to a next state; one whose agent has no enabled step changes nothing. -/
theorem runEvent_goesOn (h : s.Sound) (e : Event) : GoesOn (runEvent e s) := by
  cases e with
  | issue p cw pl d =>
    simp only [runEvent]
    split
    · rename_i hf
      simp only [State.portFree, State.portIdle, Bool.and_eq_true, Option.isNone_iff_eq_none] at hf
      obtain ⟨⟨-, ho⟩, -⟩ := hf
      exact runCommand_goesOn (h.withInput ⟨p, pl, d⟩) ho cw
    · exact goesOn_next _
  | advance p d =>
    simp only [runEvent]
    split
    · exact advance_goesOn (h.withInput _)
    · exact goesOn_next _
  | viewRead p v o =>
    simp only [runEvent]
    split
    · rename_i hv
      obtain ⟨-, hview⟩ := Bool.and_eq_true_iff.mp hv
      exact readThroughView_goesOn (h.withInput _) hview o
    · exact goesOn_next _

theorem State.Sound.takeEvent (h : s.Sound) : s.takeEvent.2.Sound := by
  unfold State.takeEvent
  split <;> exact { h with }

end

/-- Settles O56: whatever event comes, its agent's step goes on. -/
theorem soundStatesNeverStop : Obligations.SoundStatesNeverStop :=
  fun s h => runEvent_goesOn h.takeEvent s.takeEvent.1

end Sys2Proof.Machine
end

section
/-! PROOFS. Starvation (70_reset_and_hazards.md R319): a weakly fair run in which a Tracker takes the lock
again each time it has freed it, so that a Grabber waits in phase `Wr` for ever. While the Tracker holds
the lock no agent is enabled, and it holds it again and again: fairness asks nothing of the schedule. -/

namespace Sys2Proof.Machine

/-! ## The states a schedule leads to -/

/-- The state after the event `e`; `s` itself where the machine stops. -/
def State.after (s : State) (e : Event) : State :=
  match step (s.given e) with
  | .next t => t
  | _ => s

theorem after_of_step {s t : State} {e : Event} (h : step (s.given e) = .next t) : s.after e = t := by
  rw [State.after, h]

/-- From a sound state the event leads to the state after it, which is sound. -/
theorem State.Sound.after {s : State} (h : s.Sound) (e : Event) :
    step (s.given e) = .next (s.after e) ∧ (s.after e).Sound := by
  have hg : (s.given e).Sound := { h with }
  obtain ⟨t, ht⟩ := soundStatesNeverStop _ hg
  rw [after_of_step ht]
  exact ⟨ht, stepKeepsSound _ _ hg ht⟩

/-- The states a schedule leads to from `s`. -/
def State.under (s : State) (schedule : Nat → Event) : Nat → State
  | 0 => s
  | n + 1 => (s.under schedule n).after (schedule n)

theorem State.Sound.under {s : State} (h : s.Sound) (schedule : Nat → Event) :
    ∀ n, (s.under schedule n).Sound
  | 0 => h
  | n + 1 => ((h.under schedule n).after (schedule n)).2

/-- A weakly fair schedule is a run from every sound state. -/
def Run.ofSchedule (s : State) (h : s.Sound) (schedule : Nat → Event)
    (fair : WeaklyFair (s.under schedule) schedule) : Run where
  state := s.under schedule
  event := schedule
  steps n := ((h.under schedule n).after (schedule n)).1
  fair := fair

/-- A schedule is weakly fair where there is again and again a moment at which no agent is enabled. -/
theorem weaklyFair_of_quiet {state : Nat → State} {event : Nat → Event}
    (h : ∀ n, ∃ m, n ≤ m ∧ ∀ p, ¬(state m).enabled p) : WeaklyFair state event := by
  intro p n enabled
  obtain ⟨m, hm, quiet⟩ := h n
  exact absurd (enabled m hm) (quiet p)

/-! ## The schedule -/

/-- The image every read answers with, of the configured shape. -/
def starvingImage : Image := (fetchPayload Config.reference).image

/-- Grabber 0's turn; its source opens and always has an image. -/
def starvingTurn : Event :=
  .advance (.grb 0) { (default : Draws) with openOk := true, read := .ok starvingImage }

/-- Tracker 0 issues an operation. -/
def trackerIssues (i : Instr) : Event := .issue (.trk 0) (encode i) default default

/-- ALLOC, GSTART 0, the run loop of Grabber 0 up to ENQ, the Tracker's LOCK, and the WRSLOT that now has
to wait. -/
def starvingOpening : List Event :=
  [.issue .mgr (encode (.alloc 0)) (fetchPayload Config.reference) default,
    .issue .mgr (encode (.gstart 0)) default default] ++
  List.replicate 5 starvingTurn ++ [trackerIssues (.lock 0), starvingTurn]

/-- After the opening, whose length is odd, the Tracker frees the lock and takes it again, for ever. -/
def starvingSchedule (n : Nat) : Event :=
  starvingOpening.getD n (trackerIssues (if n % 2 = 1 then .unlock 0 else .lock 0))

theorem starvingSchedule_of_ge {n : Nat} (h : 9 ≤ n) :
    starvingSchedule n = trackerIssues (if n % 2 = 1 then .unlock 0 else .lock 0) :=
  List.getD_eq_default _ _ h

/-! ## What stays so while the Grabber waits -/

/-- Grabber 0 in phase `Wr` with its first Frame. -/
def starvingGrabber : Grabber :=
  ⟨.wr, .running, 1, none, some ⟨0, 0, none, starvingImage, "cam0"⟩, none, 0⟩

/-- The WRSLOT that waits. -/
def starvingWrite : Pending := ⟨.wrslot 0, { (default : Payload) with image := starvingImage }, []⟩

/-- Grabber 0 waits for the lock in phase `Wr`, nothing else is outstanding, and every other Grabber and
every Tracker is as after reset. It does not say who holds the lock. -/
structure State.Starving (s : State) : Prop where
  cfg : s.cfg = Config.reference
  allocated : s.allocated = true
  locks : s.locks.length = lockCount Config.reference
  grb : s.grb = ((State.resetWith Config.reference).modGrab 0 fun _ => starvingGrabber).grb
  trk : s.trk = (State.resetWith Config.reference).trk
  pend : s.pend = [(.grb 0, starvingWrite)]

section
variable {s t : State}

theorem State.Starving.units (h : s.Starving) : 0 < s.cfg.geo.n ∧ 0 < s.cfg.t := by
  rw [h.cfg]
  decide

theorem State.Starving.locks_length (h : s.Starving) : s.locks.length = lockCount s.cfg :=
  h.locks.trans (congrArg lockCount h.cfg.symm)

theorem State.Starving.grab (h : s.Starving) (i : Nat) :
    s.grab i = if i = 0 then starvingGrabber else Grabber.reset := by
  have hg : s.grab i = ((State.resetWith Config.reference).modGrab 0 fun _ => starvingGrabber).grab i :=
    congrArg (·.getD i Grabber.reset) h.grb
  have h0 : 0 < (State.resetWith Config.reference).grb.length := by decide
  simp only [hg, grab_modGrab, resetWith_grab, h0, and_true]

theorem State.Starving.atRest (h : s.Starving) (p : Port) : s.inCycle p = false := by
  cases p with
  | trk j =>
    have hj : s.tracker j = Tracker.reset := (tracker_eq_of_trk_eq h.trk j).trans (resetWith_tracker _ j)
    rw [State.inCycle, hj]
    rfl
  | mgr | grb i | wtr => rfl

theorem State.Starving.outstandingOf (h : s.Starving) (p : Port) :
    s.outstandingOf p = if p = .grb 0 then some starvingWrite else none := by
  rw [State.outstandingOf, h.pend]
  split_ifs with hp
  · rw [hp]
    rfl
  · simp [List.lookup, beq_false_of_ne hp]

/-- No agent but the waiting Grabber's is in the middle of anything. -/
theorem State.Starving.not_underWay (h : s.Starving) {p : Port} (hp : p ≠ .grb 0) :
    s.underWay p = false := by
  have ho : s.outstandingOf p = none := (h.outstandingOf p).trans (if_neg hp)
  cases p with
  | grb i =>
    have hi : i ≠ 0 := fun hi => hp (congrArg Port.grb hi)
    simp [State.underWay, ho, h.atRest, h.grab, hi, Grabber.reset]
  | mgr | wtr | trk j => simp [State.underWay, ho, h.atRest]

/-- The waiting Grabber's own step, while another port holds the lock, is to go on waiting
(20_memory.md R72). -/
theorem State.Starving.grabber_waits (h : s.Starving) {q : Port} (hl : s.lockOf 0 = some q)
    (hq : q ≠ .grb 0) {d : Draws} (ht : step (s.given (.advance (.grb 0) d)) = .next t) :
    idleBetween s t := by
  have ho : s.outstandingOf (.grb 0) = some starvingWrite := h.outstandingOf _
  rcases step_given_of_busy ho rfl ht with hi | ⟨d, hx⟩
  · exact hi
  · have hw : (s.grab 0).wip = none := by
      rw [h.grab]
      rfl
    have waits := (exec_wrslot_waited (u := 0)
      (s := { s with script := [], inp := ⟨.grb 0, starvingWrite.payload, d⟩ }) ho hw).trans
      (acquireAndWrite_of_other _ hl hq)
    obtain rfl := Host.Outcome.next.inj (waits.symm.trans hx)
    exact idleBetween_keepOpen ho

/-- While a Tracker holds the lock no agent is enabled. -/
theorem State.Starving.not_enabled (h : s.Starving) {j : Nat} (hl : s.lockOf 0 = some (.trk j))
    (p : Port) : ¬s.enabled p := by
  rintro ⟨busy, d, -, t, ht, moved⟩
  by_cases hp : p = .grb 0
  · subst hp
    exact moved (h.grabber_waits hl nofun ht)
  · rw [h.not_underWay hp] at busy
    cases busy

/-! ## The Tracker's LOCK and UNLOCK -/

/-- The state in which an operation that Tracker 0 issues runs. -/
def State.trackerMoves (s : State) : State :=
  { s with script := [], inp := ⟨.trk 0, default, default⟩ }

/-- Tracker 0, at rest, may issue any operation. -/
theorem State.Starving.step_trackerIssues (h : s.Starving) (i : Instr) :
    step (s.given (trackerIssues i)) = exec i s.trackerMoves := by
  have free : (s.given (trackerIssues i)).portFree (.trk 0) = true := by
    have ho : (s.given (trackerIssues i)).outstandingOf (.trk 0) = none := h.outstandingOf (.trk 0)
    have hc : (s.given (trackerIssues i)).inCycle (.trk 0) = false := h.atRest (.trk 0)
    have hp : portExists (s.given (trackerIssues i)).cfg (.trk 0) = true := decide_eq_true h.units.2
    simp [State.portFree, State.portIdle, ho, hc, hp]
  exact (stepRunsTheDecodedCommand _ _ _ _ _ _ rfl).1 free i (decodeOfEncodeIsTheOperation i)

/-- After an operation of Tracker 0 that writes the lock register and responds, the Grabber still waits. -/
theorem State.Starving.after_trackerIssues (h : s.Starving) {i : Instr} {l : List (Option Port)} {r : Result}
    (hl : l.length = lockCount s.cfg)
    (he : exec i s.trackerMoves = .next (({ s.trackerMoves with locks := l } : State).respond r)) :
    (s.after (trackerIssues i)).Starving ∧
      (s.after (trackerIssues i)).lockOf 0 = ({ s.trackerMoves with locks := l } : State).lockOf 0 := by
  rw [after_of_step ((h.step_trackerIssues i).trans he)]
  refine ⟨{ h with locks := hl.trans (congrArg lockCount h.cfg), pend := ?_ }, rfl⟩
  show dropPending (.trk 0) s.pend = _
  rw [h.pend]
  rfl

/-- Tracker 0 takes the free lock. -/
theorem State.Starving.after_lock (h : s.Starving) (hl : s.lockOf 0 = none) :
    (s.after (trackerIssues (.lock 0))).Starving ∧
      (s.after (trackerIssues (.lock 0))).lockOf 0 = some (.trk 0) := by
  obtain ⟨taken, -⟩ := lockAcquiresOrWaits 0 s.trackerMoves (.inr ⟨0, rfl⟩) h.allocated h.units.1
  obtain ⟨l, he, written⟩ := taken hl
  obtain ⟨hlen, holder⟩ := written h.locks_length
  obtain ⟨starving, hof⟩ := h.after_trackerIssues hlen he
  exact ⟨starving, hof.trans ((holder 0).trans (if_pos (.inr rfl)))⟩

/-- Tracker 0 frees the lock it holds. -/
theorem State.Starving.after_unlock (h : s.Starving) (hl : s.lockOf 0 = some (.trk 0)) :
    (s.after (trackerIssues (.unlock 0))).Starving ∧
      (s.after (trackerIssues (.unlock 0))).lockOf 0 = none := by
  obtain ⟨freed, -⟩ := unlockReleases 0 s.trackerMoves (.inr ⟨0, rfl⟩) h.allocated h.units.1
  obtain ⟨l, he, written⟩ := freed hl
  obtain ⟨hlen, holder⟩ := written h.locks_length
  obtain ⟨starving, hof⟩ := h.after_trackerIssues hlen he
  exact ⟨starving, hof.trans ((holder 0).trans (if_pos (.inr rfl)))⟩

end

/-! ## The run -/

/-- The states of the run, from reset. -/
def starvingState : Nat → State := (State.resetWith Config.reference).under starvingSchedule

/-- The opening, evaluated, ends with Grabber 0 waiting for the lock that Tracker 0 holds. -/
theorem starvingState_opening :
    (starvingState 9).Starving ∧ (starvingState 9).lockOf 0 = some (.trk 0) :=
  ⟨⟨rfl, rfl, rfl, rfl, rfl, rfl⟩, rfl⟩

/-- From then on Grabber 0 waits, and the lock is Tracker 0's and free in turn. -/
theorem starvingState_starving {n : Nat} (hn : 9 ≤ n) :
    (starvingState n).Starving ∧
      (starvingState n).lockOf 0 = if n % 2 = 1 then some (.trk 0) else none := by
  induction n, hn using Nat.le_induction with
  | base => exact starvingState_opening
  | succ n hn ih =>
    obtain ⟨h, hl⟩ := ih
    have hs : starvingState (n + 1) = (starvingState n).after (starvingSchedule n) := rfl
    rw [hs, starvingSchedule_of_ge hn]
    by_cases hodd : n % 2 = 1
    · rw [if_pos hodd] at hl
      rw [if_pos hodd, if_neg (by omega)]
      exact h.after_unlock hl
    · rw [if_neg hodd] at hl
      rw [if_neg hodd, if_pos (by omega)]
      exact h.after_lock hl

/-- The schedule is weakly fair: again and again the Tracker holds the lock and no agent is enabled. -/
theorem starvingState_weaklyFair : WeaklyFair starvingState starvingSchedule := by
  refine weaklyFair_of_quiet fun n => ⟨2 * n + 9, by omega, ?_⟩
  obtain ⟨h, hl⟩ := starvingState_starving (n := 2 * n + 9) (by omega)
  rw [if_pos (by omega)] at hl
  exact h.not_enabled hl

theorem reference_legal : Config.reference.legal = true := rfl

/-- A run from reset in which Tracker 0 keeps Grabber 0 waiting. -/
def starvingRun : Run :=
  .ofSchedule (State.resetWith Config.reference)
    (resetMeetsTheInvariants Config.reference reference_legal).1 starvingSchedule starvingState_weaklyFair

/-- Settles O58, by `starvingRun`: after the opening Grabber 0 waits at every moment, and the lock is free at
every other one. -/
theorem weakFairnessLetsAWriterStarve : Obligations.WeakFairnessLetsAWriterStarve := by
  refine ⟨starvingRun, Config.reference, 9, reference_legal, rfl, fun m hm => ?_,
    fun m => ⟨2 * m + 10, by omega, ?_⟩⟩
  · have h : (starvingRun.state m).Starving := (starvingState_starving hm).1
    exact ⟨by rw [h.grab]; rfl, starvingWrite, h.outstandingOf _, rfl⟩
  · exact (starvingState_starving (by omega)).2.trans (if_neg (by omega))

end Sys2Proof.Machine
end
